-- ==== Sys2Proof/Word.lean ====
section
/-! DEFINITION. The word type of the block: one byte (spec 00_scope.md R18, 20_memory.md R69). -/

namespace Sys2Proof

/-- One byte on the transport, in a register or in the data buffer. -/
abbrev Byte := BitVec 8

end Sys2Proof
end

