-- ==== Sys2Proof/Config.lean ====
section
/-! DEFINITION. The parameters of spec 00_scope.md R9, the constants of other rules, and the free values:
constants with no body, so that nothing can be proved about the value they take. -/

namespace Sys2Proof

/-- The parameters of R9, all of them, and the fifteen indices of R96. `State.cfg` holds one; no step changes it. What
a value other than the default does to a number the rules write out is said in log entry 4. -/
structure Params where
  /-- `SECTOR_BYTES`, bytes per sector. -/
  sectorBytes : Nat
  /-- `R1_POLLS` (R175), loaded into a 16-bit counter (R41); log entry 23. -/
  r1Polls : Nat
  /-- `CODE_NOT_READY` (R102). -/
  codeNotReady : Byte
  /-- `CODE_RESP_TIMEOUT` (R102). -/
  codeRespTimeout : Byte
  /-- `TOKEN_START_SINGLE` (R110). -/
  tokenStartSingle : Byte
  /-- `TOKEN_START_MULTI` (R111). -/
  tokenStartMulti : Byte
  /-- `TOKEN_STOP_TRAN` (R112). -/
  tokenStopTran : Byte
  /-- `DATA_RESP_ACCEPTED`, the low nibble of an accepting data response (R114). -/
  dataRespAccepted : BitVec 4
  /-- `TICK_MS`: timing only, read by no rule (R9, R440). -/
  tickMs : Nat
  /-- `RECV_TOKEN_TICKS` (R271). -/
  recvTokenTicks : Nat
  /-- `SEND_BUSY_TICKS` (R281). -/
  sendBusyTicks : Nat
  /-- `NEGOTIATION_TICKS` (R220). -/
  negotiationTicks : Nat
  /-- `IF_COND_ARG` (R213). -/
  ifCondArg : BitVec 32
  /-- `POWERUP_BYTES` (R211, D34). -/
  powerupBytes : Nat
  /-- `WAIT_READY_TICKS` (R151, D10). -/
  waitReadyTicks : Nat
  /-- `CMD_PREFIX`, bits 7:6 of the command byte (R92, D5). -/
  cmdPrefix : BitVec 2
  /-- `DUMMY_CRC7` (R95, D7). -/
  dummyCrc7 : BitVec 7
  /-- `FILL`, the byte transmitted when only receiving (R145, D8). -/
  fill : Byte
  /-- `START_TOKEN_STRICT` (R116, D13); what it does where `FILL` is not 0xFF: log entry 25. -/
  startTokenStrict : Bool
  /-- `RESP_MAX`, the size of `RESP` (R32, D35); what a size below 4 does: log entry 26. -/
  respMax : Nat
  /-- `TIMER_WIDTH`, the width of `T1`, `T2` and `TVAL` (R45, D11); log entry 3. -/
  timerWidth : Nat
  /-- `ADDR_WIDTH`, OPEN (R9, D19). -/
  addrWidth : Nat
  /-- `WRITE_SUPPORT` (R250, D36). -/
  writeSupport : Bool
  idxGoIdle : BitVec 6
  idxSendOpCond : BitVec 6
  idxSendIfCond : BitVec 6
  idxSendCsd : BitVec 6
  idxSendCid : BitVec 6
  idxStopTransmission : BitVec 6
  idxSetBlocklen : BitVec 6
  idxReadSingle : BitVec 6
  idxReadMulti : BitVec 6
  idxWriteSingle : BitVec 6
  idxWriteMulti : BitVec 6
  idxAppCmd : BitVec 6
  idxReadOcr : BitVec 6
  idxSdStatus : BitVec 6
  idxSdSendOpCond : BitVec 6
  deriving DecidableEq, Repr

/-- `ADDR_WIDTH` is OPEN: "no default and no rule depends on its value" (R9). A constant with no body; log entry 2. -/
opaque Config.addrWidth : Nat

/-- The byte the transport returns at an exchange the state's own script does not answer: "a free input: no rule
constrains it" (R143, R15). Log entry 5. -/
opaque Config.freeByte : Nat → Byte

/-- Whether the next event, where the state's own list gives none, is a `TICK` (R15, R81). Log entry 6. -/
opaque Config.freeTick : Nat → Bool

/-- `SECTOR_COUNT` for a negative version-1 exponent: unspecified (R318, U3). Log entry 9. -/
opaque Config.freeSectorCount : Nat → BitVec 32

/-- `ERASE_BLOCK` of an SDv1 card whose `WRITE_BL_LEN` is not 9, 10 or 11: unspecified (R333, U4). Log entry 10. -/
opaque Config.freeEraseBlock : Nat → BitVec 32

/-- The host's own byte order, "outside this spec" (R360): which byte of a number of `size` bytes, 0 the least
significant, the host lays at offset `i` of the caller's buffer. Log entry 27. -/
opaque Config.hostByteOrder (size i : Nat) : Nat

/-- The defaults of R9 and R96. -/
def Params.default : Params where
  sectorBytes := 512
  r1Polls := 8
  codeNotReady := 0x81#8
  codeRespTimeout := 0x82#8
  tokenStartSingle := 0xFE#8
  tokenStartMulti := 0xFC#8
  tokenStopTran := 0xFD#8
  dataRespAccepted := 0x5#4
  tickMs := 10
  recvTokenTicks := 10
  sendBusyTicks := 20
  negotiationTicks := 100
  ifCondArg := 0x000001AA#32
  powerupBytes := 10
  waitReadyTicks := 50
  cmdPrefix := 0b01#2
  dummyCrc7 := 0#7
  fill := 0xFF#8
  startTokenStrict := false
  respMax := 4
  timerWidth := 16
  addrWidth := Config.addrWidth
  writeSupport := true
  idxGoIdle := 0#6
  idxSendOpCond := 1#6
  idxSendIfCond := 8#6
  idxSendCsd := 9#6
  idxSendCid := 10#6
  idxStopTransmission := 12#6
  idxSetBlocklen := 16#6
  idxReadSingle := 17#6
  idxReadMulti := 18#6
  idxWriteSingle := 24#6
  idxWriteMulti := 25#6
  idxAppCmd := 55#6
  idxReadOcr := 58#6
  idxSdStatus := 13#6
  idxSdSendOpCond := 41#6

namespace Config

/-- `CODE_REFUSED` (R124). -/
def codeRefused : Byte := 0xFF#8
/-- The received byte that means ready (R115). -/
def readyByte : Byte := 0xFF#8
/-- The boolean result `ok` (R31). -/
def ok : Byte := 1#8
/-- The boolean result `fail` (R31). -/
def fail : Byte := 0#8

end Config
end Sys2Proof
end

