-- ==== Sys2Proof/Machine/Crc.lean ====
section
/-! DEFINITION. The CRC-7 of 30_encoding.md R93, the trailer selector of R94, and the 48-bit frame of R91. -/

namespace Sys2Proof.Machine

/-- One bit of the bit-serial CRC-7 (R93). -/
def crc7Bit (crc : BitVec 7) (b : Bool) : BitVec 7 :=
  if (crc.getLsbD 6).xor b then (crc <<< 1) ^^^ 0b0001001#7 else crc <<< 1

/-- One byte, most significant bit first (R93). -/
def crc7Byte (crc : BitVec 7) (b : Byte) : BitVec 7 :=
  [7, 6, 5, 4, 3, 2, 1, 0].foldl (fun c k => crc7Bit c (b.getLsbD k)) crc

/-- `crc7(b[0..n-1])`, initial remainder 0 (R93). -/
def crc7 (bs : List Byte) : BitVec 7 :=
  bs.foldl crc7Byte 0#7

/-- A 32-bit word as four bytes, most significant first (R66). -/
def bytes32 (w : BitVec 32) : List Byte :=
  [w.extractLsb' 24 8, w.extractLsb' 16 8, w.extractLsb' 8 8, w.extractLsb' 0 8]

/-- `frame[0..4]`: the command byte and the argument, big-endian (R91, R92). -/
def frameHead (pre : BitVec 2) (idx : BitVec 6) (arg : BitVec 32) : List Byte :=
  (pre ++ idx : BitVec 8) :: bytes32 arg

/-- The trailer byte: seven CRC bits and the stop bit 1 (R91). -/
def trailerByte (crc : BitVec 7) : Byte := crc ++ 1#1

/-- The seven CRC bits the selector of R94 chooses. -/
def selectCrc (p : Params) (idx : BitVec 6) (arg : BitVec 32) : BitVec 7 :=
  if idx = p.idxGoIdle ∨ idx = p.idxSendIfCond then crc7 (frameHead p.cmdPrefix idx arg) else p.dummyCrc7

/-- The six bytes `SENDCMD` transmits, `frame[0]` first (R91, R94, R176). -/
def buildFrame (p : Params) (idx : BitVec 6) (arg : BitVec 32) : List Byte :=
  frameHead p.cmdPrefix idx arg ++ [trailerByte (selectCrc p idx arg)]

end Sys2Proof.Machine
end

