-- ==== Sys2Proof/Syntax.lean ====
section
/-! DEFINITION. The instructions: one constructor per row of spec/opcode_table.json. The host operations and the
reserved codes (30_encoding.md R120), the pseudo-operations (R122), the command frames (R91, R96, R97), and the
one-byte elements of the wire and of the result register (R100, R102, R110 to R115, R124). BUF and TVAL are numbers,
since their widths are parameters (R121, R9; log entry 2). -/

namespace Sys2Proof

inductive Instr where
  -- host operations (R120)
  | select
  | deselect
  | xchg (txb : Byte)
  | waitrdy
  | sendcmd (idx : BitVec 6) (arg : BitVec 32) (rlen : Byte)
  | sendacmd (idx : BitVec 6) (arg : BitVec 32) (rlen : Byte)
  | recvblk (buf : Nat) (len : BitVec 16)
  | sendblk (buf : Nat) (len : BitVec 16) (tok : Byte)
  | rdsect (sect cnt : BitVec 32) (buf : Nat)
  | wrsect (sect cnt : BitVec 32) (buf : Nat)
  | rdconfig
  | settype (typein : BitVec 3)
  | sync
  | ldt1 (tval : Nat)
  | reservedE
  | reservedF
  -- pseudo-operations (R122)
  | cmdN (n : BitVec 6) (arg : BitVec 32) (rlen : Byte)
  | acmdN (n : BitVec 6) (arg : BitVec 32) (rlen : Byte)
  | idleclk (k : Nat)
  -- command frames (R97): the argument, and where the row leaves it open the CRC or trailer field
  | cmd0 (arg : BitVec 32) (crc : BitVec 7)
  | cmd1 (arg : BitVec 32)
  | cmd8 (arg : BitVec 32) (crc : BitVec 7)
  | cmd9 (arg : BitVec 32)
  | cmd10 (arg : BitVec 32)
  | cmd12 (arg : BitVec 32)
  | cmd16 (arg : BitVec 32)
  | cmd17 (arg : BitVec 32)
  | cmd18 (arg : BitVec 32)
  | cmd24 (arg : BitVec 32)
  | cmd25 (arg : BitVec 32)
  | cmd55 (arg : BitVec 32)
  | cmd58 (arg : BitVec 32)
  | acmd13 (arg : BitVec 32)
  | acmd41 (arg : BitVec 32)
  | frameAny (idx : BitVec 6) (arg : BitVec 32) (trailer : BitVec 7)
  -- one-byte elements
  | tokenStartSingle
  | tokenStartMulti
  | tokenStopTran
  | dataResponseAccepted (high : BitVec 4)
  | r1Valid (flags : BitVec 7)
  | codeNotReady
  | codeRespTimeout
  | codeRefused
  | ready
  deriving DecidableEq, Repr

/-- Where an encoded instruction stands: the same byte means different things at different places (R100, R110 to
R116, R124), so the place is part of the encoding. -/
inductive Place where
  /-- presented at the host port: a host operation with its operands, or a command by its 48-bit frame -/
  | host
  /-- a received byte while the block waits for a start token (R116) -/
  | tokenWait
  /-- a transmitted start token (R110, R111) -/
  | startToken
  /-- a transmitted stop token (R112) -/
  | stopToken
  /-- a received byte in the response poll (R100) -/
  | response
  /-- the received byte after the second CRC byte of a block sent (R114) -/
  | dataResponse
  /-- a received byte where the block waits for readiness (R115) -/
  | busy
  /-- a result code of the block (R102, R124) -/
  | result
  deriving DecidableEq, Repr

/-- The pseudo-operations, which have no words of their own (R122). -/
def Instr.pseudo : Instr → Bool
  | .cmdN .. | .acmdN .. | .idleclk .. => true
  | _ => false

end Sys2Proof
end

