-- ==== Sys2Proof/WellFormed.lean ====
section
/-! DEFINITION. Which instruction terms are well formed: every operand but three has exactly the width its field has
(R121), so the checks left are those on the CRC and trailer fields of a frame (R93, R94) and on the general frame's
index, which must be none of the fifteen that have a row of their own (R96, R97). Default parameters, as the table. -/

namespace Sys2Proof

/-- The fifteen indices of R96 that have a frame row of their own. -/
def tabledIndices : List (BitVec 6) := [0, 1, 8, 9, 10, 12, 16, 17, 18, 24, 25, 55, 58, 13, 41]

/-- The CRC field of a `CMD0` or `CMD8` frame is genuine (R94). -/
def genuineCrc (idx : BitVec 6) (arg : BitVec 32) (crc : BitVec 7) : Bool :=
  crc == Machine.crc7 (Machine.frameHead 0b01#2 idx arg)

def Instr.wellFormed : Instr → Bool
  | .cmd0 arg crc => genuineCrc 0 arg crc
  | .cmd8 arg crc => genuineCrc 8 arg crc
  | .frameAny idx _ trailer => trailer == 0#7 && !tabledIndices.contains idx
  | _ => true

end Sys2Proof
end

