-- ==== Sys2Proof/Decode.lean ====
section
/-! DEFINITION. The decoder, total on any bytes at any place, rejecting by name, and the encoder, both written from
30_encoding.md (R91 to R124). The bytes of a host operation (the code's byte, then the operands in the order of R120,
each most significant byte first, BUF and TVAL in groups of seven bits) are the model's own: the spec names no host port
(D1); log entries 1, 2. The tokens and codes are parameters (R9), so both take them. -/

namespace Sys2Proof

inductive DecodeError where
  /-- fewer bytes than the form needs -/
  | truncated
  /-- the first byte is neither an operation code nor a command byte -/
  | noSuchForm
  /-- a frame whose last bit is not the stop bit 1 (R91) -/
  | noStopBit
  /-- an operand byte with a bit set above its field's width (R121) -/
  | spareBits
  /-- not the element looked for at this place (R100, R114, R115, R116) -/
  | noMatch
  deriving DecidableEq, Repr

namespace Decode

def word16 (a b : Byte) : BitVec 16 := a ++ b
def word32 (a b c d : Byte) : BitVec 32 := a ++ b ++ c ++ d

def bytes16 (w : BitVec 16) : List Byte := [w.extractLsb' 8 8, w.extractLsb' 0 8]

/-- A number of any width: seven bits a byte, least significant group first, bit 7 set in every byte but the last. -/
def takeNumber : List Byte → Except DecodeError (Nat × List Byte)
  | [] => .error .truncated
  | b :: bs =>
    if b.getLsbD 7 then
      match takeNumber bs with
      | .ok (n, rest) => .ok ((b.extractLsb' 0 7).toNat + 128 * n, rest)
      | .error e => .error e
    else .ok ((b.extractLsb' 0 7).toNat, bs)

/-- The bytes of a number, by at most `fuel` bytes before the last. -/
def numberGroups : Nat → Nat → List Byte
  | 0, n => [0#1 ++ BitVec.ofNat 7 n]
  | fuel + 1, n =>
    if n < 128 then [0#1 ++ BitVec.ofNat 7 n] else (1#1 ++ BitVec.ofNat 7 n) :: numberGroups fuel (n / 128)

/-- The bytes of a number; `n` groups are more than it needs. -/
def numberBytes (n : Nat) : List Byte := numberGroups n n

/-- The operands of the two command operations: IDX, ARG, RLEN. -/
def commandOperands (mk : BitVec 6 → BitVec 32 → Byte → Instr) : List Byte → Except DecodeError Instr
  | i :: a :: b :: c :: d :: l :: _ =>
    if i.extractLsb' 6 2 = 0#2 then .ok (mk (i.extractLsb' 0 6) (word32 a b c d) l) else .error .spareBits
  | _ => .error .truncated

/-- The operands of the two sector operations: SECT, CNT, BUF. -/
def sectorOperands (mk : BitVec 32 → BitVec 32 → Nat → Instr) : List Byte → Except DecodeError Instr
  | s₁ :: s₂ :: s₃ :: s₄ :: c₁ :: c₂ :: c₃ :: c₄ :: xs =>
    match takeNumber xs with
    | .ok (buf, _) => .ok (mk (word32 s₁ s₂ s₃ s₄) (word32 c₁ c₂ c₃ c₄) buf)
    | .error e => .error e
  | _ => .error .truncated

/-- `RECVBLK`: BUF, LEN. -/
def recvOperands (xs : List Byte) : Except DecodeError Instr :=
  match takeNumber xs with
  | .ok (buf, l₁ :: l₂ :: _) => .ok (.recvblk buf (word16 l₁ l₂))
  | .ok _ => .error .truncated
  | .error e => .error e

/-- `SENDBLK`: BUF, LEN, TOK. -/
def sendOperands (xs : List Byte) : Except DecodeError Instr :=
  match takeNumber xs with
  | .ok (buf, l₁ :: l₂ :: t :: _) => .ok (.sendblk buf (word16 l₁ l₂) t)
  | .ok _ => .error .truncated
  | .error e => .error e

def xchgOperands : List Byte → Except DecodeError Instr
  | t :: _ => .ok (.xchg t)
  | [] => .error .truncated

def settypeOperands : List Byte → Except DecodeError Instr
  | t :: _ => if t.extractLsb' 3 5 = 0#5 then .ok (.settype (t.extractLsb' 0 3)) else .error .spareBits
  | [] => .error .truncated

def ldt1Operands (xs : List Byte) : Except DecodeError Instr :=
  match takeNumber xs with
  | .ok (tval, _) => .ok (.ldt1 tval)
  | .error e => .error e

/-- The host operation with code `op` (R120). -/
def operation (op : BitVec 4) (xs : List Byte) : Except DecodeError Instr :=
  match op.toNat with
  | 0x0 => .ok .select
  | 0x1 => .ok .deselect
  | 0x2 => xchgOperands xs
  | 0x3 => .ok .waitrdy
  | 0x4 => commandOperands .sendcmd xs
  | 0x5 => commandOperands .sendacmd xs
  | 0x6 => recvOperands xs
  | 0x7 => sendOperands xs
  | 0x8 => sectorOperands .rdsect xs
  | 0x9 => sectorOperands .wrsect xs
  | 0xA => .ok .rdconfig
  | 0xB => settypeOperands xs
  | 0xC => .ok .sync
  | 0xD => ldt1Operands xs
  | 0xE => .ok .reservedE
  | _ => .ok .reservedF

/-- The frame row with index `idx` whose trailer field is the dummy 0 (R96, R97). -/
def dummyFrame (idx : BitVec 6) (arg : BitVec 32) : Instr :=
  match idx.toNat with
  | 1 => .cmd1 arg
  | 9 => .cmd9 arg
  | 10 => .cmd10 arg
  | 12 => .cmd12 arg
  | 13 => .acmd13 arg
  | 16 => .cmd16 arg
  | 17 => .cmd17 arg
  | 18 => .cmd18 arg
  | 24 => .cmd24 arg
  | 25 => .cmd25 arg
  | 41 => .acmd41 arg
  | 55 => .cmd55 arg
  | 58 => .cmd58 arg
  | _ => .frameAny idx arg 0#7

/-- A frame by its fields: the most specific row of the table that has them (R97). -/
def frameOf (idx : BitVec 6) (arg : BitVec 32) (trailer : BitVec 7) : Instr :=
  if idx = 0#6 then .cmd0 arg trailer
  else if idx = 8#6 then .cmd8 arg trailer
  else if trailer = 0#7 then dummyFrame idx arg
  else .frameAny idx arg trailer

/-- A 48-bit frame whose first byte, with prefix 01, is `b` (R91). -/
def frame (b : Byte) : List Byte → Except DecodeError Instr
  | a₁ :: a₂ :: a₃ :: a₄ :: t :: _ =>
    if t.extractLsb' 0 1 = 1#1 then
      .ok (frameOf (b.extractLsb' 0 6) (word32 a₁ a₂ a₃ a₄) (t.extractLsb' 1 7))
    else .error .noStopBit
  | _ => .error .truncated

/-- What is presented at the host port: bits 7:4 = 0000 an operation, bits 7:6 = 01 a frame. -/
def atHost : List Byte → Except DecodeError Instr
  | [] => .error .truncated
  | b :: xs =>
    if b.extractLsb' 4 4 = 0#4 then operation (b.extractLsb' 0 4) xs
    else if b.extractLsb' 6 2 = 0b01#2 then frame b xs
    else .error .noSuchForm

/-- One byte at a place of the wire or of the result register. -/
def atWire (p : Params) (pl : Place) (b : Byte) : Except DecodeError Instr :=
  match pl with
  | .host => .error .noSuchForm
  | .tokenWait => if b = p.tokenStartSingle then .ok .tokenStartSingle else .error .noMatch
  | .startToken =>
    if b = p.tokenStartSingle then .ok .tokenStartSingle
    else if b = p.tokenStartMulti then .ok .tokenStartMulti else .error .noMatch
  | .stopToken => if b = p.tokenStopTran then .ok .tokenStopTran else .error .noMatch
  | .response => if b.getLsbD 7 then .error .noMatch else .ok (.r1Valid (b.extractLsb' 0 7))
  | .dataResponse =>
    if b.extractLsb' 0 4 = p.dataRespAccepted then .ok (.dataResponseAccepted (b.extractLsb' 4 4))
    else .error .noMatch
  | .busy => if b = Config.readyByte then .ok .ready else .error .noMatch
  | .result =>
    if b = p.codeNotReady then .ok .codeNotReady
    else if b = p.codeRespTimeout then .ok .codeRespTimeout
    else if b = Config.codeRefused then .ok .codeRefused else .error .noMatch

end Decode

/-- The decoder. -/
def decode (p : Params) (pl : Place) (bs : List Byte) : Except DecodeError Instr :=
  match pl, bs with
  | .host, bs => Decode.atHost bs
  | _, [] => .error .truncated
  | pl, b :: _ => Decode.atWire p pl b

namespace Encode

def operationByte (op : BitVec 4) : Byte := 0#4 ++ op

def command (op : BitVec 4) (idx : BitVec 6) (arg : BitVec 32) (rlen : Byte) : List Byte :=
  operationByte op :: (0#2 ++ idx : BitVec 8) :: (Machine.bytes32 arg ++ [rlen])

def sector (op : BitVec 4) (sect cnt : BitVec 32) (buf : Nat) : List Byte :=
  operationByte op :: (Machine.bytes32 sect ++ Machine.bytes32 cnt ++ Decode.numberBytes buf)

def frame (idx : BitVec 6) (arg : BitVec 32) (trailer : BitVec 7) : List Byte :=
  Machine.frameHead 0b01#2 idx arg ++ [Machine.trailerByte trailer]

end Encode

/-- The place an instruction is decoded at. `TOKEN_START_SINGLE` has two: received (`tokenWait`) and transmitted. -/
def place : Instr → Place
  | .tokenStartSingle => .tokenWait
  | .tokenStartMulti => .startToken
  | .tokenStopTran => .stopToken
  | .dataResponseAccepted _ => .dataResponse
  | .r1Valid _ => .response
  | .codeNotReady | .codeRespTimeout | .codeRefused => .result
  | .ready => .busy
  | _ => .host

/-- The bytes of an instruction. A pseudo-operation's are those of the operations it stands for (R122). -/
def encode (p : Params) : Instr → List Byte
  | .select => [Encode.operationByte 0x0#4]
  | .deselect => [Encode.operationByte 0x1#4]
  | .xchg txb => [Encode.operationByte 0x2#4, txb]
  | .waitrdy => [Encode.operationByte 0x3#4]
  | .sendcmd idx arg rlen => Encode.command 0x4#4 idx arg rlen
  | .sendacmd idx arg rlen => Encode.command 0x5#4 idx arg rlen
  | .recvblk buf len => Encode.operationByte 0x6#4 :: (Decode.numberBytes buf ++ Decode.bytes16 len)
  | .sendblk buf len tok => Encode.operationByte 0x7#4 :: (Decode.numberBytes buf ++ Decode.bytes16 len ++ [tok])
  | .rdsect sect cnt buf => Encode.sector 0x8#4 sect cnt buf
  | .wrsect sect cnt buf => Encode.sector 0x9#4 sect cnt buf
  | .rdconfig => [Encode.operationByte 0xA#4]
  | .settype typein => [Encode.operationByte 0xB#4, 0#5 ++ typein]
  | .sync => [Encode.operationByte 0xC#4]
  | .ldt1 tval => Encode.operationByte 0xD#4 :: Decode.numberBytes tval
  | .reservedE => [Encode.operationByte 0xE#4]
  | .reservedF => [Encode.operationByte 0xF#4]
  | .cmdN n arg rlen => Encode.command 0x4#4 n arg rlen
  | .acmdN n arg rlen => Encode.command 0x5#4 n arg rlen
  | .idleclk k => (List.replicate k [Encode.operationByte 0x2#4, 0xFF#8]).flatten
  | .cmd0 arg crc => Encode.frame 0 arg crc
  | .cmd1 arg => Encode.frame 1 arg 0
  | .cmd8 arg crc => Encode.frame 8 arg crc
  | .cmd9 arg => Encode.frame 9 arg 0
  | .cmd10 arg => Encode.frame 10 arg 0
  | .cmd12 arg => Encode.frame 12 arg 0
  | .cmd16 arg => Encode.frame 16 arg 0
  | .cmd17 arg => Encode.frame 17 arg 0
  | .cmd18 arg => Encode.frame 18 arg 0
  | .cmd24 arg => Encode.frame 24 arg 0
  | .cmd25 arg => Encode.frame 25 arg 0
  | .cmd55 arg => Encode.frame 55 arg 0
  | .cmd58 arg => Encode.frame 58 arg 0
  | .acmd13 arg => Encode.frame 13 arg 0
  | .acmd41 arg => Encode.frame 41 arg 0
  | .frameAny idx arg trailer => Encode.frame idx arg trailer
  | .tokenStartSingle => [p.tokenStartSingle]
  | .tokenStartMulti => [p.tokenStartMulti]
  | .tokenStopTran => [p.tokenStopTran]
  | .dataResponseAccepted high => [high ++ p.dataRespAccepted]
  | .r1Valid flags => [0#1 ++ flags]
  | .codeNotReady => [p.codeNotReady]
  | .codeRespTimeout => [p.codeRespTimeout]
  | .codeRefused => [Config.codeRefused]
  | .ready => [Config.readyByte]

/-- The longest instruction whose operands are all zero: RDSECT and WRSECT, ten bytes. -/
def longestInstr : Nat := 10

/-- The bytes of an instruction whose table bits are `w`. A row of one byte is laid out as that byte, the operand
bytes after it 0; a frame row is one 48-bit word transmitted most significant byte first (R91). -/
def tableBytes (nbits w : Nat) : List Byte :=
  if nbits ≤ 8 then BitVec.ofNat 8 w :: List.replicate (longestInstr - 1) 0#8
  else (List.range ((nbits + 7) / 8)).reverse.map (fun j => BitVec.ofNat 8 (w >>> (8 * j)))

/-- The place of an instruction whose table bits are `w`. Several one-byte rows share words (0x00 to 0x0F are
operation codes and also received bytes; 0xFF is READY and CODE_REFUSED): log entry 18 says which is taken. -/
def tablePlace (nbits w : Nat) : Place :=
  if 8 < nbits then .host
  else if w < 16 then .host
  else if w = 0x81 ∨ w = 0x82 then .result
  else if w = 0xFE then .tokenWait
  else if w = 0xFC then .startToken
  else if w = 0xFD then .stopToken
  else if w = 0xFF then .busy
  else if w % 16 = 5 then .dataResponse
  else .response

/-- The instruction the decoder reads from the table's bits `w`, with the table's parameters, the defaults. -/
def decodeTableWord (nbits w : Nat) : Option Instr :=
  match decode Params.default (tablePlace nbits w) (tableBytes nbits w) with
  | .ok i => some i
  | .error _ => none

end Sys2Proof
end

