-- ==== Sys2Proof/Machine/State.lean ====
section
/-! DEFINITION. The state of the block, of its host and of what the outside still has to say, and the machine right
after reset (spec 10_state.md). Plain data throughout. -/

namespace Sys2Proof.Machine

/-- The one way a step can fault. The block itself "raises no trap and has no fault state" (R14). -/
inductive Fault where
  /-- Raised by the sequencer where PHASE is a stack the pseudocode cannot produce: a procedure returns into a record
  that does not wait for it, or the top record waits for a callee that is not there (R40). Safe: no run from reset
  reaches such a stack. Log entry 12. -/
  | badPhase
  deriving DecidableEq, Repr

/-- The ways a step can refuse. The block's own refusal (R124) is not one of them: it writes RES = 0xFF and goes on. -/
inductive Refusal where
  /-- Raised by `exec` for an instruction that has no meaning yet. Safe. -/
  | notModelled (mnemonic : String)
  /-- Raised by a step that is to accept bytes which encode no operation: the host port carries operations only
  (R120), and how it carries them is the model's own. Safe. Log entry 19. -/
  | badRequest (e : DecodeError)
  /-- Raised by a host step that is to begin the adapter call `write` where WRITE_SUPPORT is false: "the call does not
  exist" (R357). Safe. Log entry 22. -/
  | noSuchCall
  deriving DecidableEq, Repr

/-- CardType, the value of `CARD_TYPE` (R46). -/
inductive CardType where
  | unknown
  | mmc
  | sdv1
  | sdv2sc
  | sdv2hc
  deriving DecidableEq, Repr

/-- The operand registers (R20 to R25). -/
structure Operands where
  op : BitVec 4
  idx : BitVec 6
  arg : BitVec 32
  rlen : Byte
  sect : BitVec 32
  cnt : BitVec 32
  /-- `BUF`, an `ADDR_WIDTH`-bit address -/
  buf : Nat
  tok : Byte
  len : BitVec 16
  typein : BitVec 3
  /-- `TVAL`, a `TIMER_WIDTH`-bit count -/
  tval : Nat
  txb : Byte
  deriving DecidableEq, Repr

/-- The card configuration (R47 to R54). -/
structure CardConfig where
  sectorSize : BitVec 16
  sectorCount : BitVec 32
  eraseBlock : BitVec 32
  csd : Vector Byte 16
  cid : Vector Byte 16
  ocr : Vector Byte 4
  sdstatus : Vector Byte 64
  deriving DecidableEq, Repr

/-- The procedures of the pseudocode: the fourteen operations (R13). -/
inductive Proc where
  | select | deselect | xchg | waitrdy | sendcmd | sendacmd | recvblk | sendblk
  | rdsect | wrsect | rdconfig | settype | sync | ldt1
  deriving DecidableEq, Repr

/-- Which way a sector transfer goes (R241, R251). -/
inductive Dir where
  | read
  | write
  deriving DecidableEq, Repr

/-- Where RECVBLK stores the payload: the data buffer from an address, or a register of RDCONFIG (R274). -/
inductive Dest where
  | buffer (addr : Nat)
  | cid
  | csd
  | sdstatus
  deriving DecidableEq, Repr

/-- A position in the pseudocode of an operation, with the local variables alive there (R40, R41). Names end in
`Wait…` for a record that waits for the procedure called above it. -/
inductive Pos where
  -- SELECT (R148), XCHG (R150), SETTYPE (R158), LDT1 (R147)
  | selAssert
  | xcXchg (txb : Byte)
  | stSet (typein : BitVec 3)
  | ldLoad (tval : Nat)
  -- CS(release) of procedure `p`, result `v`: the level, then the dummy byte (R142)
  | csOff (p : Proc) (v : Byte)
  | csDummy (p : Proc) (v : Byte)
  -- the return of procedure `p` with result `v`
  | ret (p : Proc) (v : Byte)
  -- WAITRDY (R151)
  | wrLoad
  | wrXchg
  | wrTest (rx : Byte)
  -- SENDCMD (R176); `rest` is what of frame[0..5] is still to be sent
  | scSelect (idx : BitVec 6) (arg : BitVec 32) (rlen : Byte)
  | scWaitRdy (idx : BitVec 6) (arg : BitVec 32) (rlen : Byte)
  | scReady (idx : BitVec 6) (arg : BitVec 32) (rlen : Byte) (rdy : Byte)
  | scFrame (rlen : Byte) (rest : List Byte)
  | scPoll (rlen : Byte) (i : BitVec 16)
  | scPollTest (rlen : Byte) (i : BitVec 16) (r : Byte)
  | scExtra (rlen : Byte) (i : Nat) (r : Byte)
  -- SENDACMD (R201)
  | saStart (idx : BitVec 6) (arg : BitVec 32) (rlen : Byte)
  | saWaitPrefix (idx : BitVec 6) (arg : BitVec 32) (rlen : Byte)
  | saPrefix (idx : BitVec 6) (arg : BitVec 32) (rlen : Byte) (r : Byte)
  | saWaitCmd
  -- RECVBLK (R271)
  | rbLoad (d : Dest) (len : Nat)
  | rbXchg (d : Dest) (len : Nat)
  | rbTest (d : Dest) (len : Nat) (rx : Byte)
  | rbData (d : Dest) (len k : Nat)
  | rbCrc1
  | rbCrc2
  -- SENDBLK (R281)
  | sbTok (buf len : Nat) (tok : Byte)
  | sbData (buf len k : Nat)
  | sbCrc1
  | sbCrc2
  | sbResp
  | sbRespTest (rx : Byte)
  | sbLoad
  | sbXchg
  | sbTest (rx : Byte)
  -- RDSECT (R241) and WRSECT (R251)
  | txStart (dir : Dir) (sect cnt : BitVec 32) (buf : Nat)
  | txWaitSingle (dir : Dir) (buf : Nat)
  | txSingle (dir : Dir) (buf : Nat) (r : Byte)
  | txWaitOne (dir : Dir)
  | txWaitMulti (dir : Dir) (cnt : BitVec 32) (buf : Nat)
  | txMulti (dir : Dir) (cnt : BitVec 32) (buf : Nat) (r : Byte)
  | txWaitBlock (dir : Dir) (rem : BitVec 32) (p : Nat)
  | txBlock (dir : Dir) (rem : BitVec 32) (p : Nat) (flag : Byte)
  | rdStop (rem : BitVec 32)
  | rdWaitStop (rem : BitVec 32)
  | rdStopped (rem : BitVec 32)
  | wsStop (rem : BitVec 32)
  | txWaitRdy (dir : Dir) (rem : BitVec 32)
  | txRdy (dir : Dir) (rem : BitVec 32) (rdy : Byte)
  -- RDCONFIG (R301)
  | rcStart
  | rcWaitOcr
  | rcOcr (r : Byte)
  | rcWaitCidCmd
  | rcCidCmd (r : Byte)
  | rcWaitCid
  | rcCid (flag : Byte)
  | rcWaitCsdCmd
  | rcCsdCmd (r : Byte)
  | rcWaitCsd
  | rcCsd (flag : Byte)
  | rcDecode
  | rcErase
  | rcWaitSdCmd
  | rcSdCmd (r : Byte)
  | rcWaitSd
  | rcSd (flag : Byte)
  | rcSkip (i : Nat)
  | rcUnit
  -- SYNC (R159)
  | syStart
  | syWait
  deriving DecidableEq, Repr

/-- An event of the bus trace (R122, R140). -/
inductive BusEvent where
  /-- `CS+` -/
  | csOn
  /-- `CS-` -/
  | csOff
  /-- `tx/rx`, one exchange -/
  | exchange (tx rx : Byte)
  deriving DecidableEq, Repr

/-- The registers the host can read at any time, without a side effect (R30, R32, R43 to R53, R74). -/
inductive HostReg where
  | res | resp | busyflag | t1 | t2 | cardType | sectorSize | sectorCount | eraseBlock | csd | cid | ocr | sdstatus
  deriving DecidableEq, Repr

/-- What a register read gives: a number, or a byte array in index order. -/
inductive ReadValue where
  | number (n : Nat)
  | bytes (bs : List Byte)
  deriving DecidableEq, Repr

/-- What happens next (R11): an input from outside, or the block and its host going on. -/
inductive Event where
  /-- the `TICK` input (R146) -/
  | tick
  /-- the reset input (R410, R411) -/
  | reset
  /-- the sequencer takes a step; where it is idle, the host does -/
  | go
  /-- these bytes are presented at the host port, whether or not the block is idle (R123) -/
  | present (bytes : List Byte)
  /-- the host writes a byte of the data buffer (R60: the buffers are the caller's) -/
  | hostWrite (addr : Nat) (v : Byte)
  /-- the host reads a register (R11, R74), whether or not the block is idle (R45) -/
  | hostRead (r : HostReg)
  deriving DecidableEq, Repr

/-- A call of the block device adapter (47_block_device_adapter.md R350). -/
inductive Call where
  | status
  | init
  | read (buf : Nat) (sector count : BitVec 32)
  | write (buf : Nat) (sector count : BitVec 32)
  /-- `buf` is the address of the caller's buffer -/
  | ioctl (code buf : Nat)
  deriving DecidableEq, Repr

/-- The adapter's four result codes (R352). -/
inductive ResultCode where
  | okay
  | error
  | notReady
  | parameterError
  deriving DecidableEq, Repr

/-- What an adapter call returns: the status byte (R351), a result code, or `Ok` with a number or bytes (R358, R360). -/
inductive CallRet where
  | status (b : Byte)
  | code (c : ResultCode)
  | number (n : Nat)
  | bytes (bs : List Byte)
  deriving DecidableEq, Repr

/-- Where the host stands in the initialization sequence (43_init_sequence.md) or in an adapter call: the operation
named has been issued, and when the block is idle again the host goes on from here; or it has read the register named,
whose value is kept here, and acts on it next. A step of the host issues one operation or reads one register (R11).
`t` is the candidate type, `r` what RES held. -/
inductive HostPos where
  /-- no call is running -/
  | free
  /-- R210: SETTYPE 0 issued -/
  | afterClear
  /-- R211: ready to issue the next of the idle exchanges, `k` of them issued -/
  | powerup (k : Nat)
  /-- R212: the reset command issued -/
  | afterReset
  /-- R212: RES read -/
  | resetRes (r : Byte)
  /-- R213: the interface-condition command issued -/
  | afterIfCond
  /-- R213: RES read -/
  | ifCondRes (r : Byte)
  /-- R213: RES was 0x01, RESP read -/
  | ifCondResp (resp : List Byte)
  /-- R220: LDT1 issued on the V2 path -/
  | v2Loaded
  /-- R220: the operating-condition command issued on the V2 path -/
  | v2Tried
  /-- R220: RES read -/
  | v2Res (r : Byte)
  /-- R220: RES was 0x01, T1 read -/
  | v2Timer (t1 : Nat)
  /-- R221: the read-OCR command issued -/
  | v2Ocr
  /-- R221: RES read -/
  | v2OcrRes (r : Byte)
  /-- R221: RES was 0x00, RESP read -/
  | v2OcrResp (resp : List Byte)
  /-- R224: the probe issued -/
  | probed
  /-- R224: RES read -/
  | probeRes (r : Byte)
  /-- R225: LDT1 issued on the legacy path -/
  | legacyLoaded (t : CardType)
  /-- R225: the operating-condition command issued on the legacy path -/
  | legacyTried (t : CardType)
  /-- R225: RES read -/
  | legacyRes (t : CardType) (r : Byte)
  /-- R225: RES was not 0x00, T1 read -/
  | legacyTimer (t : CardType) (t1 : Nat)
  /-- R226: the set-block-length command issued -/
  | afterBlocklen (t : CardType)
  /-- R226: RES read -/
  | blocklenRes (t : CardType) (r : Byte)
  /-- R227: DESELECT issued -/
  | released (t : CardType)
  /-- R228: SETTYPE t issued -/
  | typeSet
  /-- R354: RDCONFIG issued -/
  | configRead
  /-- R357: RDSECT or WRSECT issued -/
  | transfer
  /-- R358 code 0: SYNC issued -/
  | syncing
  deriving DecidableEq, Repr

/-- The host: its flag `NOINIT` (R56), its position, the adapter calls and the plain operations it still has to make,
what the last call returned, and what its last register read gave. -/
structure HostAgent where
  noinit : Bool
  pos : HostPos
  calls : List Call
  prog : List (List Byte)
  ret : Option CallRet
  seen : Option ReadValue
  deriving DecidableEq, Repr

@[ext]
structure State where
  /-- the parameters (R9); no step writes them -/
  cfg : Params
  /-- the operand registers -/
  ops : Operands
  /-- `RES` (R30) -/
  res : Byte
  /-- `RESP` (R32) -/
  resp : List Byte
  /-- `PHASE`, the innermost record first; empty is IDLE (R40) -/
  phase : List Pos
  /-- `SEL` (R44) -/
  sel : Bool
  /-- `T1`, `T2` (R45), counts of `TIMER_WIDTH` bits; log entry 3 -/
  t1 : Nat
  t2 : Nat
  /-- `CARD_TYPE` (R46) -/
  cardType : CardType
  /-- the card configuration (R54) -/
  conf : CardConfig
  /-- the data buffer (R60): the bytes that differ from `unwritten`, by rising address -/
  mem : List Host.Cell
  /-- the bus trace (R140), newest first; the model's own, log entry 13 -/
  trace : List BusEvent
  /-- the bytes the transport is going to return (R143); the model's own, log entry 5 -/
  rxq : List Byte
  /-- the events to come (R11, R81); the model's own, log entry 6 -/
  events : List Event
  /-- how many free values have been drawn; the model's own, log entries 5, 6, 9, 10 -/
  drawn : Nat
  /-- the host -/
  host : HostAgent
  deriving DecidableEq, Repr

/-- Operand registers after reset: "unspecified" (R57). DESIGN CHOICE 0, unsafe: log entry 7. -/
def Operands.zero : Operands where
  op := 0
  idx := 0
  arg := 0
  rlen := 0
  sect := 0
  cnt := 0
  buf := 0
  tok := 0
  len := 0
  typein := 0
  tval := 0
  txb := 0

/-- The configuration registers after reset (R57). -/
def CardConfig.zero : CardConfig where
  sectorSize := 0
  sectorCount := 0
  eraseBlock := 0
  csd := Vector.replicate 16 0
  cid := Vector.replicate 16 0
  ocr := Vector.replicate 4 0
  sdstatus := Vector.replicate 64 0

/-- The machine right after reset (R57, R410, R412). -/
def State.reset : State where
  cfg := Params.default
  ops := Operands.zero
  res := 0
  resp := List.replicate Params.default.respMax 0
  phase := []
  sel := false
  t1 := 0
  t2 := 0
  cardType := .unknown
  conf := CardConfig.zero
  mem := []
  trace := []
  rxq := []
  events := []
  drawn := 0
  host := { noinit := true, pos := .free, calls := [], prog := [], ret := none, seen := none }

end Sys2Proof.Machine
end

