-- ==== Sys2Proof/Machine/Ops.lean ====
section
/-! DEFINITION. The named operations over the state: the data buffer (20_memory.md), the primitive events (40 R141 to
R146), the free values, the moves of PHASE (10 R40), the acceptance and the refusal of an operation (30 R123, R124),
and the reset input (70 R410, R411). -/

namespace Sys2Proof.Machine

abbrev Result := Host.Outcome State Fault Refusal

/-! ### The data buffer -/

/-- What a byte nothing has written reads as. DESIGN CHOICE, unsafe: log entry 8. -/
def unwritten : Byte := 0#8

/-- The byte a buffer holds at an address. -/
def cellRead : List Host.Cell → Nat → Byte
  | [], _ => unwritten
  | (b, v) :: m, a => if a = b then v else cellRead m a

/-- Puts a byte at an address; the list stays strictly rising and never lists `unwritten`. -/
def cellWrite : List Host.Cell → Nat → Byte → List Host.Cell
  | [], a, v => if v = unwritten then [] else [(a, v)]
  | (b, w) :: m, a, v =>
    if a < b then (if v = unwritten then (b, w) :: m else (a, v) :: (b, w) :: m)
    else if a = b then (if v = unwritten then m else (a, v) :: m)
    else (b, w) :: cellWrite m a v

/-- The canonical form: addresses strictly rise, and no entry equals what an unlisted address reads as. -/
def Memory.wf : List Host.Cell → Bool
  | [] => true
  | [(_, v)] => v != unwritten
  | (a, v) :: (b, w) :: m => v != unwritten && decide (a < b) && Memory.wf ((b, w) :: m)

/-- A buffer address: "computed modulo 2^ADDR_WIDTH" (R70). -/
def bufAddr (s : State) (a : Nat) : Nat := a % 2 ^ s.cfg.addrWidth

/-- `MemRead(addr, 1)` (R60). -/
def memRead (s : State) (a : Nat) : Byte := cellRead s.mem (bufAddr s a)

/-- `MemWrite(addr, 1, v)` (R60). -/
def memWrite (s : State) (a : Nat) (v : Byte) : State :=
  { s with mem := cellWrite s.mem (bufAddr s a) v }

/-- Bytes stored one after another from address `a` (R67). -/
def memWriteList (a : Nat) : List Byte → State → State
  | [], s => s
  | b :: bs, s => memWriteList (a + 1) bs (memWrite s a b)

/-- "A buffer of n bytes at address BUF wraps exactly when BUF + n > 2^ADDR_WIDTH … a buffer of zero bytes never
wraps" (R70). -/
def bufWraps (s : State) (buf n : Nat) : Bool :=
  !(n == 0) && decide (buf + n > 2 ^ s.cfg.addrWidth)

/-! ### Primitive events -/

/-- One exchange: the byte the transport returns, and the state after it (R143). -/
def xchg (tx : Byte) (s : State) : Byte × State :=
  match s.rxq with
  | rx :: q => (rx, { s with rxq := q, trace := .exchange tx rx :: s.trace })
  | [] =>
    (Config.freeByte s.drawn,
      { s with drawn := s.drawn + 1, trace := .exchange tx (Config.freeByte s.drawn) :: s.trace })

/-- An exchange that transmits `FILL` (R145). -/
def xchgFill (s : State) : Byte × State := xchg s.cfg.fill s

/-- `CS(assert)` (R141). -/
def csAssert (s : State) : State :=
  if s.sel then s else { s with sel := true, trace := .csOn :: s.trace }

/-- The level change of `CS(release)`; its dummy exchange is the next primitive event (R142). -/
def csLevelOff (s : State) : State :=
  if s.sel then { s with sel := false, trace := .csOff :: s.trace } else s

/-- `TICK`'s effect on one timer: down by one, floored at zero (R146). -/
def countDown (t : Nat) : Nat := if t = 0 then 0 else t - 1

/-- What a timer holds after a load of `v`: its `TIMER_WIDTH` low bits (R45). Log entry 3. -/
def timerValue (p : Params) (v : Nat) : Nat := v % 2 ^ p.timerWidth

/-- `TICK` (R146). -/
def tick (s : State) : State := { s with t1 := countDown s.t1, t2 := countDown s.t2 }

/-! ### PHASE -/

/-- `BUSYFLAG` (R43). -/
def busy (s : State) : Bool := !s.phase.isEmpty

/-- The innermost record moves to position `p`. -/
def goTo (p : Pos) (s : State) : State := { s with phase := p :: s.phase.tail }

/-- The innermost record calls a procedure: it waits at `waiting`, and the callee's record is above it (R40). -/
def callSub (callee waiting : Pos) (s : State) : State :=
  { s with phase := callee :: waiting :: s.phase.tail }

/-- The procedure a sector transfer runs in. -/
def dirProc : Dir → Proc
  | .read => .rdsect
  | .write => .wrsect

/-- Where a waiting record goes on when the procedure it called returns `v`; none for a record that waits for none. -/
def resume (v : Byte) : Pos → Option Pos
  | .scWaitRdy idx arg rlen => some (.scReady idx arg rlen v)
  | .saWaitPrefix idx arg rlen => some (.saPrefix idx arg rlen v)
  | .saWaitCmd => some (.ret .sendacmd v)
  | .txWaitSingle dir buf => some (.txSingle dir buf v)
  | .txWaitOne dir => some (.csOff (dirProc dir) v)
  | .txWaitMulti dir cnt buf => some (.txMulti dir cnt buf v)
  | .txWaitBlock dir rem p => some (.txBlock dir rem p v)
  | .rdWaitStop rem => some (.rdStopped rem)
  | .txWaitRdy dir rem => some (.txRdy dir rem v)
  | .rcWaitOcr => some (.rcOcr v)
  | .rcWaitCidCmd => some (.rcCidCmd v)
  | .rcWaitCid => some (.rcCid v)
  | .rcWaitCsdCmd => some (.rcCsdCmd v)
  | .rcWaitCsd => some (.rcCsd v)
  | .rcWaitSdCmd => some (.rcSdCmd v)
  | .rcWaitSd => some (.rcSd v)
  | .syWait => some (.csOff .sync v)
  | _ => none

/-- `return v`: the innermost record goes; the outermost one's return writes RES and makes the block idle (R40). -/
def returnValue (v : Byte) (s : State) : Result :=
  match s.phase with
  | [] => .next s
  | [_] => .next { s with phase := [], res := v }
  | _ :: w :: k =>
    match resume v w with
    | some p => .next { s with phase := p :: k }
    | none => .fault .badPhase

/-! ### Acceptance and refusal -/

/-- What a refusal writes (R124). -/
def refuse (s : State) : State := { s with res := Config.codeRefused }

/-- An operation presented to the block: ignored while the block is busy (R123); else `OP` and the operands are
latched, and the operation is refused (R124) or PHASE moves to its first position. -/
def accept (op : BitVec 4) (latch : Operands → Operands) (refused : Bool) (start : Pos) (s : State) : State :=
  if busy s then s
  else if refused then refuse { s with ops := latch { s.ops with op := op } }
  else { s with ops := latch { s.ops with op := op }, phase := [start] }

/-! ### Reset -/

/-- The reset input: every piece of the block's and the host's state at its reset value; the data buffer keeps what
was written, no event is added to the trace, and the parameters and what the outside still has to say stay (R410,
R411; log entry 21). -/
def resetBlock (s : State) : State :=
  { State.reset with
    cfg := s.cfg
    resp := List.replicate s.cfg.respMax 0
    mem := s.mem
    trace := s.trace
    rxq := s.rxq
    events := s.events
    drawn := s.drawn
    host := { State.reset.host with calls := s.host.calls, prog := s.host.prog } }

end Sys2Proof.Machine
end

