-- ==== Sys2Proof/Machine/Flags.lean ====
section
/-! DEFINITION. The one-bit facts the rules branch on, recomputed where they are used (10_state.md R55, 30 R101). -/

namespace Sys2Proof.Machine

/-- (a) "high bit clear": a valid R1 response (R100). -/
def validR1 (rx : Byte) : Bool := !rx.getLsbD 7

/-- (b) the card is ready (R115). -/
def isReady (rx : Byte) : Bool := rx == Config.readyByte

/-- (c) the start token (R110). -/
def isStartToken (p : Params) (rx : Byte) : Bool := rx == p.tokenStartSingle

/-- (d) data accepted (R114). -/
def dataAccepted (p : Params) (rx : Byte) : Bool := rx.extractLsb' 0 4 == p.dataRespAccepted

/-- (e) a timer at zero. -/
def expired (t : Nat) : Bool := t == 0

/-- (f) a command accepted without error (R101, R186). -/
def accepted (r : Byte) : Bool := r == 0x00#8

/-- (g) above the 'idle/ok' threshold, unsigned (R101, R201). -/
def aboveIdle (r : Byte) : Bool := decide (0x01#8 < r)

/-- `in-idle-state`, the value 0x01 (R100). -/
def inIdle (r : Byte) : Bool := r == 0x01#8

/-- The illegal-command flag, bit 2 of an R1 (R100; read by the host only, R224). -/
def illegalCommand (r : Byte) : Bool := r.getLsbD 2

/-- A byte that, with `START_TOKEN_STRICT`, ends the start-token wait at once (R116, R271, R272). DESIGN CHOICE, log
entry 25: the byte that goes on polling is 0xFF, as the rules write it, also where `FILL` (R9) is another value. -/
def strictStop (s : State) (rx : Byte) : Bool :=
  s.cfg.startTokenStrict && !(rx == 0xFF#8) && !(rx == s.cfg.tokenStartSingle)

/-- A boolean as a result value (R31). -/
def resultOf (b : Bool) : Byte := if b then Config.ok else Config.fail

end Sys2Proof.Machine
end

