-- ==== Sys2Proof/Machine/Operands.lean ====
section
/-! DEFINITION. Operand forms: what the acceptance step latches (10_state.md R20 to R25, 30 R121), the refusal tests on
operands (30 R124), the encoding of CARD_TYPE (10 R46), and the one operand that is transformed before use, the sector
number (20_memory.md R63). -/

namespace Sys2Proof.Machine

def latchNone (o : Operands) : Operands := o
def latchTxb (txb : Byte) (o : Operands) : Operands := { o with txb := txb }
def latchCommand (idx : BitVec 6) (arg : BitVec 32) (rlen : Byte) (o : Operands) : Operands :=
  { o with idx := idx, arg := arg, rlen := rlen }
def latchRecv (buf : Nat) (len : BitVec 16) (o : Operands) : Operands := { o with buf := buf, len := len }
def latchSend (buf : Nat) (len : BitVec 16) (tok : Byte) (o : Operands) : Operands :=
  { o with buf := buf, len := len, tok := tok }
def latchSector (sect cnt : BitVec 32) (buf : Nat) (o : Operands) : Operands :=
  { o with sect := sect, cnt := cnt, buf := buf }
def latchTypein (typein : BitVec 3) (o : Operands) : Operands := { o with typein := typein }
def latchTval (tval : Nat) (o : Operands) : Operands := { o with tval := tval }

/-- `BUF` as latched: the low `ADDR_WIDTH` bits of the number presented (R23, R121). Log entry 2. -/
def bufOperand (s : State) (buf : Nat) : Nat := bufAddr s buf

/-- `TVAL` as latched: the low `TIMER_WIDTH` bits of the number presented (R25, R121). Log entry 2. -/
def tvalOperand (s : State) (tval : Nat) : Nat := timerValue s.cfg tval

/-- `RLEN > RESP_MAX` (R124 c). -/
def rlenTooLong (s : State) (rlen : Byte) : Bool := decide (s.cfg.respMax < rlen.toNat)

/-- `CNT = 0`, or the buffer of `SECTOR_BYTES * CNT` bytes wraps (R124 d, f). -/
def sectorRefused (s : State) (cnt : BitVec 32) (buf : Nat) : Bool :=
  cnt == 0 || bufWraps s (bufOperand s buf) (s.cfg.sectorBytes * cnt.toNat)

/-- The CardType a 3-bit value encodes; 5, 6, 7 encode none (R46). -/
def cardTypeOf (v : BitVec 3) : Option CardType :=
  match v.toNat with
  | 0 => some .unknown
  | 1 => some .mmc
  | 2 => some .sdv1
  | 3 => some .sdv2sc
  | 4 => some .sdv2hc
  | _ => none

/-- The encoding of a CardType (R46). -/
def cardTypeBits : CardType → BitVec 3
  | .unknown => 0
  | .mmc => 1
  | .sdv1 => 2
  | .sdv2sc => 3
  | .sdv2hc => 4

/-- `a <- (CARD_TYPE = SDV2_HC) ? SECT : trunc_32(SECT << 9)` (R63); the shift by 9 is "a sector number times 512" (R71),
the default of `SECTOR_BYTES` (log entry 4). -/
def cardAddress (p : Params) (t : CardType) (sect : BitVec 32) : BitVec 32 :=
  if t = .sdv2hc then sect else BitVec.ofNat 32 (sect.toNat * p.sectorBytes)

end Sys2Proof.Machine
end

