-- ==== Sys2Proof/Machine/Blocks.lean ====
section
/-! DEFINITION. The block operations: `RECVBLK`, `SENDBLK` (45_data_block_tokens.md), `RDSECT`, `WRSECT`
(44_block_transfer.md). -/

namespace Sys2Proof.Machine

/-- `RECVBLK`, refused when the LEN bytes from BUF wrap (R270, R271). -/
def execRecvblk (buf : Nat) (len : BitVec 16) (s : State) : Result :=
  .next (accept 0x6#4 (latchRecv (bufOperand s buf) len) (bufWraps s (bufOperand s buf) len.toNat)
    (.rbLoad (.buffer (bufOperand s buf)) len.toNat) s)

/-- `SENDBLK`, refused when the LEN bytes from BUF wrap (R280, R281). -/
def execSendblk (buf : Nat) (len : BitVec 16) (tok : Byte) (s : State) : Result :=
  .next (accept 0x7#4 (latchSend (bufOperand s buf) len tok) (bufWraps s (bufOperand s buf) len.toNat)
    (.sbTok (bufOperand s buf) len.toNat tok) s)

/-- `RDSECT`, refused when CNT = 0 or the buffer wraps (R240, R241). -/
def execRdsect (sect cnt : BitVec 32) (buf : Nat) (s : State) : Result :=
  .next (accept 0x8#4 (latchSector sect cnt (bufOperand s buf)) (sectorRefused s cnt buf)
    (.txStart .read sect cnt (bufOperand s buf)) s)

/-- `WRSECT`, refused also when WRITE_SUPPORT is false (R250, R251). -/
def execWrsect (sect cnt : BitVec 32) (buf : Nat) (s : State) : Result :=
  .next (accept 0x9#4 (latchSector sect cnt (bufOperand s buf)) (!s.cfg.writeSupport || sectorRefused s cnt buf)
    (.txStart .write sect cnt (bufOperand s buf)) s)

end Sys2Proof.Machine
end

