-- ==== Sys2Proof/Machine/CardConfig.lean ====
section
/-! DEFINITION. `RDCONFIG` and what it decodes: the CSD and SD-status fields and the formulas for the sector count and
the erase-block size (46_config_decoder.md, 30 R131, R133). -/

namespace Sys2Proof.Machine

/-- `RDCONFIG` (R300, R301). -/
def execRdconfig (s : State) : Result := .next (accept 0xA#4 latchNone false .rcStart s)

/-- `CSD_STRUCTURE = CSD[0][7:6]` (R310). -/
def csdStructure (csd : Vector Byte 16) : BitVec 2 := csd[0].extractLsb' 6 2

/-- `C_SIZE_V2 = {CSD[7][5:0], CSD[8], CSD[9]}` (R311). -/
def cSizeV2 (csd : Vector Byte 16) : BitVec 22 := csd[7].extractLsb' 0 6 ++ csd[8] ++ csd[9]

/-- `C_SIZE_V1 = {CSD[6][1:0], CSD[7], CSD[8][7:6]}` (R312). -/
def cSizeV1 (csd : Vector Byte 16) : BitVec 12 := csd[6].extractLsb' 0 2 ++ csd[7] ++ csd[8].extractLsb' 6 2

/-- `C_SIZE_MULT = {CSD[9][1:0], CSD[10][7]}` (R313, C4). -/
def cSizeMult (csd : Vector Byte 16) : BitVec 3 := csd[9].extractLsb' 0 2 ++ csd[10].extractLsb' 7 1

/-- `READ_BL_LEN = CSD[5][3:0]` (R313). -/
def readBlLen (csd : Vector Byte 16) : BitVec 4 := csd[5].extractLsb' 0 4

/-- `SECTOR_SIZE_F = {CSD[10][5:0], CSD[11][7]}` (R314). -/
def sectorSizeF (csd : Vector Byte 16) : BitVec 7 := csd[10].extractLsb' 0 6 ++ csd[11].extractLsb' 7 1

/-- `WRITE_BL_LEN = {CSD[12][1:0], CSD[13][7:6]}` (R314). -/
def writeBlLen (csd : Vector Byte 16) : BitVec 4 := csd[12].extractLsb' 0 2 ++ csd[13].extractLsb' 6 2

/-- `ERASE_GRP_SIZE = CSD[10][6:2]` (R314). -/
def eraseGrpSize (csd : Vector Byte 16) : BitVec 5 := csd[10].extractLsb' 2 5

/-- `ERASE_GRP_MULT = {CSD[10][1:0], CSD[11][7:5]}` (R314). -/
def eraseGrpMult (csd : Vector Byte 16) : BitVec 5 := csd[10].extractLsb' 0 2 ++ csd[11].extractLsb' 5 3

/-- The allocation-unit nibble `SDSTATUS[10][7:4]` (R133). -/
def auNibble (sd : Vector Byte 64) : BitVec 4 := sd[10].extractLsb' 4 4

/-- Version 2: `trunc_32((C_SIZE_V2 + 1) * 1024)` (R315). -/
def sectorCountV2 (csd : Vector Byte 16) : BitVec 32 := BitVec.ofNat 32 (((cSizeV2 csd).toNat + 1) * 1024)

/-- `READ_BL_LEN + C_SIZE_MULT`; the exponent `e` of version 1 is this less 7 (R318). -/
def v1Exponent (csd : Vector Byte 16) : Nat := (readBlLen csd).toNat + (cSizeMult csd).toNat

/-- Version 1 with `e >= 0`: `trunc_32((C_SIZE_V1 + 1) << e)` (R318). -/
def sectorCountV1 (csd : Vector Byte 16) : BitVec 32 :=
  BitVec.ofNat 32 (((cSizeV1 csd).toNat + 1) <<< (v1Exponent csd - 7))

/-- Step 3 of RDCONFIG (R301): "the branch is `= 1` against everything else" (R310); a negative exponent leaves
SECTOR_COUNT unspecified, a free value (R318, U3; log entry 9). -/
def decodeSectorCount (s : State) : State :=
  if csdStructure s.conf.csd = 1#2 then
    { s with conf := { s.conf with sectorCount := sectorCountV2 s.conf.csd } }
  else if 7 ≤ v1Exponent s.conf.csd then
    { s with conf := { s.conf with sectorCount := sectorCountV1 s.conf.csd } }
  else
    { s with
      conf := { s.conf with sectorCount := Config.freeSectorCount s.drawn }
      drawn := s.drawn + 1 }

/-- Step 2 of RDCONFIG: "Sector size is fixed at 512", the default of `SECTOR_BYTES` (R307; log entry 4). -/
def decodeSectorSize (s : State) : State :=
  { s with conf := { s.conf with sectorSize := BitVec.ofNat 16 s.cfg.sectorBytes } }

def setEraseBlock (v : BitVec 32) (s : State) : State := { s with conf := { s.conf with eraseBlock := v } }

/-- SD version 2: `16 << SDSTATUS[10][7:4]` (R331). -/
def eraseFromStatus (sd : Vector Byte 64) : BitVec 32 := BitVec.ofNat 32 (16 <<< (auNibble sd).toNat)

/-- MMC: `(ERASE_GRP_SIZE + 1) * (ERASE_GRP_MULT + 1)` (R332). -/
def eraseMmc (csd : Vector Byte 16) : BitVec 32 :=
  BitVec.ofNat 32 (((eraseGrpSize csd).toNat + 1) * ((eraseGrpMult csd).toNat + 1))

/-- SDv1: `(SECTOR_SIZE_F + 1) << (WRITE_BL_LEN - 9)` for WRITE_BL_LEN 9, 10 or 11 (R333). -/
def eraseSdv1 (csd : Vector Byte 16) : BitVec 32 :=
  BitVec.ofNat 32 (((sectorSizeF csd).toNat + 1) <<< ((writeBlLen csd).toNat - 9))

/-- SDv1's write of ERASE_BLOCK; any other WRITE_BL_LEN leaves it unspecified, a free value (R333, U4; log entry 10). -/
def decodeEraseSdv1 (s : State) : State :=
  if 9 ≤ (writeBlLen s.conf.csd).toNat ∧ (writeBlLen s.conf.csd).toNat ≤ 11 then
    setEraseBlock (eraseSdv1 s.conf.csd) s
  else
    { setEraseBlock (Config.freeEraseBlock s.drawn) s with drawn := s.drawn + 1 }

/-- `OCR[i] <- RESP[i]`, i = 0 to 3 (R302). DESIGN CHOICE, log entry 26: with `RESP_MAX` below 4 the bytes of RESP that
do not exist are copied as 0. -/
def copyOcr (s : State) : State :=
  { s with
    conf := { s.conf with
      ocr := #v[s.resp.getD 0 0, s.resp.getD 1 0, s.resp.getD 2 0, s.resp.getD 3 0] } }

/-- One payload byte of RECVBLK to its destination: `MemWrite(BUF + k, 1, v)`, or byte `k` of a register (R271, R274). -/
def storeByte (d : Dest) (k : Nat) (v : Byte) (s : State) : State :=
  match d with
  | .buffer a => memWrite s (a + k) v
  | .cid => { s with conf := { s.conf with cid := s.conf.cid.setIfInBounds k v } }
  | .csd => { s with conf := { s.conf with csd := s.conf.csd.setIfInBounds k v } }
  | .sdstatus => { s with conf := { s.conf with sdstatus := s.conf.sdstatus.setIfInBounds k v } }

end Sys2Proof.Machine
end

