-- ==== Sys2Proof/Machine/Command.lean ====
section
/-! DEFINITION. The command operations `SENDCMD` (41_command_engine.md) and `SENDACMD` (42_app_command.md), the
pseudo-operations that name them (30 R122), and the command frames (30 R96, R97). A frame row means the operation that
sends that frame: the row's index, the frame's argument, and the RLEN of R96. Its CRC field is no operand: the block
computes the trailer itself (R94). Log entry 16. -/

namespace Sys2Proof.Machine

/-- `SENDCMD` presented, refused when RLEN > RESP_MAX (R171, R124 c). -/
def presentCommand (idx : BitVec 6) (arg : BitVec 32) (rlen : Byte) (s : State) : State :=
  accept 0x4#4 (latchCommand idx arg rlen) (rlenTooLong s rlen) (.scSelect idx arg rlen) s

/-- `SENDACMD` presented, refused when RLEN > RESP_MAX (R200, R124 c). -/
def presentAppCommand (idx : BitVec 6) (arg : BitVec 32) (rlen : Byte) (s : State) : State :=
  accept 0x5#4 (latchCommand idx arg rlen) (rlenTooLong s rlen) (.saStart idx arg rlen) s

/-- `SENDCMD` (R176). -/
def execSendcmd (idx : BitVec 6) (arg : BitVec 32) (rlen : Byte) (s : State) : Result :=
  .next (presentCommand idx arg rlen s)

/-- `SENDACMD` (R201). -/
def execSendacmd (idx : BitVec 6) (arg : BitVec 32) (rlen : Byte) (s : State) : Result :=
  .next (presentAppCommand idx arg rlen s)

/-- `CMDn a, l` = `SENDCMD n, a, l` (R122). -/
def execCmdN (n : BitVec 6) (arg : BitVec 32) (rlen : Byte) (s : State) : Result :=
  .next (presentCommand n arg rlen s)

/-- `ACMDn a, l` = `SENDACMD n, a, l` (R122). -/
def execAcmdN (n : BitVec 6) (arg : BitVec 32) (rlen : Byte) (s : State) : Result :=
  .next (presentAppCommand n arg rlen s)

/-- CMD0, the reset command (R96). -/
def execCmd0 (arg : BitVec 32) (s : State) : Result := .next (presentCommand 0 arg 0 s)
/-- CMD1, the MMC operating-condition command (R96). -/
def execCmd1 (arg : BitVec 32) (s : State) : Result := .next (presentCommand 1 arg 0 s)
/-- CMD8, the interface-condition command, four extra response bytes (R96, R103). -/
def execCmd8 (arg : BitVec 32) (s : State) : Result := .next (presentCommand 8 arg 4 s)
/-- CMD9, the read of the CSD (R96). -/
def execCmd9 (arg : BitVec 32) (s : State) : Result := .next (presentCommand 9 arg 0 s)
/-- CMD10, the read of the CID (R96). -/
def execCmd10 (arg : BitVec 32) (s : State) : Result := .next (presentCommand 10 arg 0 s)
/-- CMD12, stop-transmission (R96). -/
def execCmd12 (arg : BitVec 32) (s : State) : Result := .next (presentCommand 12 arg 0 s)
/-- CMD16, set-block-length (R96). -/
def execCmd16 (arg : BitVec 32) (s : State) : Result := .next (presentCommand 16 arg 0 s)
/-- CMD17, single-block read (R96). -/
def execCmd17 (arg : BitVec 32) (s : State) : Result := .next (presentCommand 17 arg 0 s)
/-- CMD18, multi-block read (R96). -/
def execCmd18 (arg : BitVec 32) (s : State) : Result := .next (presentCommand 18 arg 0 s)
/-- CMD24, single-block write (R96). -/
def execCmd24 (arg : BitVec 32) (s : State) : Result := .next (presentCommand 24 arg 0 s)
/-- CMD25, multi-block write (R96). -/
def execCmd25 (arg : BitVec 32) (s : State) : Result := .next (presentCommand 25 arg 0 s)
/-- CMD55, the application-command prefix (R96). -/
def execCmd55 (arg : BitVec 32) (s : State) : Result := .next (presentCommand 55 arg 0 s)
/-- CMD58, read OCR, four extra response bytes (R96, R103). -/
def execCmd58 (arg : BitVec 32) (s : State) : Result := .next (presentCommand 58 arg 4 s)
/-- ACMD13, the SD status, "sent through SENDACMD", one extra response byte (R96, R103). -/
def execAcmd13 (arg : BitVec 32) (s : State) : Result := .next (presentAppCommand 13 arg 1 s)
/-- ACMD41, the SD operating-condition application command (R96). -/
def execAcmd41 (arg : BitVec 32) (s : State) : Result := .next (presentAppCommand 41 arg 0 s)
/-- Any other frame: "SENDCMD frames any 6-bit index the host gives it" (R97); no extra response bytes, log entry 16. -/
def execFrameAny (idx : BitVec 6) (arg : BitVec 32) (s : State) : Result := .next (presentCommand idx arg 0 s)

end Sys2Proof.Machine
end

