-- ==== Sys2Proof/Machine/Transport.lean ====
section
/-! DEFINITION. The small host operations (40_transport_and_timers.md) and the two reserved codes (30 R124). A meaning
is what the block does with the operation presented to it: acceptance, refusal or, while busy, nothing (30 R123);
`Sequencer.lean` then runs the operation's rule, one primitive event a step. -/

namespace Sys2Proof.Machine

/-- `SELECT` (R148). -/
def execSelect (s : State) : Result := .next (accept 0x0#4 latchNone false .selAssert s)

/-- `DESELECT` (R149). -/
def execDeselect (s : State) : Result := .next (accept 0x1#4 latchNone false (.csOff .deselect Config.ok) s)

/-- `XCHG` (R150). -/
def execXchg (txb : Byte) (s : State) : Result := .next (accept 0x2#4 (latchTxb txb) false (.xcXchg txb) s)

/-- `WAITRDY` (R151). -/
def execWaitrdy (s : State) : Result := .next (accept 0x3#4 latchNone false .wrLoad s)

/-- `SETTYPE`, refused when TYPEIN > 4 (R158, R124 e). -/
def execSettype (typein : BitVec 3) (s : State) : Result :=
  .next (accept 0xB#4 (latchTypein typein) (cardTypeOf typein).isNone (.stSet typein) s)

/-- `SYNC` (R159). -/
def execSync (s : State) : Result := .next (accept 0xC#4 latchNone false .syStart s)

/-- `LDT1` (R147). -/
def execLdt1 (tval : Nat) (s : State) : Result :=
  .next (accept 0xD#4 (latchTval (tvalOperand s tval)) false (.ldLoad (tvalOperand s tval)) s)

/-- Reserved code 0xE: refused (R124 a). -/
def execReservedE (s : State) : Result := .next (accept 0xE#4 latchNone true .selAssert s)

/-- Reserved code 0xF: refused (R124 a). -/
def execReservedF (s : State) : Result := .next (accept 0xF#4 latchNone true .selAssert s)

/-- `IDLECLK k`: `XCHG 0xFF` repeated k times (R122). The first is presented now; the host has the others still to
issue, one whenever the block is idle. Log entry 17. -/
def execIdleclk (k : Nat) (s : State) : Result :=
  match k with
  | 0 => .next s
  | k + 1 =>
    if busy s then .next s
    else
      .next (accept 0x2#4 (latchTxb 0xFF#8) false (.xcXchg 0xFF#8)
        { s with host := { s.host with prog := List.replicate k [0x02#8, 0xFF#8] ++ s.host.prog } })

end Sys2Proof.Machine
end

