-- ==== Sys2Proof/Machine/Wire.lean ====
section
/-! DEFINITION. The one-byte rows of the table: the tokens (30 R110 to R112), the data response (R114), the valid R1
(R100), ready (R115), and the block's own result codes (R102, R124). A meaning is what the block does with that
element at a position of PHASE where the pseudocode looks for it, transmits it or produces it; the sequencer decodes
the byte there and runs the meaning. At any other position the element is none of the block's, and nothing happens.
Log entry 15. -/

namespace Sys2Proof.Machine

/-- A start token of SENDBLK is transmitted; the received byte is dropped (R281). -/
def sendToken (tok : Byte) (buf len : Nat) (k : List Pos) (s : State) : State :=
  { (xchg tok s).2 with phase := .sbData buf len 0 :: k }

/-- `TOKEN_START_SINGLE`: in the start-token wait of RECVBLK it ends the wait and the payload begins (R271, R272); at
SENDBLK's first position it is transmitted (R110, R281). -/
def execTokenStartSingle (s : State) : Result :=
  match s.phase with
  | .rbTest d len _ :: k => .next { s with phase := .rbData d len 0 :: k }
  | .sbTok buf len _ :: k => .next (sendToken s.cfg.tokenStartSingle buf len k s)
  | _ => .next s

/-- `TOKEN_START_MULTI`: transmitted by SENDBLK (R111, R281). -/
def execTokenStartMulti (s : State) : Result :=
  match s.phase with
  | .sbTok buf len _ :: k => .next (sendToken s.cfg.tokenStartMulti buf len k s)
  | _ => .next s

/-- `TOKEN_STOP_TRAN`: transmitted by WRSECT after the loop, the received byte dropped; then the wait for readiness
(R112, R251). -/
def execTokenStopTran (s : State) : Result :=
  match s.phase with
  | .wsStop rem :: k =>
    .next { (xchg s.cfg.tokenStopTran s).2 with phase := .wrLoad :: .txWaitRdy .write rem :: k }
  | _ => .next s

/-- `DATA_RESPONSE_ACCEPTED`: SENDBLK goes on to its busy wait; the high nibble is ignored (R114, R281). -/
def execDataResponseAccepted (s : State) : Result :=
  match s.phase with
  | .sbRespTest _ :: k => .next { s with phase := .sbLoad :: k }
  | _ => .next s

/-- `R1_VALID`: the response poll of SENDCMD ends with this response, and the extra bytes follow (R175, R176). -/
def execR1Valid (flags : BitVec 7) (s : State) : Result :=
  match s.phase with
  | .scPollTest rlen _ _ :: k => .next { s with phase := .scExtra rlen 0 (0#1 ++ flags) :: k }
  | _ => .next s

/-- `CODE_NOT_READY`: SENDCMD returns 0x81 where its readiness wait failed (R173, R176). -/
def execCodeNotReady (s : State) : Result :=
  match s.phase with
  | .scReady _ _ _ _ :: k => .next { s with phase := .ret .sendcmd s.cfg.codeNotReady :: k }
  | _ => .next s

/-- `CODE_RESP_TIMEOUT`: SENDCMD returns 0x82 where no valid R1 came (R175, R176). -/
def execCodeRespTimeout (s : State) : Result :=
  match s.phase with
  | .scPollTest _ _ _ :: k => .next { s with phase := .ret .sendcmd s.cfg.codeRespTimeout :: k }
  | _ => .next s

/-- `CODE_REFUSED`: the value of RES after a refused operation (R124); the block is idle then. -/
def execCodeRefused (s : State) : Result := if busy s then .next s else .next (refuse s)

/-- `READY`: ends WAITRDY, and the busy wait of SENDBLK, with `ok` (R115, R151, R281). -/
def execReady (s : State) : Result :=
  match s.phase with
  | .wrTest _ :: k => .next { s with phase := .ret .waitrdy Config.ok :: k }
  | .sbTest _ :: k => .next { s with phase := .ret .sendblk Config.ok :: k }
  | _ => .next s

end Sys2Proof.Machine
end

