-- ==== Sys2Proof/Machine/Dispatch.lean ====
section
/-! DEFINITION. One arm per instruction. -/

namespace Sys2Proof.Machine

def exec (i : Instr) (s : State) : Host.Outcome State Fault Refusal :=
  match i with
  | .select => Sys2Proof.Machine.execSelect s
  | .deselect => Sys2Proof.Machine.execDeselect s
  | .xchg txb => Sys2Proof.Machine.execXchg txb s
  | .waitrdy => Sys2Proof.Machine.execWaitrdy s
  | .sendcmd idx arg rlen => Sys2Proof.Machine.execSendcmd idx arg rlen s
  | .sendacmd idx arg rlen => Sys2Proof.Machine.execSendacmd idx arg rlen s
  | .recvblk buf len => Sys2Proof.Machine.execRecvblk buf len s
  | .sendblk buf len tok => Sys2Proof.Machine.execSendblk buf len tok s
  | .rdsect sect cnt buf => Sys2Proof.Machine.execRdsect sect cnt buf s
  | .wrsect sect cnt buf => Sys2Proof.Machine.execWrsect sect cnt buf s
  | .rdconfig => Sys2Proof.Machine.execRdconfig s
  | .settype typein => Sys2Proof.Machine.execSettype typein s
  | .sync => Sys2Proof.Machine.execSync s
  | .ldt1 tval => Sys2Proof.Machine.execLdt1 tval s
  | .reservedE => Sys2Proof.Machine.execReservedE s
  | .reservedF => Sys2Proof.Machine.execReservedF s
  | .cmdN n arg rlen => Sys2Proof.Machine.execCmdN n arg rlen s
  | .acmdN n arg rlen => Sys2Proof.Machine.execAcmdN n arg rlen s
  | .idleclk k => Sys2Proof.Machine.execIdleclk k s
  | .cmd0 arg _ => Sys2Proof.Machine.execCmd0 arg s
  | .cmd1 arg => Sys2Proof.Machine.execCmd1 arg s
  | .cmd8 arg _ => Sys2Proof.Machine.execCmd8 arg s
  | .cmd9 arg => Sys2Proof.Machine.execCmd9 arg s
  | .cmd10 arg => Sys2Proof.Machine.execCmd10 arg s
  | .cmd12 arg => Sys2Proof.Machine.execCmd12 arg s
  | .cmd16 arg => Sys2Proof.Machine.execCmd16 arg s
  | .cmd17 arg => Sys2Proof.Machine.execCmd17 arg s
  | .cmd18 arg => Sys2Proof.Machine.execCmd18 arg s
  | .cmd24 arg => Sys2Proof.Machine.execCmd24 arg s
  | .cmd25 arg => Sys2Proof.Machine.execCmd25 arg s
  | .cmd55 arg => Sys2Proof.Machine.execCmd55 arg s
  | .cmd58 arg => Sys2Proof.Machine.execCmd58 arg s
  | .acmd13 arg => Sys2Proof.Machine.execAcmd13 arg s
  | .acmd41 arg => Sys2Proof.Machine.execAcmd41 arg s
  | .frameAny idx arg _ => Sys2Proof.Machine.execFrameAny idx arg s
  | .tokenStartSingle => Sys2Proof.Machine.execTokenStartSingle s
  | .tokenStartMulti => Sys2Proof.Machine.execTokenStartMulti s
  | .tokenStopTran => Sys2Proof.Machine.execTokenStopTran s
  | .dataResponseAccepted _ => Sys2Proof.Machine.execDataResponseAccepted s
  | .r1Valid flags => Sys2Proof.Machine.execR1Valid flags s
  | .codeNotReady => Sys2Proof.Machine.execCodeNotReady s
  | .codeRespTimeout => Sys2Proof.Machine.execCodeRespTimeout s
  | .codeRefused => Sys2Proof.Machine.execCodeRefused s
  | .ready => Sys2Proof.Machine.execReady s

end Sys2Proof.Machine
end

