-- ==== Sys2Proof/Machine/HostAgent.lean ====
section
/-! DEFINITION. The host: the initialization sequence (43_init_sequence.md) and the block device adapter
(47_block_device_adapter.md), each a sequence of the block's operations and register reads. One step issues one
operation to the idle block or reads one register (00_scope.md R11). Log entry 22. -/

namespace Sys2Proof.Machine

/-- What a read of a host-readable register gives; no state changes by it (R74). -/
def readRegister (r : HostReg) (s : State) : ReadValue :=
  match r with
  | .res => .number s.res.toNat
  | .resp => .bytes s.resp
  | .busyflag => .number (busy s).toNat
  | .t1 => .number s.t1
  | .t2 => .number s.t2
  | .cardType => .number (cardTypeBits s.cardType).toNat
  | .sectorSize => .number s.conf.sectorSize.toNat
  | .sectorCount => .number s.conf.sectorCount.toNat
  | .eraseBlock => .number s.conf.eraseBlock.toNat
  | .csd => .bytes s.conf.csd.toList
  | .cid => .bytes s.conf.cid.toList
  | .ocr => .bytes s.conf.ocr.toList
  | .sdstatus => .bytes s.conf.sdstatus.toList

/-- The numbers of the result codes (R352). -/
def resultNumber : ResultCode → Nat
  | .okay => 0
  | .error => 1
  | .notReady => 2
  | .parameterError => 3

/-- The status byte: bit 0 is NOINIT (R351). -/
def statusByte (s : State) : Byte := 0#7 ++ BitVec.ofBool s.host.noinit

def setHostPos (pos : HostPos) (s : State) : State := { s with host := { s.host with pos := pos } }

/-- The host presents operation `i` and will go on at `pos`. -/
def issue (i : Instr) (pos : HostPos) (s : State) : Result := exec i (setHostPos pos s)

/-- The host has read a register, and `pos` keeps what it read. -/
def look (pos : HostPos) (s : State) : Result := .next (setHostPos pos s)

/-- The call returns `r`. -/
def finish (r : CallRet) (s : State) : Result :=
  .next { s with host := { s.host with pos := .free, ret := some r } }

/-- `initialize()` and `status()` return the status byte (R351, R353, R354). -/
def finishStatus (s : State) : Result := finish (.status (statusByte s)) s

/-- Step 5: every path ends with DESELECT (R227). -/
def initRelease (t : CardType) (s : State) : Result := issue .deselect (.released t) s

/-- Step 4: the block length for the byte-addressed types (R226). -/
def initBlocklen (t : CardType) (s : State) : Result :=
  match t with
  | .mmc | .sdv1 | .sdv2sc =>
    issue (.sendcmd s.cfg.idxSetBlocklen (BitVec.ofNat 32 s.cfg.sectorBytes) 0) (.afterBlocklen t) s
  | .sdv2hc | .unknown => initRelease t s

/-- R211 to R212: the idle exchanges, then the reset command. -/
def initPowerup (k : Nat) (s : State) : Result :=
  if k < s.cfg.powerupBytes then issue (.xchg s.cfg.fill) (.powerup (k + 1)) s
  else issue (.sendcmd s.cfg.idxGoIdle 0 0) .afterReset s

/-- R212: exactly the in-idle-state response. -/
def initReset (r : Byte) (s : State) : Result :=
  if inIdle r then issue (.sendcmd s.cfg.idxSendIfCond s.cfg.ifCondArg 4) .afterIfCond s
  else initRelease .unknown s

/-- R224: the probe that opens the legacy path. -/
def initProbe (s : State) : Result := issue (.sendcmd s.cfg.idxAppCmd 0 0) .probed s

/-- R213: the three outcomes of the interface-condition command; the echo counts in the second only, so RESP is read
only there. -/
def initIfCond (r : Byte) (s : State) : Result :=
  if r.getLsbD 7 then initRelease .unknown s
  else if inIdle r then look (.ifCondResp s.resp) s
  else initProbe s

/-- R213: RESP[2] and RESP[3] are the two low bytes of the argument, 0x01 and 0xAA by default. -/
def echoMatches (arg : BitVec 32) (resp : List Byte) : Bool :=
  resp.getD 2 0 == arg.extractLsb' 8 8 && resp.getD 3 0 == arg.extractLsb' 0 8

/-- R213: the echo decides between the V2 path and the legacy path. -/
def initEcho (resp : List Byte) (s : State) : Result :=
  if echoMatches s.cfg.ifCondArg resp then issue (.ldt1 s.cfg.negotiationTicks) .v2Loaded s
  else initProbe s

/-- R220: one attempt of the V2 negotiation. -/
def initV2Try (s : State) : Result := issue (.sendacmd s.cfg.idxSdSendOpCond 0x40000000#32 0) .v2Tried s

/-- R220: after an attempt; T1 is read where the response was 0x01. -/
def initV2Tried (r : Byte) (s : State) : Result :=
  if accepted r then issue (.sendcmd s.cfg.idxReadOcr 0 4) .v2Ocr s
  else if aboveIdle r then initRelease .unknown s
  else look (.v2Timer s.t1) s

/-- R220: the end of the loop's body, T1 read. -/
def initV2Timer (t1 : Nat) (s : State) : Result :=
  if expired t1 then initRelease .unknown s else initV2Try s

/-- R221: RESP is read where the read-OCR command was accepted. -/
def initV2Ocr (r : Byte) (s : State) : Result :=
  if accepted r then look (.v2OcrResp s.resp) s else initRelease .unknown s

/-- R221: the class from OCR bit 30. -/
def initV2Class (resp : List Byte) (s : State) : Result :=
  if (resp.getD 0 0).getLsbD 6 then initBlocklen .sdv2hc s else initBlocklen .sdv2sc s

/-- R224: MMC iff the probe set the illegal-command flag. -/
def initProbed (r : Byte) (s : State) : Result :=
  issue (.ldt1 s.cfg.negotiationTicks) (.legacyLoaded (if illegalCommand r then .mmc else .sdv1)) s

/-- R225: one attempt of the legacy negotiation. -/
def initLegacyTry (t : CardType) (s : State) : Result :=
  if t = .mmc then issue (.sendcmd s.cfg.idxSendOpCond 0 0) (.legacyTried t) s
  else issue (.sendacmd s.cfg.idxSdSendOpCond 0 0) (.legacyTried t) s

/-- R225: after an attempt; T1 is read where the response was not 0x00. -/
def initLegacyTried (t : CardType) (r : Byte) (s : State) : Result :=
  if accepted r then initBlocklen t s else look (.legacyTimer t s.t1) s

/-- R225: the end of the loop's body, T1 read. -/
def initLegacyTimer (t : CardType) (t1 : Nat) (s : State) : Result :=
  if expired t1 then initBlocklen .unknown s else initLegacyTry t s

/-- R228: a type was found, or the sequence failed (R353). -/
def initReleased (t : CardType) (s : State) : Result :=
  if t = .unknown then finishStatus s else issue (.settype (cardTypeBits t)) .typeSet s

/-- R354: NOINIT is cleared only by a successful RDCONFIG. -/
def initConfigRead (s : State) : Result :=
  finishStatus (if s.res = Config.ok then { s with host := { s.host with noinit := false } } else s)

/-- The mapping of a transfer's result (R352). -/
def transferCode (r : Byte) : ResultCode :=
  if r = Config.codeRefused then .parameterError else if r = Config.ok then .okay else .error

/-- The mapping of SYNC's result (R352, R358). -/
def syncCode (r : Byte) : ResultCode := if r = Config.ok then .okay else .notReady

/-- The bytes of the number `n` of `size` bytes as the host lays it in the caller's buffer (R360). The order is the
host's own: log entry 27. -/
def numberLayout (size n : Nat) : List Byte :=
  (List.range size).map fun i => BitVec.ofNat 8 (n >>> (8 * Config.hostByteOrder size i))

/-- The ioctl calls other than sync (R358, R359): what the call returns, and the bytes it lays in the caller's
buffer. -/
def ioctlAnswer (code : Nat) (s : State) : CallRet × List Byte :=
  match code with
  | 1 => (.number s.conf.sectorCount.toNat, numberLayout 4 s.conf.sectorCount.toNat)
  | 2 => (.number s.conf.sectorSize.toNat, numberLayout 2 s.conf.sectorSize.toNat)
  | 3 => (.number s.conf.eraseBlock.toNat, numberLayout 4 s.conf.eraseBlock.toNat)
  | 4 => (.number (cardTypeBits s.cardType).toNat, [(cardTypeBits s.cardType).setWidth 8])
  | 5 => (.bytes s.conf.csd.toList, s.conf.csd.toList)
  | 6 => (.bytes s.conf.cid.toList, s.conf.cid.toList)
  | 7 => (.bytes s.conf.ocr.toList, s.conf.ocr.toList)
  | 8 => (.bytes s.conf.sdstatus.toList, s.conf.sdstatus.toList)
  | _ => (.code .parameterError, [])

/-- An adapter call begins; `NOINIT` is tested first (R356, R359). With
`WRITE_SUPPORT` false the call `write` does not exist (R350, R357), so a host that is to make it refuses; log entry 22. -/
def startCall (c : Call) (s : State) : Result :=
  match c with
  | .status => finishStatus s
  | .init => issue (.settype 0) .afterClear { s with host := { s.host with noinit := true } }
  | .read buf sector count =>
    if s.host.noinit then finish (.code .notReady) s else issue (.rdsect sector count buf) .transfer s
  | .write buf sector count =>
    if !s.cfg.writeSupport then .refused .noSuchCall
    else if s.host.noinit then finish (.code .notReady) s else issue (.wrsect sector count buf) .transfer s
  | .ioctl code buf =>
    if s.host.noinit then finish (.code .notReady) s
    else if code = 0 then issue .sync .syncing s
    else finish (ioctlAnswer code s).1 (memWriteList buf (ioctlAnswer code s).2 s)

/-- The host goes on from its position, the block being idle: it issues the next operation, or reads the next register.
A call that returns what RES says returns in the step that reads it. -/
def hostResume (pos : HostPos) (s : State) : Result :=
  match pos with
  | .free => .next s
  | .afterClear => if s.sel then issue .deselect (.powerup 0) s else initPowerup 0 s
  | .powerup k => initPowerup k s
  | .afterReset => look (.resetRes s.res) s
  | .resetRes r => initReset r s
  | .afterIfCond => look (.ifCondRes s.res) s
  | .ifCondRes r => initIfCond r s
  | .ifCondResp resp => initEcho resp s
  | .v2Loaded => initV2Try s
  | .v2Tried => look (.v2Res s.res) s
  | .v2Res r => initV2Tried r s
  | .v2Timer t1 => initV2Timer t1 s
  | .v2Ocr => look (.v2OcrRes s.res) s
  | .v2OcrRes r => initV2Ocr r s
  | .v2OcrResp resp => initV2Class resp s
  | .probed => look (.probeRes s.res) s
  | .probeRes r => initProbed r s
  | .legacyLoaded t => initLegacyTry t s
  | .legacyTried t => look (.legacyRes t s.res) s
  | .legacyRes t r => initLegacyTried t r s
  | .legacyTimer t t1 => initLegacyTimer t t1 s
  | .afterBlocklen t => look (.blocklenRes t s.res) s
  | .blocklenRes t r => initRelease (if accepted r then t else .unknown) s
  | .released t => initReleased t s
  | .typeSet => issue .rdconfig .configRead s
  | .configRead => initConfigRead s
  | .transfer => finish (.code (transferCode s.res)) s
  | .syncing => finish (.code (syncCode s.res)) s

/-- The bytes presented at the host port: decoded, and the operation run (R120, R123). -/
def presentBytes (bs : List Byte) (s : State) : Result :=
  match decode s.cfg .host bs with
  | .ok i => exec i s
  | .error e => .refused (.badRequest e)

/-- A step of the host while the block is idle: it goes on with its call; else it begins the next call; else it issues
the next of the operations it still has to issue; else it does nothing (R412: the block waits for the host). -/
def hostStep (s : State) : Result :=
  match s.host.pos, s.host.calls, s.host.prog with
  | .free, [], [] => .next s
  | .free, [], bs :: ps => presentBytes bs { s with host := { s.host with prog := ps } }
  | .free, c :: cs, _ => startCall c { s with host := { s.host with calls := cs } }
  | pos, _, _ => hostResume pos s

end Sys2Proof.Machine
end

