-- ==== Sys2Proof/Machine/Sequencer.lean ====
section
/-! DEFINITION. The block's sequencer: what one step does at each position of PHASE (10_state.md R40), written from the
pseudocode of the operations: one primitive event, or the register updates and tests up to the next (R11, R40). A
timer is read in a step of its own, after the exchange it follows, so that a TICK may fall between the two (R15, R18).
The bytes the pseudocode looks for are decoded at their place and run through `exec`. -/

namespace Sys2Proof.Machine

/-- One `XCHG(FILL)` whose received byte is dropped, then position `p`. -/
def xchgDrop (p : Pos) (s : State) : Result := .next (goTo p (xchgFill s).2)

/-- One `XCHG(FILL)`, then the position that has the received byte. -/
def xchgKeep (p : Byte → Pos) (s : State) : Result := .next (goTo (p (xchgFill s).1) (xchgFill s).2)

/-- The element looked for at `pl` is run where `rx` is it; where it is not, `otherwise`. -/
def lookFor (pl : Place) (rx : Byte) (otherwise : Result) (s : State) : Result :=
  match decode s.cfg pl [rx] with
  | .ok i => exec i s
  | .error _ => otherwise

/-- After a test that did not match, a timed poll goes on while its timer is not zero, and fails otherwise (R152). -/
def pollAgain (t : Nat) (again : Pos) (p : Proc) (s : State) : Result :=
  .next (goTo (if expired t then .ret p Config.fail else again) s)

/-! ### WAITRDY, SENDCMD, SENDACMD -/

/-- `RESP[i] <- XCHG(FILL)` (R176 step 5). DESIGN CHOICE, log entry 26: a byte beyond `RESP_MAX`, which only a command
RDCONFIG sends itself can have, is received and dropped. -/
def extraByte (rlen : Byte) (i : Nat) (r : Byte) (s : State) : Result :=
  if i < rlen.toNat then
    .next (goTo (.scExtra rlen (i + 1) r)
      { (xchgFill s).2 with resp := (xchgFill s).2.resp.set i (xchgFill s).1 })
  else .next (goTo (.ret .sendcmd r) s)

/-- `for i = 0 to 5: XCHG(frame[i])`, received bytes dropped; then the response poll is set up (R176 steps 3, 4). -/
def sendFrame (rlen : Byte) (rest : List Byte) (s : State) : Result :=
  match rest with
  | [] => .next (goTo (.scPoll rlen (BitVec.ofNat 16 s.cfg.r1Polls)) s)
  | b :: bs => .next (goTo (.scFrame rlen bs) (xchg b s).2)

/-- A polled byte with bit 7 set: poll again while polls are left; `i` is a 16-bit counter (R41, R176 step 4). -/
def pollResponse (rlen : Byte) (i : BitVec 16) (s : State) : Result :=
  if i = 0 then exec .codeRespTimeout s else .next (goTo (.scPoll rlen i) s)

/-! ### RECVBLK, SENDBLK -/

def recvData (d : Dest) (len k : Nat) (s : State) : Result :=
  if k < len then .next (goTo (.rbData d len (k + 1)) (storeByte d k (xchgFill s).1 (xchgFill s).2))
  else .next (goTo .rbCrc1 s)

def sendData (buf len k : Nat) (s : State) : Result :=
  if k < len then .next (goTo (.sbData buf len (k + 1)) (xchg (memRead s (buf + k)) s).2)
  else .next (goTo .sbCrc1 s)

/-! ### RDSECT, WRSECT -/

/-- The command of a sector transfer (R241, R251, R252 b). -/
def transferIndex (c : Params) (dir : Dir) (cnt : BitVec 32) : BitVec 6 :=
  match dir with
  | .read => if cnt = 1 then c.idxReadSingle else c.idxReadMulti
  | .write => if cnt = 1 then c.idxWriteSingle else c.idxWriteMulti

/-- The first record of the block procedure called for one sector at `p`. -/
def blockCall (c : Params) (dir : Dir) (multi : Bool) (p : Nat) : Pos :=
  match dir with
  | .read => .rbLoad (.buffer p) c.sectorBytes
  | .write => .sbTok p c.sectorBytes (if multi then c.tokenStartMulti else c.tokenStartSingle)

/-- Where the loop over the sectors ends, by its count or by a failed block (R243, R252 d). -/
def loopEnd (dir : Dir) (rem : BitVec 32) : Pos :=
  match dir with
  | .read => .rdStop rem
  | .write => .wsStop rem

def transferStart (dir : Dir) (sect cnt : BitVec 32) (buf : Nat) (s : State) : Result :=
  .next (callSub (.scSelect (transferIndex s.cfg dir cnt) (cardAddress s.cfg s.cardType sect) 0)
    (if cnt = 1 then .txWaitSingle dir buf else .txWaitMulti dir cnt buf) s)

/-- After a block of the loop: `p <- p + 512; rem <- rem - 1` on success, and the loop test (R241, R246 e). -/
def transferBlock (dir : Dir) (rem : BitVec 32) (p : Nat) (flag : Byte) (s : State) : Result :=
  if flag = Config.fail then .next (goTo (loopEnd dir rem) s)
  else if rem - 1 = 0 then .next (goTo (loopEnd dir 0) s)
  else
    .next (callSub (blockCall s.cfg dir true (bufAddr s (p + s.cfg.sectorBytes)))
      (.txWaitBlock dir (rem - 1) (bufAddr s (p + s.cfg.sectorBytes))) s)

/-! ### RDCONFIG -/

/-- A step of RDCONFIG that goes on only where a command was accepted (`r = 0x00`) or a block received. -/
def configGuard (b : Bool) (go : State) (s : State) : Result :=
  if b then .next go else .next (goTo (.csOff .rdconfig Config.fail) s)

/-- Step 4, by `CARD_TYPE` (R301, R330 to R334). -/
def eraseStep (s : State) : Result :=
  match s.cardType with
  | .sdv2sc | .sdv2hc => .next (callSub (.saStart s.cfg.idxSdStatus 0 1) .rcWaitSdCmd s)
  | .mmc => .next (goTo (.csOff .rdconfig Config.ok) (setEraseBlock (eraseMmc s.conf.csd) s))
  | .sdv1 => .next (goTo (.csOff .rdconfig Config.ok) (decodeEraseSdv1 s))
  | .unknown => .next (goTo (.csOff .rdconfig Config.fail) s)

/-! ### One step -/

/-- One step of the sequencer at position `p`, the top of PHASE. -/
def seqAt (p : Pos) (s : State) : Result :=
  match p with
  | .selAssert => .next (goTo (.ret .select Config.ok) (csAssert s))
  | .xcXchg txb => .next (goTo (.ret .xchg (xchg txb s).1) (xchg txb s).2)
  | .stSet typein => .next (goTo (.ret .settype Config.ok) { s with cardType := (cardTypeOf typein).getD s.cardType })
  | .ldLoad tval => .next (goTo (.ret .ldt1 Config.ok) { s with t1 := timerValue s.cfg tval })
  | .csOff q v => .next (goTo (.csDummy q v) (csLevelOff s))
  | .csDummy q v => xchgDrop (.ret q v) s
  | .ret _ v => returnValue v s
  -- WAITRDY (R151)
  | .wrLoad => .next (goTo .wrXchg { s with t2 := timerValue s.cfg s.cfg.waitReadyTicks })
  | .wrXchg => xchgKeep .wrTest s
  | .wrTest rx => lookFor .busy rx (pollAgain s.t2 .wrXchg .waitrdy s) s
  -- SENDCMD (R176)
  | .scSelect idx arg rlen => .next (callSub .wrLoad (.scWaitRdy idx arg rlen) (csAssert s))
  | .scReady idx arg rlen rdy =>
    if rdy = Config.fail then exec .codeNotReady s else .next (goTo (.scFrame rlen (buildFrame s.cfg idx arg)) s)
  | .scFrame rlen rest => sendFrame rlen rest s
  | .scPoll rlen i => xchgKeep (.scPollTest rlen (i - 1)) s
  | .scPollTest rlen i r => lookFor .response r (pollResponse rlen i s) s
  | .scExtra rlen i r => extraByte rlen i r s
  -- SENDACMD (R201)
  | .saStart idx arg rlen => .next (callSub (.scSelect s.cfg.idxAppCmd 0 0) (.saWaitPrefix idx arg rlen) s)
  | .saPrefix idx arg rlen r =>
    if aboveIdle r then .next (goTo (.ret .sendacmd r) s) else .next (callSub (.scSelect idx arg rlen) .saWaitCmd s)
  -- RECVBLK (R271)
  | .rbLoad d len => .next (goTo (.rbXchg d len) { s with t1 := timerValue s.cfg s.cfg.recvTokenTicks })
  | .rbXchg d len => xchgKeep (.rbTest d len) s
  | .rbTest d len rx =>
    if strictStop s rx then .next (goTo (.ret .recvblk Config.fail) s)
    else lookFor .tokenWait rx (pollAgain s.t1 (.rbXchg d len) .recvblk s) s
  | .rbData d len k => recvData d len k s
  | .rbCrc1 => xchgDrop .rbCrc2 s
  | .rbCrc2 => xchgDrop (.ret .recvblk Config.ok) s
  -- SENDBLK (R281)
  | .sbTok buf len tok => lookFor .startToken tok (.next (sendToken tok buf len s.phase.tail s)) s
  | .sbData buf len k => sendData buf len k s
  | .sbCrc1 => xchgDrop .sbCrc2 s
  | .sbCrc2 => xchgDrop .sbResp s
  | .sbResp => xchgKeep .sbRespTest s
  | .sbRespTest rx => lookFor .dataResponse rx (.next (goTo (.ret .sendblk Config.fail) s)) s
  | .sbLoad => .next (goTo .sbXchg { s with t1 := timerValue s.cfg s.cfg.sendBusyTicks })
  | .sbXchg => xchgKeep .sbTest s
  | .sbTest rx => lookFor .busy rx (pollAgain s.t1 .sbXchg .sendblk s) s
  -- RDSECT (R241), WRSECT (R251)
  | .txStart dir sect cnt buf => transferStart dir sect cnt buf s
  | .txSingle dir buf r =>
    if accepted r then .next (callSub (blockCall s.cfg dir false buf) (.txWaitOne dir) s)
    else .next (goTo (.csOff (dirProc dir) Config.fail) s)
  | .txMulti dir cnt buf r =>
    if accepted r then .next (callSub (blockCall s.cfg dir true buf) (.txWaitBlock dir cnt buf) s)
    else .next (goTo (.csOff (dirProc dir) Config.fail) s)
  | .txBlock dir rem q flag => transferBlock dir rem q flag s
  | .rdStop rem => .next (callSub (.scSelect s.cfg.idxStopTransmission 0 0) (.rdWaitStop rem) s)
  | .rdStopped rem => .next (callSub .wrLoad (.txWaitRdy .read rem) s)
  | .wsStop _ => exec .tokenStopTran s
  | .txRdy dir rem rdy => .next (goTo (.csOff (dirProc dir) (resultOf (rdy == Config.ok && rem == 0))) s)
  -- RDCONFIG (R301)
  | .rcStart => .next (callSub (.scSelect s.cfg.idxReadOcr 0 4) .rcWaitOcr s)
  | .rcOcr r => configGuard (accepted r) (callSub (.scSelect s.cfg.idxSendCid 0 0) .rcWaitCidCmd (copyOcr s)) s
  | .rcCidCmd r => configGuard (accepted r) (callSub (.rbLoad .cid 16) .rcWaitCid s) s
  | .rcCid flag => configGuard (flag == Config.ok) (callSub (.scSelect s.cfg.idxSendCsd 0 0) .rcWaitCsdCmd s) s
  | .rcCsdCmd r => configGuard (accepted r) (callSub (.rbLoad .csd 16) .rcWaitCsd s) s
  | .rcCsd flag => configGuard (flag == Config.ok) (goTo .rcDecode s) s
  | .rcDecode => .next (goTo .rcErase (decodeSectorCount (decodeSectorSize s)))
  | .rcErase => eraseStep s
  | .rcSdCmd r => configGuard (accepted r) (callSub (.rbLoad .sdstatus 16) .rcWaitSd s) s
  | .rcSd flag => configGuard (flag == Config.ok) (goTo (.rcSkip 0) s) s
  | .rcSkip i => if i < 48 then xchgDrop (.rcSkip (i + 1)) s else .next (goTo .rcUnit s)
  | .rcUnit => .next (goTo (.csOff .rdconfig Config.ok) (setEraseBlock (eraseFromStatus s.conf.sdstatus) s))
  -- SYNC (R159)
  | .syStart => .next (callSub .wrLoad .syWait (csAssert s))
  -- a record that waits for a procedure is never at the top
  | .scWaitRdy .. | .saWaitPrefix .. | .saWaitCmd | .txWaitSingle .. | .txWaitOne _ | .txWaitMulti ..
  | .txWaitBlock .. | .rdWaitStop _ | .txWaitRdy .. | .rcWaitOcr | .rcWaitCidCmd | .rcWaitCid | .rcWaitCsdCmd
  | .rcWaitCsd | .rcWaitSdCmd | .rcWaitSd | .syWait => .fault .badPhase

/-- One step of the sequencer. -/
def seqStep (s : State) : Result :=
  match s.phase with
  | [] => .next s
  | p :: _ => seqAt p s

end Sys2Proof.Machine
end

