-- ==== Sys2Proof/Machine/Agents.lean ====
section
/-! DEFINITION. The agents of 00_scope.md R11 put together: which event comes next, what each event does, and how an
instruction is laid where the next step fetches it. -/

namespace Sys2Proof.Machine

/-- The next event: the head of the state's list; where the list is empty, a free choice between a TICK and the block
going on (R15, R81; log entry 6). -/
def nextEvent (s : State) : Event × State :=
  match s.events with
  | e :: es => (e, { s with events := es })
  | [] => (if Config.freeTick s.drawn then .tick else .go, { s with drawn := s.drawn + 1 })

/-- What an event does. -/
def runEvent (e : Event) (s : State) : Result :=
  match e with
  | .tick => .next (tick s)
  | .reset => .next (resetBlock s)
  | .go => if busy s then seqStep s else hostStep s
  | .present bs => if busy s then .next s else presentBytes bs s
  | .hostWrite a v => .next (memWrite s a v)
  | .hostRead r => .next { s with host := { s.host with seen := some (readRegister r s) } }

/-- The position of PHASE at which a one-byte element `b` of the table is the next thing the block meets. -/
def wirePosition (p : Params) (pl : Place) (b : Byte) : Pos :=
  match pl with
  | .host => .selAssert
  | .tokenWait => .rbTest (.buffer 0) 0 b
  | .startToken => .sbTok 0 0 b
  | .stopToken => .wsStop 0
  | .response => .scPollTest 0 0 b
  | .dataResponse => .sbRespTest b
  | .busy => .wrTest b
  | .result => if b = p.codeNotReady then .scReady 0 0 0 Config.fail else .scPollTest 0 0 0xFF#8

/-- `s` with the bytes of an instruction where the next step fetches it: at the host port of the idle block, or, for
a one-byte element, at a position of PHASE that meets it. Log entry 18. -/
def placeInstr (pl : Place) (bs : List Byte) (s : State) : State :=
  if pl = .host then { s with phase := [], events := .present bs :: s.events }
  else { s with phase := [wirePosition s.cfg pl (bs.headD 0)], events := .go :: s.events }

end Sys2Proof.Machine
end

