-- ==== Sys2Proof/Safety.lean ====
section
/-! DEFINITION. The terms claims are stated in: runs under given events, what a PHASE stack the pseudocode can produce
looks like, where chip-select stands at each position, and what the data buffer holds after a payload. -/

namespace Sys2Proof.Safety

open Sys2Proof.Machine

/-- The machine taking one step whose event is `e`. -/
def stepOn (e : Event) (s : State) : Result := step { s with events := e :: s.events }

/-- The machine taking one step for each event of a list, stopping at a fault or a refusal. -/
def runEvents : List Event → State → Result
  | [], s => .next s
  | e :: es, s =>
    match stepOn e s with
    | .next t => runEvents es t
    | .fault r => .fault r
    | .refused r => .refused r

/-- Some number of steps, none of them a TICK or another input, leads from `s` to `t`. -/
def Reaches (s t : State) : Prop := ∃ n, runEvents (List.replicate n .go) s = .next t

/-! ### PHASE -/

/-- The procedure a record belongs to. -/
def procOf : Pos → Proc
  | .selAssert => .select
  | .xcXchg _ => .xchg
  | .stSet _ => .settype
  | .ldLoad _ => .ldt1
  | .csOff p _ | .csDummy p _ | .ret p _ => p
  | .wrLoad | .wrXchg | .wrTest _ => .waitrdy
  | .scSelect .. | .scWaitRdy .. | .scReady .. | .scFrame .. | .scPoll .. | .scPollTest .. | .scExtra .. => .sendcmd
  | .saStart .. | .saWaitPrefix .. | .saPrefix .. | .saWaitCmd => .sendacmd
  | .rbLoad .. | .rbXchg .. | .rbTest .. | .rbData .. | .rbCrc1 | .rbCrc2 => .recvblk
  | .sbTok .. | .sbData .. | .sbCrc1 | .sbCrc2 | .sbResp | .sbRespTest _ | .sbLoad | .sbXchg | .sbTest _ => .sendblk
  | .txStart d .. | .txWaitSingle d _ | .txSingle d .. | .txWaitOne d | .txWaitMulti d .. | .txMulti d ..
  | .txWaitBlock d .. | .txBlock d .. | .txWaitRdy d _ | .txRdy d .. => dirProc d
  | .rdStop _ | .rdWaitStop _ | .rdStopped _ => .rdsect
  | .wsStop _ => .wrsect
  | .rcStart | .rcWaitOcr | .rcOcr _ | .rcWaitCidCmd | .rcCidCmd _ | .rcWaitCid | .rcCid _ | .rcWaitCsdCmd
  | .rcCsdCmd _ | .rcWaitCsd | .rcCsd _ | .rcDecode | .rcErase | .rcWaitSdCmd | .rcSdCmd _ | .rcWaitSd | .rcSd _
  | .rcSkip _ | .rcUnit => .rdconfig
  | .syStart | .syWait => .sync

/-- The block procedure of a direction. -/
def blockProc : Dir → Proc
  | .read => .recvblk
  | .write => .sendblk

/-- The procedure a waiting record waits for; none for a record that waits for none. -/
def waitsFor : Pos → Option Proc
  | .scWaitRdy .. | .txWaitRdy .. | .syWait => some .waitrdy
  | .saWaitPrefix .. | .saWaitCmd | .txWaitSingle .. | .txWaitMulti .. | .rdWaitStop _ | .rcWaitOcr
  | .rcWaitCidCmd | .rcWaitCsdCmd => some .sendcmd
  | .rcWaitSdCmd => some .sendacmd
  | .rcWaitCid | .rcWaitCsd | .rcWaitSd => some .recvblk
  | .txWaitOne d | .txWaitBlock d .. => some (blockProc d)
  | _ => none

/-- Below a record of procedure `q`, every record waits for the procedure above it. -/
def callersOk : Proc → List Pos → Bool
  | _, [] => true
  | q, w :: k => waitsFor w == some q && callersOk (procOf w) k

/-- The procedures that release chip-select themselves, on every path (R387), and DESELECT. -/
def releases : Proc → Bool
  | .deselect | .rdsect | .wrsect | .rdconfig | .sync => true
  | _ => false

/-- A record that can be at the top: it waits for nothing, and CS(release) stands only in procedures that have it. -/
def topOk : Pos → Bool
  | .csOff p _ | .csDummy p _ => releases p
  | p => waitsFor p == none

/-- A PHASE the pseudocode can produce: the top record runs, every other waits for the one above it (R40). -/
def phaseOk : List Pos → Bool
  | [] => true
  | p :: k => topOk p && callersOk (procOf p) k

/-! ### Chip-select -/

/-- Records at which chip-select is asserted: from the CS(assert) of the procedure, or of the first command it sends,
to its CS(release) or its return (R172, R184, R245). -/
def asserted : Pos → Bool
  | .scWaitRdy .. | .scReady .. | .scFrame .. | .scPoll .. | .scPollTest .. | .scExtra .. => true
  | .saPrefix .. | .saWaitCmd => true
  | .ret .sendcmd _ | .ret .sendacmd _ => true
  | .txSingle .. | .txWaitOne _ | .txMulti .. | .txWaitBlock .. | .txBlock .. | .rdStop _ | .rdWaitStop _
  | .rdStopped _ | .wsStop _ | .txWaitRdy .. | .txRdy .. => true
  | .rcOcr _ | .rcWaitCidCmd | .rcCidCmd _ | .rcWaitCid | .rcCid _ | .rcWaitCsdCmd | .rcCsdCmd _ | .rcWaitCsd
  | .rcCsd _ | .rcDecode | .rcErase | .rcWaitSdCmd | .rcSdCmd _ | .rcWaitSd | .rcSd _ | .rcSkip _ | .rcUnit => true
  | .syWait => true
  | .csOff .deselect _ => false
  | .csOff .. => true
  | _ => false

/-- Records at which chip-select is released: the dummy byte of CS(release), and the return after it (R142, R245). -/
def releasedAt : Pos → Bool
  | .csDummy .. => true
  | .ret p _ => releases p
  | _ => false

/-- Chip-select stands as PHASE says: asserted while any record of the stack says so, released where the top one does. -/
def selOk (s : State) : Bool :=
  (!s.phase.any asserted || s.sel) && (!(s.phase.head?.any releasedAt) || !s.sel)

/-! ### Where RECVBLK stores -/

/-- The destination of a RECVBLK record that still has one. -/
def destOf : Pos → Option Dest
  | .rbLoad d _ | .rbXchg d _ | .rbTest d .. | .rbData d .. => some d
  | _ => none

/-- A register destination only under the record of RDCONFIG that waits for it (R274: "not available to the host"). -/
def destOk : List Pos → Bool
  | p :: k =>
    match destOf p with
    | some .cid => k.head? == some .rcWaitCid
    | some .csd => k.head? == some .rcWaitCsd
    | some .sdstatus => k.head? == some .rcWaitSd
    | _ => true
  | [] => true

/-- The procedure of the outermost record: the running operation. -/
def operation (s : State) : Option Proc := s.phase.getLast?.map procOf

/-- Records of RDCONFIG at which a command was not accepted or a block did not arrive (R301). -/
def configFails : Pos → Bool
  | .rcOcr r | .rcCidCmd r | .rcCsdCmd r | .rcSdCmd r => r != 0x00#8
  | .rcCid flag | .rcCsd flag | .rcSd flag => flag == Config.fail
  | _ => false

/-! ### The adapter -/

/-- Positions of RDCONFIG reached only after `SECTOR_SIZE <- 512` (R301). -/
def sizeKnown : Pos → Bool
  | .rcErase | .rcWaitSdCmd | .rcSdCmd _ | .rcWaitSd | .rcSd _ | .rcSkip _ | .rcUnit => true
  | .csOff .rdconfig v | .csDummy .rdconfig v | .ret .rdconfig v => v == Config.ok
  | _ => false

/-- A call there is in this configuration: all but `write` without WRITE_SUPPORT (R350, R357). -/
def callExists (p : Params) : Call → Bool
  | .write .. => p.writeSupport
  | _ => true

/-- An event only the one host or the outside may cause (R434): nothing is presented beside the host's own program. -/
def oneHost : Event → Bool
  | .present _ => false
  | _ => true

/-- What makes get-sector-size answer SECTOR_BYTES, 512 by default (R361): `NOINIT` is clear only after a RDCONFIG that
passed the line `SECTOR_SIZE <- 512`, and nothing writes another value. -/
def sizeOk (s : State) : Prop :=
  s.events.all oneHost = true ∧
  (s.host.noinit = false → s.conf.sectorSize = BitVec.ofNat 16 s.cfg.sectorBytes) ∧
  (s.phase.any sizeKnown = true → s.conf.sectorSize = BitVec.ofNat 16 s.cfg.sectorBytes) ∧
  (s.host.pos = .configRead →
    if s.phase = [] then s.res = Config.ok → s.conf.sectorSize = BitVec.ofNat 16 s.cfg.sectorBytes
    else operation s = some .rdconfig)

/-! ### Parameters -/

/-- A timed loop's bound: it fits a timer, and it is not zero ("not allowed", R153 a). -/
def tickBound (p : Params) (n : Nat) : Bool := decide (0 < n) && decide (n < 2 ^ p.timerWidth)

/-- The bounds of the polls are bounds: the three tick counts fit a timer and are not zero, nor is the count of response
polls, which fits its counter. The default parameters have it. -/
def boundsOk (p : Params) : Bool :=
  tickBound p p.waitReadyTicks && tickBound p p.recvTokenTicks && tickBound p p.sendBusyTicks && decide (0 < p.r1Polls) &&
    decide (p.r1Polls < 2 ^ 16)

/-- Every register whose width is a parameter is within it: the timers, TVAL and BUF (R23, R25, R45). -/
def widthsOk (s : State) : Bool :=
  decide (s.t1 < 2 ^ s.cfg.timerWidth) && decide (s.t2 < 2 ^ s.cfg.timerWidth) &&
    decide (s.ops.tval < 2 ^ s.cfg.timerWidth) && decide (s.ops.buf < 2 ^ s.cfg.addrWidth)

/-- The tokens and codes decoded at one place differ (R102, R110, R111, R124). The default parameters have it. -/
def distinctBytes (p : Params) : Bool :=
  p.tokenStartSingle != p.tokenStartMulti && p.codeNotReady != p.codeRespTimeout &&
    p.codeNotReady != Config.codeRefused && p.codeRespTimeout != Config.codeRefused

/-! ### Payloads and traces -/

/-- The payload bytes stored one after another from index `k` (R271). -/
def storePayload (d : Dest) : Nat → List Byte → State → State
  | _, [], s => s
  | k, b :: bs, s => storePayload d (k + 1) bs (storeByte d k b s)

/-- The trace, newest first, after exchanges that transmitted `tx` and received `rxs` in order. -/
def exchanged (tx : Byte) (rxs : List Byte) (tr : List BusEvent) : List BusEvent :=
  (rxs.map (.exchange tx)).reverse ++ tr

/-- The trace after exchanges of the bytes of `txs` against those of `rxs`. -/
def sent (txs rxs : List Byte) (tr : List BusEvent) : List BusEvent :=
  (List.zipWith .exchange txs rxs).reverse ++ tr

/-- The trace after CS(assert) (R141). -/
def selected (s : State) : List BusEvent := if s.sel then s.trace else .csOn :: s.trace

/-! ### What the transport answers -/

/-- The transport's bytes for one command that is answered (R176): those read while the card is busy, then one 0xFF;
those received during the frame; the polled bytes with bit 7 set; the R1; the extra bytes. -/
structure Answer where
  busy : List Byte
  dropped : List Byte
  noise : List Byte
  r1 : Byte
  extra : List Byte
  deriving DecidableEq, Repr

def Answer.bytes (c : Answer) : List Byte :=
  c.busy ++ 0xFF#8 :: (c.dropped ++ (c.noise ++ c.r1 :: c.extra))

/-- It is an answer to a command with `rlen` extra bytes: fewer than R1_POLLS polled bytes before the R1. -/
def Answer.fits (p : Params) (c : Answer) (rlen : Byte) : Bool :=
  c.busy.all (· != 0xFF#8) && c.dropped.length == 6 && decide (c.noise.length < p.r1Polls) &&
    c.noise.all (·.getLsbD 7) && !c.r1.getLsbD 7 && c.extra.length == rlen.toNat

/-- The trace after the command, from the trace `tr` that chip-select leaves. -/
def Answer.trace (c : Answer) (p : Params) (idx : BitVec 6) (arg : BitVec 32) (tr : List BusEvent) : List BusEvent :=
  exchanged p.fill (c.noise ++ c.r1 :: c.extra) (sent (buildFrame p idx arg) c.dropped
    (exchanged p.fill (c.busy ++ [0xFF#8]) tr))

/-- The transport's bytes for one block the card sends (R271): those before the start token, then the token; the payload;
the two CRC bytes. -/
structure Block where
  wait : List Byte
  payload : List Byte
  crc : List Byte
  deriving DecidableEq, Repr

def Block.bytes (p : Params) (b : Block) : List Byte := b.wait ++ p.tokenStartSingle :: (b.payload ++ b.crc)

/-- It is a block of `len` bytes. Under START_TOKEN_STRICT only 0xFF may come before the token (R272). -/
def Block.fits (p : Params) (b : Block) (len : Nat) : Bool :=
  b.wait.all (fun x => x != p.tokenStartSingle && (!p.startTokenStrict || x == 0xFF#8)) &&
    b.payload.length == len && b.crc.length == 2

/-- The transport's bytes for one block the block sends (R281): those received during token, payload and CRC; the data
response; those read while the card is busy, then one 0xFF. -/
structure Taken where
  dropped : List Byte
  response : Byte
  busy : List Byte
  deriving DecidableEq, Repr

def Taken.bytes (b : Taken) : List Byte := b.dropped ++ b.response :: (b.busy ++ [0xFF#8])

/-- The card accepts a block of `len` bytes. -/
def Taken.fits (p : Params) (b : Taken) (len : Nat) : Bool :=
  b.dropped.length == len + 3 && b.response.extractLsb' 0 4 == p.dataRespAccepted && b.busy.all (· != 0xFF#8)

/-- The bytes SENDBLK transmits before the data response: token, payload, two dummy CRC bytes (R281). -/
def blockSent (s : State) (buf len : Nat) (tok : Byte) : List Byte :=
  tok :: ((List.range len).map (fun k => memRead s (buf + k)) ++ [s.cfg.fill, s.cfg.fill])

def Taken.trace (b : Taken) (s : State) (buf len : Nat) (tok : Byte) (tr : List BusEvent) : List BusEvent :=
  exchanged s.cfg.fill (b.response :: (b.busy ++ [0xFF#8])) (sent (blockSent s buf len tok) b.dropped tr)

/-! ### Instructions by what they present -/

/-- The `SENDCMD` an instruction presents: index, argument and RLEN (R96, R97, R122). -/
def commandOf : Instr → Option (BitVec 6 × BitVec 32 × Byte)
  | .sendcmd n a l | .cmdN n a l => some (n, a, l)
  | .cmd0 a _ => some (0, a, 0)
  | .cmd1 a => some (1, a, 0)
  | .cmd8 a _ => some (8, a, 4)
  | .cmd9 a => some (9, a, 0)
  | .cmd10 a => some (10, a, 0)
  | .cmd12 a => some (12, a, 0)
  | .cmd16 a => some (16, a, 0)
  | .cmd17 a => some (17, a, 0)
  | .cmd18 a => some (18, a, 0)
  | .cmd24 a => some (24, a, 0)
  | .cmd25 a => some (25, a, 0)
  | .cmd55 a => some (55, a, 0)
  | .cmd58 a => some (58, a, 4)
  | .frameAny n a _ => some (n, a, 0)
  | _ => none

/-- The token whose row stands for a byte the block transmits (R110 to R112). -/
def sentToken (p : Params) : Instr → Option Byte
  | .tokenStartSingle => some p.tokenStartSingle
  | .tokenStartMulti => some p.tokenStartMulti
  | .tokenStopTran => some p.tokenStopTran
  | _ => none

/-- The `SENDACMD` an instruction presents (R96, R122). -/
def appCommandOf : Instr → Option (BitVec 6 × BitVec 32 × Byte)
  | .sendacmd n a l | .acmdN n a l => some (n, a, l)
  | .acmd13 a => some (13, a, 1)
  | .acmd41 a => some (41, a, 0)
  | _ => none

/-- The refusals of R124, by the operands as presented. -/
def refusedBy (s : State) : Instr → Bool
  | .reservedE | .reservedF => true
  | .wrsect _ cnt buf =>
    !s.cfg.writeSupport || cnt == 0 ||
      decide (2 ^ s.cfg.addrWidth < buf % 2 ^ s.cfg.addrWidth + s.cfg.sectorBytes * cnt.toNat)
  | .rdsect _ cnt buf =>
    cnt == 0 || decide (2 ^ s.cfg.addrWidth < buf % 2 ^ s.cfg.addrWidth + s.cfg.sectorBytes * cnt.toNat)
  | .settype ty => decide (4 < ty.toNat)
  | .recvblk buf len | .sendblk buf len _ =>
    len != 0 && decide (2 ^ s.cfg.addrWidth < buf % 2 ^ s.cfg.addrWidth + len.toNat)
  | i =>
    match commandOf i, appCommandOf i with
    | some (_, _, rlen), _ | none, some (_, _, rlen) => decide (s.cfg.respMax < rlen.toNat)
    | none, none => false

/-- The operands latched for a command. -/
def withCommand (op : BitVec 4) (c : BitVec 6 × BitVec 32 × Byte) (o : Operands) : Operands :=
  { o with op := op, idx := c.1, arg := c.2.1, rlen := c.2.2 }

/-! ### Several sectors -/

/-- The blocks of a multi-sector read stored one after another from buffer address `p` (R67). -/
def storeBlocks : Nat → List Block → State → State
  | _, [], s => s
  | p, b :: bs, s => storeBlocks (bufAddr s (p + s.cfg.sectorBytes)) bs (storePayload (.buffer p) 0 b.payload s)

/-- The trace of the blocks of a multi-sector write, each opened by TOKEN_START_MULTI (R251). -/
def takenTrace (s : State) : Nat → List Taken → List BusEvent → List BusEvent
  | _, [], tr => tr
  | p, b :: bs, tr => 
    takenTrace s (bufAddr s (p + s.cfg.sectorBytes)) bs (b.trace s p s.cfg.sectorBytes s.cfg.tokenStartMulti tr)

/-! ### Bits of a message -/

/-- The bits of a byte sequence, most significant bit of the first byte first (R93). -/
def bitsOf (bs : List Byte) : List Bool := bs.flatMap fun b => [7, 6, 5, 4, 3, 2, 1, 0].map b.getLsbD

/-- A byte sequence as one number, first byte most significant (R91). -/
def numberOf (bs : List Byte) : Nat := bs.foldl (fun n b => n * 256 + b.toNat) 0

end Sys2Proof.Safety
end

