-- ==== Sys2Proof/Certificates/Slice0/Obligations.lean ====
section
/-! DEFINITION. The statements for the provers, each from the numbered rules its docstring names. Runs (`Reaches`) take
no TICK; what a TICK may do to a running operation is said step by step and by the invariants. -/

open Sys2Proof Sys2Proof.Machine Sys2Proof.Safety

/-! ### Encodings -/

/-- R91, R97, R100, R110 to R115, R120, R121: decoding the encoding gives the instruction back, whatever follows it, for
all parameters whose tokens and codes differ. The host-port byte layout is the model's own (log entry 1). -/
def Obligations.DecodeEncodeRoundTrip : Prop :=
  ∀ (p : Params) (i : Instr) (rest : List Byte), distinctBytes p = true → i.wellFormed = true → i.pseudo = false →
    decode p (place i) (encode p i ++ rest) = .ok i

/-- R97, R100, R110 to R115, R120, R122, R124: words written out from the tables (which row a shared word is shown as,
and the bytes of operands: log entries 1, 18). -/
def Obligations.SampleWordsDecode : Prop :=
  decodeTableWord 8 0x01 = some .deselect ∧ decodeTableWord 8 0x0C = some .sync ∧
    decodeTableWord 8 0x0F = some .reservedF ∧ decodeTableWord 48 0x400000000095 = some (.cmd0 0 0x4A) ∧
    decodeTableWord 48 0x48000001AA87 = some (.cmd8 0x1AA 0x43) ∧
    decodeTableWord 48 0x5100000A0001 = some (.cmd17 0xA00) ∧
    decodeTableWord 48 0x694000000001 = some (.acmd41 0x40000000) ∧
    decodeTableWord 48 0x430000000001 = some (.frameAny 3 0 0) ∧
    decodeTableWord 8 0xFE = some .tokenStartSingle ∧ decodeTableWord 8 0xFD = some .tokenStopTran ∧
    decodeTableWord 8 0xE5 = some (.dataResponseAccepted 0xE) ∧ decodeTableWord 8 0x82 = some .codeRespTimeout ∧
    decode Params.default .response [0x05#8] = .ok (.r1Valid 0x05) ∧ decode Params.default .busy [0xFF#8] = .ok .ready ∧
    decode Params.default .host [0x04#8, 0x11, 0x00, 0x00, 0x0A, 0x00, 0x00] = .ok (.sendcmd 17 0xA00 0)

/-- R90 to R92, R94, R95, R66: the 48 bits of a frame, first byte most significant; the trailer chosen by the index
alone; the frames of the default parameters. -/
def Obligations.FrameLayout : Prop :=
  (∀ (p : Params) (idx : BitVec 6) (arg : BitVec 32),
    (buildFrame p idx arg).length = 6 ∧
      numberOf (buildFrame p idx arg) =
        (p.cmdPrefix ++ idx ++ arg ++ selectCrc p idx arg ++ 1#1 : BitVec 48).toNat ∧
      (buildFrame p idx arg).getLast? =
        some (if idx = p.idxGoIdle ∨ idx = p.idxSendIfCond then crc7 ((buildFrame p idx arg).take 5) ++ 1#1
          else p.dummyCrc7 ++ 1#1)) ∧
    buildFrame Params.default 0 0 = [0x40#8, 0, 0, 0, 0, 0x95] ∧
    buildFrame Params.default 8 0x1AA = [0x48#8, 0, 0, 0x01, 0xAA, 0x87] ∧
    buildFrame Params.default 55 0 = [0x77#8, 0, 0, 0, 0, 0x01]

open Polynomial in
/-- R93: the bit-serial CRC-7 is the remainder of the message followed by seven zero bits by x^7 + x^3 + 1 over GF(2),
and the two worked values. -/
def Obligations.CrcIsPolynomialRemainder : Prop :=
  (∀ bs : List Byte,
    (∑ k ∈ Finset.range 7, if (crc7 bs).getLsbD k then (X : (ZMod 2)[X]) ^ k else 0) =
      ((bitsOf bs).foldl (fun q b => q * X + C (if b then 1 else 0)) 0 * X ^ 7) %ₘ (X ^ 7 + X ^ 3 + 1)) ∧
    crc7 [0x40#8, 0, 0, 0, 0] = 0x4A#7 ∧ crc7 [0x48#8, 0, 0, 0x01, 0xAA] = 0x43#7

/-- R100, R114, R115, R116, R102, R124: which received bytes, and which result codes, are the element looked for. -/
def Obligations.WireBytesRecognised : Prop :=
  ∀ (p : Params) (b : Byte),
    (decode p .response [b] = if b.getLsbD 7 then .error .noMatch else .ok (.r1Valid (b.extractLsb' 0 7))) ∧
    (decode p .dataResponse [b] =
      if b.extractLsb' 0 4 = p.dataRespAccepted then .ok (.dataResponseAccepted (b.extractLsb' 4 4))
      else .error .noMatch) ∧
    (decode p .busy [b] = if b = 0xFF#8 then .ok .ready else .error .noMatch) ∧
    (decode p .tokenWait [b] = if b = p.tokenStartSingle then .ok .tokenStartSingle else .error .noMatch) ∧
    (decode p .result [b] = if b = p.codeNotReady then .ok .codeNotReady
      else if b = p.codeRespTimeout then .ok .codeRespTimeout
      else if b = 0xFF#8 then .ok .codeRefused else .error .noMatch) ∧
    (Params.default.dataRespAccepted = 5#4 ∧ Params.default.tokenStartSingle = 0xFE#8 ∧
      Params.default.codeNotReady = 0x81#8 ∧ Params.default.codeRespTimeout = 0x82#8)

/-! ### Acceptance -/

/-- R120, R121, R123: an idle block latches OP and the operands and moves PHASE to the first position. That a
number wider than ADDR_WIDTH or TIMER_WIDTH, which is no operand of R121, is latched by its low bits is the model's
choice (log entry 2). -/
def Obligations.OperationsAccepted : Prop :=
  ∀ s : State, busy s = false →
    exec .select s = .next { s with ops := { s.ops with op := 0x0 }, phase := [.selAssert] } ∧
    exec .deselect s = .next { s with ops := { s.ops with op := 0x1 }, phase := [.csOff .deselect 1] } ∧
    (∀ b, exec (.xchg b) s = .next { s with ops := { s.ops with op := 0x2, txb := b }, phase := [.xcXchg b] }) ∧
    exec .waitrdy s = .next { s with ops := { s.ops with op := 0x3 }, phase := [.wrLoad] } ∧
    (∀ buf len, refusedBy s (.recvblk buf len) = false →
      exec (.recvblk buf len) s = .next { s with
        ops := { s.ops with op := 0x6, buf := buf % 2 ^ s.cfg.addrWidth, len := len }
        phase := [.rbLoad (.buffer (buf % 2 ^ s.cfg.addrWidth)) len.toNat] }) ∧
    (∀ buf len tok, refusedBy s (.sendblk buf len tok) = false →
      exec (.sendblk buf len tok) s = .next { s with
        ops := { s.ops with op := 0x7, buf := buf % 2 ^ s.cfg.addrWidth, len := len, tok := tok }
        phase := [.sbTok (buf % 2 ^ s.cfg.addrWidth) len.toNat tok] }) ∧
    (∀ sect cnt buf, refusedBy s (.rdsect sect cnt buf) = false →
      exec (.rdsect sect cnt buf) s = .next { s with
        ops := { s.ops with op := 0x8, sect := sect, cnt := cnt, buf := buf % 2 ^ s.cfg.addrWidth }
        phase := [.txStart .read sect cnt (buf % 2 ^ s.cfg.addrWidth)] }) ∧
    (∀ sect cnt buf, refusedBy s (.wrsect sect cnt buf) = false →
      exec (.wrsect sect cnt buf) s = .next { s with
        ops := { s.ops with op := 0x9, sect := sect, cnt := cnt, buf := buf % 2 ^ s.cfg.addrWidth }
        phase := [.txStart .write sect cnt (buf % 2 ^ s.cfg.addrWidth)] }) ∧
    exec .rdconfig s = .next { s with ops := { s.ops with op := 0xA }, phase := [.rcStart] } ∧
    (∀ ty, refusedBy s (.settype ty) = false →
      exec (.settype ty) s = .next { s with ops := { s.ops with op := 0xB, typein := ty }, phase := [.stSet ty] }) ∧
    exec .sync s = .next { s with ops := { s.ops with op := 0xC }, phase := [.syStart] } ∧
    ∀ v, exec (.ldt1 v) s = .next { s with
      ops := { s.ops with op := 0xD, tval := v % 2 ^ s.cfg.timerWidth }
      phase := [.ldLoad (v % 2 ^ s.cfg.timerWidth)] }

/-- R96, R97, R120, R122, R123: the command operations and their aliases; and the frames of the table, which the model
reads as the commands that transmit them (log entry 16). -/
def Obligations.CommandsAccepted : Prop :=
  ∀ (i : Instr) (s : State) (c : BitVec 6 × BitVec 32 × Byte), busy s = false → refusedBy s i = false →
    (commandOf i = some c →
      exec i s = .next { s with ops := withCommand 0x4 c s.ops, phase := [.scSelect c.1 c.2.1 c.2.2] }) ∧
    (appCommandOf i = some c →
      exec i s = .next { s with ops := withCommand 0x5 c s.ops, phase := [.saStart c.1 c.2.1 c.2.2] })

/-- R124: a refused operation writes RES = 0xFF and changes OP, RES and the operand registers only; no other
operation is refused. Frame rows and IDLECLK as log entries 16 and 17 read them; the model's choices too are that the
wrap of a BUF of 2^ADDR_WIDTH or more is tested on its low bits (log entry 2) and that a sector has SECTOR_BYTES bytes
in it, where R70 says 512 (log entry 4). -/
def Obligations.RefusedOperations : Prop :=
  ∀ (i : Instr) (s : State), place i = .host → busy s = false →
    (refusedBy s i = true → ∃ o : Operands, exec i s = .next { s with ops := o, res := 0xFF#8 }) ∧
    (refusedBy s i = false → i ≠ .idleclk 0 → ∃ t, exec i s = .next t ∧ busy t = true ∧ t.res = s.res)

/-- R123: "An operation presented while BUSYFLAG = 1 is not accepted and has no effect". -/
def Obligations.BusyIgnoresOperations : Prop :=
  ∀ (i : Instr) (s : State), place i = .host → busy s = true → exec i s = .next s

/-! ### The one-byte elements, and the frame of every instruction -/

/-- R102, R110 to R112, R114, R115, R124, R175, R271, R281, R251: what each element does at the position that meets it
(log entry 15 fixes these positions). -/
def Obligations.WireElementsAct : Prop :=
  ∀ (s : State) (k : List Pos),
    (∀ d len rx, s.phase = .rbTest d len rx :: k →
      exec .tokenStartSingle s = .next { s with phase := .rbData d len 0 :: k }) ∧
    (∀ buf len tok, s.phase = .sbTok buf len tok :: k →
      exec .tokenStartSingle s = .next { (xchg s.cfg.tokenStartSingle s).2 with phase := .sbData buf len 0 :: k } ∧
      exec .tokenStartMulti s = .next { (xchg s.cfg.tokenStartMulti s).2 with phase := .sbData buf len 0 :: k }) ∧
    (∀ rem, s.phase = .wsStop rem :: k →
      exec .tokenStopTran s = .next { (xchg s.cfg.tokenStopTran s).2 with phase := .wrLoad :: .txWaitRdy .write rem :: k }) ∧
    (∀ rx high, s.phase = .sbRespTest rx :: k →
      exec (.dataResponseAccepted high) s = .next { s with phase := .sbLoad :: k }) ∧
    (∀ rlen i r flags, s.phase = .scPollTest rlen i r :: k →
      exec (.r1Valid flags) s = .next { s with phase := .scExtra rlen 0 (0#1 ++ flags) :: k } ∧
      exec .codeRespTimeout s = .next { s with phase := .ret .sendcmd s.cfg.codeRespTimeout :: k }) ∧
    (∀ idx arg rlen rdy, s.phase = .scReady idx arg rlen rdy :: k →
      exec .codeNotReady s = .next { s with phase := .ret .sendcmd s.cfg.codeNotReady :: k }) ∧
    (s.phase = [] → exec .codeRefused s = .next { s with res := 0xFF#8 }) ∧
    (∀ rx, s.phase = .wrTest rx :: k → exec .ready s = .next { s with phase := .ret .waitrdy 1#8 :: k }) ∧
    (∀ rx, s.phase = .sbTest rx :: k → exec .ready s = .next { s with phase := .ret .sendblk 1#8 :: k })

/-- R59, R113, R123, R124, R140, R143: what an instruction leaves unchanged. At the host port only OP, the operand
registers, PHASE, RES (a refusal) and the operations the host still has to issue (IDLECLK, log entry 17) may change; a
one-byte element changes PHASE, and besides it only RES (the refused code) or, for the three sent tokens, what the one
exchange of that token changes. Where an element does nothing is the model's choice (log entry 15). -/
def Obligations.InstructionFrame : Prop :=
  ∀ (i : Instr) (s t : State), exec i s = .next t →
    (∀ a, memRead t a = memRead s a) ∧ t.cfg = s.cfg ∧ t.resp = s.resp ∧ t.sel = s.sel ∧ t.t1 = s.t1 ∧ t.t2 = s.t2 ∧
      t.cardType = s.cardType ∧ t.conf = s.conf ∧ t.events = s.events ∧ t.host.noinit = s.host.noinit ∧
      t.host.pos = s.host.pos ∧ t.host.calls = s.host.calls ∧ t.host.ret = s.host.ret ∧ t.host.seen = s.host.seen ∧
      (place i = .host → t.trace = s.trace ∧ t.rxq = s.rxq ∧ t.drawn = s.drawn ∧
        (t.res = s.res ∨ t.res = 0xFF#8 ∧ refusedBy s i = true)) ∧
      (place i ≠ .host → t.ops = s.ops ∧ t.host = s.host ∧ (i ≠ .codeRefused → t.res = s.res) ∧
        (t.trace = s.trace ∧ t.rxq = s.rxq ∧ t.drawn = s.drawn ∨
          ∃ tok, sentToken s.cfg i = some tok ∧ t.trace = (xchg tok s).2.trace ∧ t.rxq = (xchg tok s).2.rxq ∧
            t.drawn = (xchg tok s).2.drawn))

/-! ### Primitive events -/

/-- R146, R441: TICK, and n of them. -/
def Obligations.TicksCountDown : Prop :=
  ∀ (n : Nat) (s : State),
    runEvents (List.replicate n .tick) s = .next { s with
      t1 := s.t1 - n, t2 := s.t2 - n }

/-- R143, R145: an exchange adds one event and yields the byte the transport returns, SEL unchanged. -/
def Obligations.ExchangeEvent : Prop :=
  ∀ (tx : Byte) (s : State),
    (xchg tx s).2.trace = .exchange tx (xchg tx s).1 :: s.trace ∧ (xchg tx s).2.sel = s.sel ∧
      (∀ rx rest, s.rxq = rx :: rest → xchg tx s =
        (rx, { s with rxq := rest, trace := .exchange tx rx :: s.trace })) ∧
      (s.rxq = [] → (xchg tx s).1 = Config.freeByte s.drawn ∧ (xchg tx s).2.drawn = s.drawn + 1)

/-- R411, R410: reset at any time ends the running operation; the trace and the buffer stay. -/
def Obligations.ResetEndsOperation : Prop :=
  ∀ s : State, ∃ t, stepOn .reset s = .next t ∧ t.phase = [] ∧ t.sel = false ∧ t.trace = s.trace ∧
    (∀ a, memRead t a = memRead s a) ∧ t.res = 0#8 ∧ t.resp = List.replicate s.cfg.respMax 0#8 ∧ t.t1 = 0 ∧
    t.t2 = 0 ∧ t.cardType = .unknown ∧ t.conf = CardConfig.zero ∧ t.host.noinit = true ∧ t.cfg = s.cfg

/-- R57: the reset values the spec states. -/
def Obligations.ResetValues : Prop :=
  State.reset.phase = [] ∧ busy State.reset = false ∧ State.reset.res = 0#8 ∧
    State.reset.resp = [0#8, 0#8, 0#8, 0#8] ∧ State.reset.sel = false ∧ State.reset.t1 = 0 ∧
    State.reset.t2 = 0 ∧ cardTypeBits State.reset.cardType = 0#3 ∧ State.reset.conf.sectorSize = 0#16 ∧
    State.reset.conf.sectorCount = 0#32 ∧ State.reset.conf.eraseBlock = 0#32 ∧
    State.reset.conf.csd.toList = List.replicate 16 0#8 ∧ State.reset.conf.cid.toList = List.replicate 16 0#8 ∧
    State.reset.conf.ocr.toList = List.replicate 4 0#8 ∧ State.reset.conf.sdstatus.toList = List.replicate 64 0#8 ∧
    State.reset.host.noinit = true

/-! ### The small operations, from acceptance to completion -/

/-- R148, R141. -/
def Obligations.SelectRun : Prop :=
  ∀ s : State, busy s = false → ∃ a, exec .select s = .next a ∧
    Reaches a { s with ops := { s.ops with op := 0x0 }, res := 1#8, sel := true, trace := selected s }

/-- R149, R142: the dummy byte is clocked whether or not the level changed. -/
def Obligations.DeselectRun : Prop :=
  ∀ s : State, busy s = false → ∃ a, exec .deselect s = .next a ∧
    Reaches a { (xchg s.cfg.fill { s with trace := if s.sel then .csOff :: s.trace else s.trace }).2 with
      ops := { s.ops with op := 0x1 }, res := 1#8, sel := false }

/-- R150. -/
def Obligations.XchgRun : Prop :=
  ∀ (txb : Byte) (s : State), busy s = false → ∃ a, exec (.xchg txb) s = .next a ∧
    Reaches a { (xchg txb s).2 with ops := { s.ops with op := 0x2, txb := txb }, res := (xchg txb s).1 }

/-- R147, for every operand of TIMER_WIDTH bits (R121). -/
def Obligations.LoadTimerRun : Prop :=
  ∀ (tval : Nat) (s : State), busy s = false → tval < 2 ^ s.cfg.timerWidth → ∃ a, exec (.ldt1 tval) s = .next a ∧
    Reaches a { s with ops := { s.ops with op := 0xD, tval := tval }, res := 1#8, t1 := tval }

/-- R158, R46: the five types are written, 5, 6 and 7 refused. -/
def Obligations.SetTypeRun : Prop :=
  ∀ (ty : BitVec 3) (s : State), busy s = false → ∃ a, exec (.settype ty) s = .next a ∧
    (ty.toNat ≤ 4 → ∃ c, cardTypeBits c = ty ∧
      Reaches a { s with ops := { s.ops with op := 0xB, typein := ty }, res := 1#8, cardType := c }) ∧
    (4 < ty.toNat → a = { s with ops := { s.ops with op := 0xB, typein := ty }, res := 0xFF#8 })

/-- R122: `CMDn` and `ACMDn` are the operations they stand for, and `IDLECLK k` is `XCHG 0xFF` k times, RES the last
received byte. How the host issues the exchanges after the first is the model's own (log entry 17). -/
def Obligations.PseudoOperations : Prop :=
  (∀ (n : BitVec 6) (a : BitVec 32) (l : Byte) (s : State),
    exec (.cmdN n a l) s = exec (.sendcmd n a l) s ∧ exec (.acmdN n a l) s = exec (.sendacmd n a l) s ∧
      decode s.cfg .host (encode s.cfg (.cmdN n a l)) = .ok (.sendcmd n a l) ∧
      decode s.cfg .host (encode s.cfg (.acmdN n a l)) = .ok (.sendacmd n a l)) ∧
  ∀ (k : Nat) (rxs rest : List Byte) (s : State), busy s = false → s.host.pos = .free → s.host.calls = [] →
    s.host.prog = [] → s.rxq = rxs ++ rest → rxs.length = k → ∃ a, exec (.idleclk k) s = .next a ∧
      Reaches a { s with
        ops := if k = 0 then s.ops else { s.ops with op := 0x2, txb := 0xFF#8 }
        res := rxs.getLastD s.res, rxq := rest, trace := exchanged 0xFF#8 rxs s.trace }

/-! ### The readiness wait -/

/-- R151: WAITRDY, the card reading ready after the busy bytes `bb`. -/
def Obligations.WaitReadyRun : Prop :=
  ∀ (bb rest : List Byte) (s : State), busy s = false → boundsOk s.cfg = true → (∀ b ∈ bb, b ≠ 0xFF#8) →
    s.rxq = bb ++ 0xFF#8 :: rest → ∃ a, exec .waitrdy s = .next a ∧
      Reaches a { s with
        ops := { s.ops with op := 0x3 }, res := 1#8, t2 := s.cfg.waitReadyTicks, rxq := rest
        trace := exchanged s.cfg.fill (bb ++ [0xFF#8]) s.trace }

/-- R151, R152: WAITRDY fails when T2 is seen at zero after a byte that is not 0xFF; `n` earlier polls found T2 not
zero, and `m` ticks fall after the last exchange. It counts steps as the model cuts them (log entry 11). -/
def Obligations.WaitReadyTimeout : Prop :=
  ∀ (bb rest : List Byte) (b : Byte) (m : Nat) (s : State), busy s = false → boundsOk s.cfg = true →
    (∀ x ∈ bb, x ≠ 0xFF#8) → b ≠ 0xFF#8 → s.rxq = bb ++ b :: rest → s.cfg.waitReadyTicks ≤ m →
    ∃ a, exec .waitrdy s = .next a ∧
      runEvents (List.replicate (2 + 2 * bb.length) .go ++ (List.replicate m .tick ++ [.go, .go])) a = .next { s with
        ops := { s.ops with op := 0x3 }, res := 0#8, t1 := s.t1 - m, t2 := 0
        rxq := rest, trace := exchanged s.cfg.fill (bb ++ [b]) s.trace }

/-- R159: SYNC, the card reading ready; and SYNC on a card that does not, T2 seen at zero after a byte that is not 0xFF:
chip-select is released all the same. The second counts steps as the model cuts them (log entry 11). -/
def Obligations.SyncRun : Prop :=
  (∀ (bb rest : List Byte) (d : Byte) (s : State), busy s = false → boundsOk s.cfg = true →
    (∀ b ∈ bb, b ≠ 0xFF#8) → s.rxq = bb ++ 0xFF#8 :: d :: rest → ∃ a, exec .sync s = .next a ∧
      Reaches a { s with
        ops := { s.ops with op := 0xC }, res := 1#8, sel := false, t2 := s.cfg.waitReadyTicks, rxq := rest
        trace := .exchange s.cfg.fill d :: .csOff :: exchanged s.cfg.fill (bb ++ [0xFF#8]) (selected s) }) ∧
  ∀ (bb rest : List Byte) (b d : Byte) (m : Nat) (s : State), busy s = false → boundsOk s.cfg = true →
    (∀ x ∈ bb, x ≠ 0xFF#8) → b ≠ 0xFF#8 → s.rxq = bb ++ b :: d :: rest → s.cfg.waitReadyTicks ≤ m →
    ∃ a, exec .sync s = .next a ∧
      runEvents (List.replicate (3 + 2 * bb.length) .go ++ (List.replicate m .tick ++ List.replicate 5 .go)) a =
        .next { s with
          ops := { s.ops with op := 0xC }, res := 0#8, sel := false, t1 := s.t1 - m, t2 := 0, rxq := rest
          trace := .exchange s.cfg.fill d :: .csOff :: exchanged s.cfg.fill (bb ++ [b]) (selected s) }

/-- R152 c, d, R386 c: in each timed poll the received byte is tested before the timer, whatever the timer reads.
The byte that goes on polling under START_TOKEN_STRICT is 0xFF whatever FILL is (log entry 25). -/
def Obligations.PolledByteBeforeTimer : Prop :=
  ∀ (s : State) (k : List Pos) (rx : Byte),
    (s.phase = .wrTest rx :: k → seqStep s = .next { s with
      phase := (if rx = 0xFF#8 then .ret .waitrdy 1#8 else if s.t2 = 0 then .ret .waitrdy 0#8 else .wrXchg) :: k }) ∧
    (s.phase = .sbTest rx :: k → seqStep s = .next { s with
      phase := (if rx = 0xFF#8 then .ret .sendblk 1#8 else if s.t1 = 0 then .ret .sendblk 0#8 else .sbXchg) :: k }) ∧
    ∀ d len, s.phase = .rbTest d len rx :: k → seqStep s = .next { s with
      phase := (if rx = s.cfg.tokenStartSingle then .rbData d len 0
        else if s.cfg.startTokenStrict ∧ rx ≠ 0xFF#8 then .ret .recvblk 0#8
        else if s.t1 = 0 then .ret .recvblk 0#8 else .rbXchg d len) :: k }

/-- R433: no ticks and no matching byte, and each timed loop goes on for ever; two steps for each byte, as the model cuts
them (log entry 11). -/
def Obligations.NoTicksNoEnd : Prop :=
  ∀ (bs rest : List Byte) (s : State) (k : List Pos), s.rxq = bs ++ rest →
    (s.phase = .wrXchg :: k → s.t2 ≠ 0 → (∀ b ∈ bs, b ≠ 0xFF#8) →
      runEvents (List.replicate (2 * bs.length) .go) s =
        .next { s with rxq := rest, trace := exchanged s.cfg.fill bs s.trace }) ∧
    (s.phase = .sbXchg :: k → s.t1 ≠ 0 → (∀ b ∈ bs, b ≠ 0xFF#8) →
      runEvents (List.replicate (2 * bs.length) .go) s =
        .next { s with rxq := rest, trace := exchanged s.cfg.fill bs s.trace }) ∧
    ∀ d len, s.phase = .rbXchg d len :: k → s.t1 ≠ 0 → s.cfg.startTokenStrict = false → (∀ b ∈ bs, b ≠ s.cfg.tokenStartSingle) →
      runEvents (List.replicate (2 * bs.length) .go) s =
        .next { s with rxq := rest, trace := exchanged s.cfg.fill bs s.trace }

/-! ### Commands -/

/-- R176, R172 to R175, R183: a command that is answered, for SENDCMD, CMDn and every frame row (log entry 16). -/
def Obligations.CommandAnswered : Prop :=
  ∀ (i : Instr) (idx : BitVec 6) (arg : BitVec 32) (rlen : Byte) (c : Answer) (rest : List Byte) (s : State),
    commandOf i = some (idx, arg, rlen) → busy s = false → rlen.toNat ≤ s.cfg.respMax →
    s.resp.length = s.cfg.respMax → boundsOk s.cfg = true → c.fits s.cfg rlen = true → s.rxq = c.bytes ++ rest →
    ∃ a, exec i s = .next a ∧ Reaches a { s with
      ops := withCommand 0x4 (idx, arg, rlen) s.ops, res := c.r1, resp := c.extra ++ s.resp.drop rlen.toNat
      sel := true, t2 := s.cfg.waitReadyTicks, rxq := rest, trace := c.trace s.cfg idx arg (selected s) }

/-- R176, R180, R182: R1_POLLS (eight) polled bytes with bit 7 set give CODE_RESP_TIMEOUT (0x82), and RESP is not written (frame rows:
log entry 16). -/
def Obligations.CommandUnanswered : Prop :=
  ∀ (i : Instr) (idx : BitVec 6) (arg : BitVec 32) (rlen : Byte) (bb dd nn rest : List Byte) (s : State),
    commandOf i = some (idx, arg, rlen) → busy s = false → rlen.toNat ≤ s.cfg.respMax → boundsOk s.cfg = true →
    (∀ b ∈ bb, b ≠ 0xFF#8) → dd.length = 6 → nn.length = s.cfg.r1Polls → (∀ b ∈ nn, b.getLsbD 7 = true) →
    s.rxq = bb ++ 0xFF#8 :: (dd ++ (nn ++ rest)) →
    ∃ a, exec i s = .next a ∧ Reaches a { s with
      ops := withCommand 0x4 (idx, arg, rlen) s.ops, res := s.cfg.codeRespTimeout, sel := true, t2 := s.cfg.waitReadyTicks
      rxq := rest
      trace := exchanged s.cfg.fill nn (sent (buildFrame s.cfg idx arg) dd
        (exchanged s.cfg.fill (bb ++ [0xFF#8]) (selected s))) }

/-- R173, R182: the card never reading ready gives CODE_NOT_READY (0x81); no frame byte is sent, and chip-select
stays asserted (frame rows: log entry 16). It counts steps as the model cuts them (log entry 11). -/
def Obligations.CommandNotReady : Prop :=
  ∀ (i : Instr) (idx : BitVec 6) (arg : BitVec 32) (rlen : Byte) (bb rest : List Byte) (b : Byte) (m : Nat)
    (s : State), commandOf i = some (idx, arg, rlen) → busy s = false → rlen.toNat ≤ s.cfg.respMax →
    boundsOk s.cfg = true → (∀ x ∈ bb, x ≠ 0xFF#8) → b ≠ 0xFF#8 → s.rxq = bb ++ b :: rest →
    s.cfg.waitReadyTicks ≤ m →
    ∃ a, exec i s = .next a ∧
      runEvents (List.replicate (3 + 2 * bb.length) .go ++ (List.replicate m .tick ++ List.replicate 4 .go)) a =
        .next { s with
          ops := withCommand 0x4 (idx, arg, rlen) s.ops, res := s.cfg.codeNotReady, sel := true
          t1 := s.t1 - m, t2 := 0, rxq := rest
          trace := exchanged s.cfg.fill (bb ++ [b]) (selected s) }

/-- R201, R202 a: the prefix answered 0x00 or 0x01, then the command (frame rows: log entry 16). -/
def Obligations.AppCommandAnswered : Prop :=
  ∀ (i : Instr) (idx : BitVec 6) (arg : BitVec 32) (rlen : Byte) (c d : Answer) (rest : List Byte) (s : State),
    appCommandOf i = some (idx, arg, rlen) → busy s = false → rlen.toNat ≤ s.cfg.respMax →
    s.resp.length = s.cfg.respMax → boundsOk s.cfg = true → c.fits s.cfg 0 = true → c.r1.toNat ≤ 1 →
    d.fits s.cfg rlen = true → s.rxq = c.bytes ++ (d.bytes ++ rest) →
    ∃ a, exec i s = .next a ∧ Reaches a { s with
      ops := withCommand 0x5 (idx, arg, rlen) s.ops, res := d.r1, resp := d.extra ++ s.resp.drop rlen.toNat
      sel := true, t2 := s.cfg.waitReadyTicks, rxq := rest
      trace := d.trace s.cfg idx arg (c.trace s.cfg s.cfg.idxAppCmd 0 (selected s)) }

/-- R201, R202 b, c: a prefix response above 1 is the result, and the command is not sent: an R1 above 1, the code of a
response that never came, and the code of a card that never read ready (frame rows: log entry 16). The last counts steps
as the model cuts them (log entry 11). -/
def Obligations.AppCommandRejected : Prop :=
  ∀ (i : Instr) (idx : BitVec 6) (arg : BitVec 32) (rlen : Byte) (s : State),
    appCommandOf i = some (idx, arg, rlen) → busy s = false → rlen.toNat ≤ s.cfg.respMax → boundsOk s.cfg = true →
    (∀ (c : Answer) (rest : List Byte), c.fits s.cfg 0 = true → 1 < c.r1.toNat → s.rxq = c.bytes ++ rest →
      ∃ a, exec i s = .next a ∧ Reaches a { s with
        ops := withCommand 0x5 (idx, arg, rlen) s.ops, res := c.r1, sel := true, t2 := s.cfg.waitReadyTicks
        rxq := rest, trace := c.trace s.cfg s.cfg.idxAppCmd 0 (selected s) }) ∧
    (∀ (bb dd nn rest : List Byte), 1 < s.cfg.codeRespTimeout.toNat → (∀ b ∈ bb, b ≠ 0xFF#8) → dd.length = 6 →
      nn.length = s.cfg.r1Polls → (∀ b ∈ nn, b.getLsbD 7 = true) →
      s.rxq = bb ++ 0xFF#8 :: (dd ++ (nn ++ rest)) →
      ∃ a, exec i s = .next a ∧ Reaches a { s with
        ops := withCommand 0x5 (idx, arg, rlen) s.ops, res := s.cfg.codeRespTimeout, sel := true
        t2 := s.cfg.waitReadyTicks, rxq := rest
        trace := exchanged s.cfg.fill nn (sent (buildFrame s.cfg s.cfg.idxAppCmd 0) dd
          (exchanged s.cfg.fill (bb ++ [0xFF#8]) (selected s))) }) ∧
    ∀ (bb rest : List Byte) (b : Byte) (m : Nat), 1 < s.cfg.codeNotReady.toNat → (∀ x ∈ bb, x ≠ 0xFF#8) →
      b ≠ 0xFF#8 → s.rxq = bb ++ b :: rest → s.cfg.waitReadyTicks ≤ m →
      ∃ a, exec i s = .next a ∧
        runEvents (List.replicate (4 + 2 * bb.length) .go ++ (List.replicate m .tick ++ List.replicate 6 .go)) a =
          .next { s with
            ops := withCommand 0x5 (idx, arg, rlen) s.ops, res := s.cfg.codeNotReady, sel := true
            t1 := s.t1 - m, t2 := 0, rxq := rest, trace := exchanged s.cfg.fill (bb ++ [b]) (selected s) }

/-! ### Data blocks -/

/-- R271, R273 b: RECVBLK, the start token arriving. -/
def Obligations.ReceiveBlockRun : Prop :=
  ∀ (buf : Nat) (len : BitVec 16) (b : Block) (rest : List Byte) (s : State), busy s = false →
    boundsOk s.cfg = true → refusedBy s (.recvblk buf len) = false → b.fits s.cfg len.toNat = true →
    s.rxq = b.bytes s.cfg ++ rest → ∃ a, exec (.recvblk buf len) s = .next a ∧
      Reaches a { storePayload (.buffer (bufAddr s buf)) 0 b.payload s with
        ops := { s.ops with op := 0x6, buf := bufAddr s buf, len := len }, res := 1#8, t1 := s.cfg.recvTokenTicks
        rxq := rest, trace := exchanged s.cfg.fill (b.bytes s.cfg) s.trace }

/-- R67, R70, R271: byte k of the payload is at address buf + k, and every other byte of the buffer keeps its value;
nothing but the buffer changes. -/
def Obligations.PayloadReadsBack : Prop :=
  ∀ (buf : Nat) (bs : List Byte) (s : State), Memory.wf s.mem = true → buf + bs.length ≤ 2 ^ s.cfg.addrWidth →
    storePayload (.buffer buf) 0 bs s = { s with mem := (storePayload (.buffer buf) 0 bs s).mem } ∧
    ∀ a, a < 2 ^ s.cfg.addrWidth → memRead (storePayload (.buffer buf) 0 bs s) a =
      if buf ≤ a ∧ a < buf + bs.length then bs.getD (a - buf) 0 else memRead s a

/-- R273 a, b: RECVBLK stores nothing before the token, and after the token it cannot fail. -/
def Obligations.ReceiveFailsBeforeStoring : Prop :=
  ∀ (s t : State) (p : Pos) (k : List Pos), phaseOk s.phase = true → s.phase = p :: k → procOf p = .recvblk →
    seqStep s = .next t →
    ((∀ d len j, p ≠ .rbData d len j) → t.mem = s.mem ∧ t.conf = s.conf) ∧
    (t.phase = .ret .recvblk 0#8 :: k → p ≠ .ret .recvblk 0#8 → ∃ d len rx, p = .rbTest d len rx)

/-- R281, R282: SENDBLK, the data accepted and the busy line clearing. -/
def Obligations.SendBlockRun : Prop :=
  ∀ (buf : Nat) (len : BitVec 16) (tok : Byte) (b : Taken) (rest : List Byte) (s : State), busy s = false →
    boundsOk s.cfg = true → refusedBy s (.sendblk buf len tok) = false → b.fits s.cfg len.toNat = true → s.rxq = b.bytes ++ rest →
    ∃ a, exec (.sendblk buf len tok) s = .next a ∧ Reaches a { s with
      ops := { s.ops with op := 0x7, buf := bufAddr s buf, len := len, tok := tok }, res := 1#8, t1 := s.cfg.sendBusyTicks
      rxq := rest, trace := b.trace s (bufAddr s buf) len.toNat tok s.trace }

/-- R281, R282 a, c: one byte is taken as the data response; a low nibble other than 5 ends SENDBLK at once, T1 not
loaded. -/
def Obligations.SendBlockRejected : Prop :=
  ∀ (buf : Nat) (len : BitVec 16) (tok rx : Byte) (dd rest : List Byte) (s : State), busy s = false →
    refusedBy s (.sendblk buf len tok) = false → dd.length = len.toNat + 3 → rx.extractLsb' 0 4 ≠ s.cfg.dataRespAccepted →
    s.rxq = dd ++ rx :: rest → ∃ a, exec (.sendblk buf len tok) s = .next a ∧ Reaches a { s with
      ops := { s.ops with op := 0x7, buf := bufAddr s buf, len := len, tok := tok }, res := 0#8, rxq := rest
      trace := .exchange s.cfg.fill rx :: sent (blockSent s (bufAddr s buf) len.toNat tok) dd s.trace }

/-! ### Sector transfers -/

/-- R63, R64, R71: the card address of a sector: the sector number on a high-capacity card, its first byte's number
modulo 2^32 on every other; with 512 bytes a sector that is the shift by 9 of R63, exact below sector 2^23. For another
SECTOR_BYTES the product in place of R63's shift is the model's choice (log entry 4). -/
def Obligations.CardAddressConversion : Prop :=
  ∀ (p : Params) (t : CardType) (sect : BitVec 32),
    (t = .sdv2hc → cardAddress p t sect = sect) ∧
    (t ≠ .sdv2hc → (cardAddress p t sect).toNat = sect.toNat * p.sectorBytes % 2 ^ 32) ∧
    (t ≠ .sdv2hc → p.sectorBytes = 512 → cardAddress p t sect = sect <<< 9 ∧
      (sect.toNat < 2 ^ 23 → (cardAddress p t sect).toNat = sect.toNat * 512))

/-- R241, R242, R245: a single-sector read, its command and its block arriving. SECTOR_BYTES for the rules' 512: log
entry 4; a BUF of 2^ADDR_WIDTH or more: log entry 2. -/
def Obligations.ReadSectorRun : Prop :=
  ∀ (sect : BitVec 32) (buf : Nat) (c : Answer) (b : Block) (d : Byte) (rest : List Byte) (s : State),
    busy s = false → refusedBy s (.rdsect sect 1 buf) = false → boundsOk s.cfg = true →
    c.fits s.cfg 0 = true → c.r1 = 0#8 → b.fits s.cfg s.cfg.sectorBytes = true → s.rxq = c.bytes ++ ((b.bytes s.cfg) ++ d :: rest) →
    ∃ a, exec (.rdsect sect 1 buf) s = .next a ∧
      Reaches a { storePayload (.buffer (bufAddr s buf)) 0 b.payload s with
        ops := { s.ops with op := 0x8, sect := sect, cnt := 1, buf := bufAddr s buf }, res := 1#8
        sel := false, t1 := s.cfg.recvTokenTicks, t2 := s.cfg.waitReadyTicks, rxq := rest
        trace := .exchange s.cfg.fill d :: .csOff :: exchanged s.cfg.fill (b.bytes s.cfg)
          (c.trace s.cfg s.cfg.idxReadSingle (cardAddress s.cfg s.cardType sect) (selected s)) }

/-- R241, R243, R244, R246 b: a multi-sector read, every block arriving; `e` answers the stop command, whatever its
response. SECTOR_BYTES for the rules' 512: log entry 4; a BUF of 2^ADDR_WIDTH or more: log entry 2. -/
def Obligations.ReadSectorsRun : Prop :=
  ∀ (sect cnt : BitVec 32) (buf : Nat) (c e : Answer) (bs : List Block) (bb : List Byte) (d : Byte)
    (rest : List Byte) (s : State), busy s = false → cnt ≠ 1 → refusedBy s (.rdsect sect cnt buf) = false →
    boundsOk s.cfg = true → c.fits s.cfg 0 = true → c.r1 = 0#8 → bs.length = cnt.toNat →
    (∀ b ∈ bs, b.fits s.cfg s.cfg.sectorBytes = true) → e.fits s.cfg 0 = true → (∀ x ∈ bb, x ≠ 0xFF#8) →
    s.rxq = c.bytes ++ ((bs.map (Block.bytes s.cfg)).flatten ++ (e.bytes ++ (bb ++ 0xFF#8 :: d :: rest))) →
    ∃ a, exec (.rdsect sect cnt buf) s = .next a ∧
      Reaches a { storeBlocks (bufAddr s buf) bs s with
        ops := { s.ops with op := 0x8, sect := sect, cnt := cnt, buf := bufAddr s buf }, res := 1#8
        sel := false, t1 := s.cfg.recvTokenTicks, t2 := s.cfg.waitReadyTicks, rxq := rest
        trace := .exchange s.cfg.fill d :: .csOff :: exchanged s.cfg.fill (bb ++ [0xFF#8])
          (e.trace s.cfg s.cfg.idxStopTransmission 0
            (exchanged s.cfg.fill (bs.map (Block.bytes s.cfg)).flatten
              (c.trace s.cfg s.cfg.idxReadMulti (cardAddress s.cfg s.cardType sect) (selected s)))) }

/-- R251, R253 b: a single-sector write; no stop token. SECTOR_BYTES for the rules' 512: log entry 4; a BUF of
2^ADDR_WIDTH or more: log entry 2. -/
def Obligations.WriteSectorRun : Prop :=
  ∀ (sect : BitVec 32) (buf : Nat) (c : Answer) (b : Taken) (d : Byte) (rest : List Byte) (s : State),
    busy s = false → refusedBy s (.wrsect sect 1 buf) = false → boundsOk s.cfg = true →
    c.fits s.cfg 0 = true → c.r1 = 0#8 → b.fits s.cfg s.cfg.sectorBytes = true → s.rxq = c.bytes ++ (b.bytes ++ d :: rest) →
    ∃ a, exec (.wrsect sect 1 buf) s = .next a ∧ Reaches a { s with
      ops := { s.ops with op := 0x9, sect := sect, cnt := 1, buf := bufAddr s buf }, res := 1#8
      sel := false, t1 := s.cfg.sendBusyTicks, t2 := s.cfg.waitReadyTicks, rxq := rest
      trace := .exchange s.cfg.fill d :: .csOff :: b.trace s (bufAddr s buf) s.cfg.sectorBytes s.cfg.tokenStartSingle
        (c.trace s.cfg s.cfg.idxWriteSingle (cardAddress s.cfg s.cardType sect) (selected s)) }

/-- R251, R252 a to f: a multi-sector write, every block accepted; `x` is received during the stop token. SECTOR_BYTES
for the rules' 512: log entry 4; a BUF of 2^ADDR_WIDTH or more: log entry 2. -/
def Obligations.WriteSectorsRun : Prop :=
  ∀ (sect cnt : BitVec 32) (buf : Nat) (c : Answer) (bs : List Taken) (x : Byte) (bb : List Byte) (d : Byte)
    (rest : List Byte) (s : State), busy s = false → cnt ≠ 1 → refusedBy s (.wrsect sect cnt buf) = false →
    boundsOk s.cfg = true → c.fits s.cfg 0 = true → c.r1 = 0#8 → bs.length = cnt.toNat →
    (∀ b ∈ bs, b.fits s.cfg s.cfg.sectorBytes = true) → (∀ y ∈ bb, y ≠ 0xFF#8) →
    s.rxq = c.bytes ++ ((bs.map Taken.bytes).flatten ++ x :: (bb ++ 0xFF#8 :: d :: rest)) →
    ∃ a, exec (.wrsect sect cnt buf) s = .next a ∧ Reaches a { s with
      ops := { s.ops with op := 0x9, sect := sect, cnt := cnt, buf := bufAddr s buf }, res := 1#8
      sel := false, t1 := s.cfg.sendBusyTicks, t2 := s.cfg.waitReadyTicks, rxq := rest
      trace := .exchange s.cfg.fill d :: .csOff :: exchanged s.cfg.fill (bb ++ [0xFF#8])
        (.exchange s.cfg.tokenStopTran x :: takenTrace s (bufAddr s buf) bs
          (c.trace s.cfg s.cfg.idxWriteMulti (cardAddress s.cfg s.cardType sect) (selected s))) }

/-- R242, R243, R246 c, e, R247, R252 d, e: a command not accepted ends the transfer with `fail`; a failed block leaves
the loop with the sectors left counted; after the loop the stop always follows; success needs both the wait and the
count. The next block lies SECTOR_BYTES on, where the rules say 512: log entry 4. -/
def Obligations.TransferLoopRules : Prop :=
  ∀ (s : State) (k : List Pos) (dir : Dir) (cnt rem : BitVec 32) (q : Nat) (r v : Byte),
    (s.phase = .txSingle dir q r :: k → r ≠ 0#8 →
      seqStep s = .next { s with phase := .csOff (dirProc dir) 0#8 :: k }) ∧
    (s.phase = .txMulti dir cnt q r :: k → r ≠ 0#8 →
      seqStep s = .next { s with phase := .csOff (dirProc dir) 0#8 :: k }) ∧
    (s.phase = .txBlock dir rem q 0#8 :: k → seqStep s = .next { s with phase := loopEnd dir rem :: k }) ∧
    (s.phase = .txBlock dir 1 q 1#8 :: k → seqStep s = .next { s with phase := loopEnd dir 0 :: k }) ∧
    (s.phase = .txBlock dir rem q 1#8 :: k → rem ≠ 1 → ∃ p, p = (q + s.cfg.sectorBytes) % 2 ^ s.cfg.addrWidth ∧
      seqStep s = .next { s with phase := blockCall s.cfg dir true p :: .txWaitBlock dir (rem - 1) p :: k }) ∧
    (s.phase = .rdStop rem :: k → seqStep s = .next { s with
      phase := .scSelect s.cfg.idxStopTransmission 0 0 :: .rdWaitStop rem :: k }) ∧
    (s.phase = .rdStopped rem :: k → seqStep s = .next { s with phase := .wrLoad :: .txWaitRdy .read rem :: k }) ∧
    (s.phase = .wsStop rem :: k → seqStep s = .next { (xchg s.cfg.tokenStopTran s).2 with
      phase := .wrLoad :: .txWaitRdy .write rem :: k }) ∧
    (s.phase = .txRdy dir rem v :: k → seqStep s = .next { s with
      phase := .csOff (dirProc dir) (if v = 1#8 ∧ rem = 0 then 1#8 else 0#8) :: k })

/-! ### The card configuration -/

/-- R301, R302, R305, R307, R332 to R334: RDCONFIG for a card whose erase-block size comes from the CSD, and for an
Unknown card, every command answered 0x00 and every block arriving; and R301, R306: a command not answered 0x00 or a
block not received ends RDCONFIG with `fail` and the release, nothing else written. RES = 1 also where SECTOR_COUNT or
ERASE_BLOCK is a free value is the model's choice (log entries 9, 10), and so is SECTOR_SIZE = SECTOR_BYTES where that
is not the 512 of R307 (log entry 4). -/
def Obligations.ReadConfigRun : Prop :=
  (∀ (s : State) (p : Pos), s.phase = [p] → configFails p = true → s.sel = true →
    Reaches s { (xchg s.cfg.fill { s with trace := .csOff :: s.trace }).2 with
      phase := [], res := 0#8, sel := false }) ∧
  ∀ (o ci cs : Answer) (b₁ b₂ : Block) (d : Byte) (rest : List Byte) (s : State), busy s = false →
    s.cardType ≠ .sdv2sc → s.cardType ≠ .sdv2hc → boundsOk s.cfg = true → 4 ≤ s.cfg.respMax →
    s.resp.length = s.cfg.respMax → o.fits s.cfg 4 = true → o.r1 = 0#8 → ci.fits s.cfg 0 = true → ci.r1 = 0#8 →
    b₁.fits s.cfg 16 = true → cs.fits s.cfg 0 = true → cs.r1 = 0#8 →
    b₂.fits s.cfg 16 = true →
    s.rxq = o.bytes ++ (ci.bytes ++ ((b₁.bytes s.cfg) ++ (cs.bytes ++ ((b₂.bytes s.cfg) ++ d :: rest)))) →
    ∃ a t, exec .rdconfig s = .next a ∧ Reaches a t ∧
      t.ops = { s.ops with op := 0xA } ∧ t.phase = [] ∧ t.sel = false ∧ t.t1 = s.cfg.recvTokenTicks ∧
      t.t2 = s.cfg.waitReadyTicks ∧ t.resp = o.extra ++ s.resp.drop 4 ∧ t.cardType = s.cardType ∧ t.cfg = s.cfg ∧
      t.mem = s.mem ∧ t.host = s.host ∧ t.rxq = rest ∧ t.conf.ocr.toList = o.extra ∧ t.conf.cid.toList = b₁.payload ∧
      t.conf.csd.toList = b₂.payload ∧ t.conf.sdstatus = s.conf.sdstatus ∧ t.conf.sectorSize = BitVec.ofNat 16 s.cfg.sectorBytes ∧
      (csdStructure t.conf.csd = 1#2 → t.conf.sectorCount = sectorCountV2 t.conf.csd) ∧
      (csdStructure t.conf.csd ≠ 1#2 → 7 ≤ v1Exponent t.conf.csd →
        t.conf.sectorCount = sectorCountV1 t.conf.csd) ∧
      (s.cardType = .mmc → t.res = 1#8 ∧ t.conf.eraseBlock = eraseMmc t.conf.csd) ∧
      (s.cardType = .sdv1 → t.res = 1#8 ∧ ((writeBlLen t.conf.csd).toNat ∈ [9, 10, 11] →
        t.conf.eraseBlock = eraseSdv1 t.conf.csd)) ∧
      (s.cardType = .unknown → t.res = 0#8 ∧ t.conf.eraseBlock = s.conf.eraseBlock) ∧
      t.trace = .exchange s.cfg.fill d :: .csOff :: exchanged s.cfg.fill (b₂.bytes s.cfg)
        (cs.trace s.cfg s.cfg.idxSendCsd 0 (exchanged s.cfg.fill (b₁.bytes s.cfg) (ci.trace s.cfg s.cfg.idxSendCid 0
          (o.trace s.cfg s.cfg.idxReadOcr 0 (selected s)))))

/-- R301, R330, R331: RDCONFIG for an SD version 2 card; `pf` and `sd` answer the SD-status command, `b₃` is the first
part of the status block, and the 48 bytes `sk` are dropped. RES = 1 also where SECTOR_COUNT is a free value
is the model's choice (log entry 9), and so is SECTOR_SIZE = SECTOR_BYTES where that is not the 512 of R307 (log
entry 4). -/
def Obligations.ReadConfigStatusRun : Prop :=
  ∀ (o ci cs pf sd : Answer) (b₁ b₂ b₃ : Block) (sk : List Byte) (d : Byte) (rest : List Byte) (s : State),
    busy s = false → (s.cardType = .sdv2sc ∨ s.cardType = .sdv2hc) → boundsOk s.cfg = true →
    4 ≤ s.cfg.respMax → s.resp.length = s.cfg.respMax → o.fits s.cfg 4 = true → o.r1 = 0#8 → ci.fits s.cfg 0 = true →
    ci.r1 = 0#8 → b₁.fits s.cfg 16 = true → cs.fits s.cfg 0 = true → cs.r1 = 0#8 →
    b₂.fits s.cfg 16 = true → pf.fits s.cfg 0 = true → pf.r1.toNat ≤ 1 → sd.fits s.cfg 1 = true →
    sd.r1 = 0#8 → b₃.fits s.cfg 16 = true → sk.length = 48 →
    s.rxq = o.bytes ++ (ci.bytes ++ ((b₁.bytes s.cfg) ++ (cs.bytes ++ ((b₂.bytes s.cfg) ++ (pf.bytes ++ (sd.bytes ++ ((b₃.bytes s.cfg) ++
      (sk ++ d :: rest)))))))) →
    ∃ a t, exec .rdconfig s = .next a ∧ Reaches a t ∧ t.res = 1#8 ∧
      t.ops = { s.ops with op := 0xA } ∧ t.phase = [] ∧ t.sel = false ∧ t.t1 = s.cfg.recvTokenTicks ∧
      t.t2 = s.cfg.waitReadyTicks ∧ t.resp = sd.extra ++ (o.extra ++ s.resp.drop 4).drop 1 ∧
      t.cardType = s.cardType ∧ t.cfg = s.cfg ∧ t.mem = s.mem ∧ t.host = s.host ∧ t.rxq = rest ∧
      t.conf.ocr.toList = o.extra ∧ t.conf.cid.toList = b₁.payload ∧ t.conf.csd.toList = b₂.payload ∧
      t.conf.sdstatus.toList = b₃.payload ++ s.conf.sdstatus.toList.drop 16 ∧ t.conf.sectorSize = BitVec.ofNat 16 s.cfg.sectorBytes ∧
      (csdStructure t.conf.csd = 1#2 → t.conf.sectorCount = sectorCountV2 t.conf.csd) ∧
      (csdStructure t.conf.csd ≠ 1#2 → 7 ≤ v1Exponent t.conf.csd →
        t.conf.sectorCount = sectorCountV1 t.conf.csd) ∧
      t.conf.eraseBlock = eraseFromStatus t.conf.sdstatus ∧
      t.trace = .exchange s.cfg.fill d :: .csOff :: exchanged s.cfg.fill ((b₃.bytes s.cfg) ++ sk)
        (sd.trace s.cfg s.cfg.idxSdStatus 0 (pf.trace s.cfg s.cfg.idxAppCmd 0 (exchanged s.cfg.fill (b₂.bytes s.cfg)
          (cs.trace s.cfg s.cfg.idxSendCsd 0 (exchanged s.cfg.fill (b₁.bytes s.cfg) (ci.trace s.cfg s.cfg.idxSendCid 0
            (o.trace s.cfg s.cfg.idxReadOcr 0 (selected s))))))))

/-- R310 to R313, R315, R318, R131: the sector count of both CSD versions, in bytes and numbers. -/
def Obligations.SectorCountFormulas : Prop :=
  ∀ csd : Vector Byte 16,
    (csdStructure csd).toNat = csd[0].toNat / 64 ∧
    (cSizeV2 csd).toNat = csd[7].toNat % 64 * 65536 + csd[8].toNat * 256 + csd[9].toNat ∧
    (cSizeV1 csd).toNat = csd[6].toNat % 4 * 1024 + csd[7].toNat * 4 + csd[8].toNat / 64 ∧
    (cSizeMult csd).toNat = csd[9].toNat % 4 * 2 + csd[10].toNat / 128 ∧
    (readBlLen csd).toNat = csd[5].toNat % 16 ∧
    (sectorCountV2 csd).toNat = ((cSizeV2 csd).toNat + 1) * 1024 % 2 ^ 32 ∧
    ((sectorCountV2 csd).toNat = 0 ↔ (cSizeV2 csd).toNat = 0x3FFFFF) ∧
    (7 ≤ v1Exponent csd → (sectorCountV1 csd).toNat =
      ((cSizeV1 csd).toNat + 1) * 2 ^ ((readBlLen csd).toNat + (cSizeMult csd).toNat - 7) ∧
      (sectorCountV1 csd).toNat ≤ 2 ^ 27)

/-- R314, R331 to R333, R133: the three erase-block formulas, in bytes and numbers. -/
def Obligations.EraseBlockFormulas : Prop :=
  ∀ (csd : Vector Byte 16) (sd : Vector Byte 64),
    (eraseFromStatus sd).toNat = 16 * 2 ^ (sd[10].toNat / 16) ∧
    (eraseMmc csd).toNat =
      (csd[10].toNat / 4 % 32 + 1) * (csd[10].toNat % 4 * 8 + csd[11].toNat / 32 + 1) ∧
    (sectorSizeF csd).toNat = csd[10].toNat % 64 * 2 + csd[11].toNat / 128 ∧
    (writeBlLen csd).toNat = csd[12].toNat % 4 * 4 + csd[13].toNat / 64 ∧
    ((writeBlLen csd).toNat ∈ [9, 10, 11] →
      (eraseSdv1 csd).toNat = ((sectorSizeF csd).toNat + 1) * 2 ^ ((writeBlLen csd).toNat - 9) ∧
      (eraseSdv1 csd).toNat = ((csd[10].toNat % 64 * 2 + csd[11].toNat / 128) + 1) * 2 ^ (csd[13].toNat / 64 - 1))

/-! ### Steps -/

/-- R11, R123: bytes presented to the idle block that decode to an instruction: the step is its `exec`, the event taken
off; the same where the host issues the next operation it has (its list: log entries 17, 19), and for `withFetchWord` at
the host port (log entry 18). -/
def Obligations.StepRunsPresented : Prop :=
  ∀ (s : State) (bs : List Byte) (i : Instr), decode s.cfg .host bs = .ok i →
    (∀ es, s.events = .present bs :: es → busy s = false → step s = exec i { s with events := es }) ∧
    (∀ es ps, s.events = .go :: es → busy s = false → s.host.pos = .free → s.host.calls = [] →
      s.host.prog = bs :: ps → step s = exec i { s with events := es, host := { s.host with prog := ps } }) ∧
    (∀ nbits w, tablePlace nbits w = .host → tableBytes nbits w = bs →
      step (s.withFetchWord nbits w) = exec i { s with phase := [] })

/-- R11, R40: a step of the running block at a position that looks for an element runs the element decoded there;
START_TOKEN_STRICT is tested first (R271). That the one-byte rows are run so is the model's reading (log entry 15). -/
def Obligations.StepRunsWireElement : Prop :=
  ∀ (s : State) (es : List Event) (k : List Pos) (b : Byte) (i : Instr), s.events = .go :: es →
    (∀ rlen j, s.phase = .scPollTest rlen j b :: k → decode s.cfg .response [b] = .ok i →
      step s = exec i { s with events := es }) ∧
    (s.phase = .wrTest b :: k → decode s.cfg .busy [b] = .ok i → step s = exec i { s with events := es }) ∧
    (s.phase = .sbTest b :: k → decode s.cfg .busy [b] = .ok i → step s = exec i { s with events := es }) ∧
    (s.phase = .sbRespTest b :: k → decode s.cfg .dataResponse [b] = .ok i → step s = exec i { s with events := es }) ∧
    (∀ buf len, s.phase = .sbTok buf len b :: k → decode s.cfg .startToken [b] = .ok i →
      step s = exec i { s with events := es }) ∧
    (∀ d len, s.phase = .rbTest d len b :: k → decode s.cfg .tokenWait [b] = .ok i →
      step s = exec i { s with events := es })

/-! ### Invariants -/

/-- R60: the buffer's list stays in its canonical form (the model's, log entry 8). -/
def Obligations.StepKeepsMemoryCanonical : Prop :=
  ∀ s t : State, Memory.wf s.mem = true → step s = .next t → Memory.wf t.mem = true

/-- R40: PHASE stays a stack the pseudocode can produce, of depth at most 4, and the step does not fault. -/
def Obligations.StepKeepsPhase : Prop :=
  ∀ s : State, phaseOk s.phase = true →
    s.phase.length ≤ 4 ∧ (∀ f, step s ≠ .fault f) ∧ ∀ t, step s = .next t → phaseOk t.phase = true

/-- R44, R184, R245, R306, R387: chip-select stands as PHASE says: asserted from a procedure's first command to its
CS(release), released from there to its return. -/
def Obligations.StepKeepsChipSelect : Prop :=
  ∀ s t : State, phaseOk s.phase = true → selOk s = true → step s = .next t → selOk t = true

/-- R46, R54, R274: only RDCONFIG and reset write the card configuration, only SETTYPE and reset write CARD_TYPE, and a
register is RECVBLK's destination only inside RDCONFIG. -/
def Obligations.OnlyConfigWritersWrite : Prop :=
  ∀ s t : State, phaseOk s.phase = true → destOk s.phase = true → step s = .next t →
    destOk t.phase = true ∧
      (t.conf ≠ s.conf → operation s = some .rdconfig ∨ (nextEvent s).1 = .reset) ∧
      (t.cardType ≠ s.cardType → operation s = some .settype ∨ (nextEvent s).1 = .reset)

/-- R9, R23, R25, R32, R45: no step changes a parameter; RESP keeps its RESP_MAX bytes, and the timers, TVAL and BUF stay
within the widths the parameters give them. -/
def Obligations.StepKeepsParameters : Prop :=
  ∀ s t : State, step s = .next t →
    t.cfg = s.cfg ∧ (s.resp.length = s.cfg.respMax → t.resp.length = t.cfg.respMax) ∧
      (widthsOk s = true → widthsOk t = true)

/-- R307, R361: get-sector-size answers 512 once NOINIT is clear, with one host (R434). That it answers SECTOR_BYTES
where that is not 512 is the model's choice (log entry 4). -/
def Obligations.StepKeepsSectorSize : Prop :=
  ∀ s t : State, phaseOk s.phase = true → sizeOk s → step s = .next t → sizeOk t

/-- R355, R354, R353: NOINIT changes only in `initialize()` and at reset. -/
def Obligations.OnlyInitializeChangesNoinit : Prop :=
  ∀ s t : State, step s = .next t → t.host.noinit ≠ s.host.noinit →
    (nextEvent s).1 = .reset ∨
      busy s = false ∧ (nextEvent s).1 = .go ∧
        ((t.host.noinit = false ∧ s.host.pos = .configRead ∧ s.res = 1#8) ∨
          (t.host.noinit = true ∧ s.host.pos = .free ∧ s.host.calls.head? = some .init))

/-- R57: reset meets the invariants. -/
def Obligations.ResetMeetsInvariants : Prop :=
  Memory.wf State.reset.mem = true ∧ phaseOk State.reset.phase = true ∧ selOk State.reset = true ∧
    destOk State.reset.phase = true ∧ State.reset.resp.length = State.reset.cfg.respMax ∧ sizeOk State.reset ∧
    widthsOk State.reset = true

/-! ### The host contracts -/

/-- R351, R356, R359: with NOINIT set, read, write and every ioctl return NotReady, issue nothing and read nothing;
status returns the flag. A call that does not exist (`write` without WRITE_SUPPORT, R357) is none of them. -/
def Obligations.NotReadyShortCircuit : Prop :=
  ∀ (s : State) (cs : List Call) (c : Call), busy s = false → s.host.pos = .free → s.host.calls = c :: cs →
    (c = .status → hostStep s = .next { s with host := { s.host with
      calls := cs, ret := some (.status (if s.host.noinit then 1#8 else 0#8)) } }) ∧
    (s.host.noinit = true → callExists s.cfg c = true → c ≠ .status → c ≠ .init → hostStep s = .next { s with host := { s.host with
      calls := cs, ret := some (.code .notReady) } })

/-- R350, R352, R357 to R360: with NOINIT clear, what read, write and each ioctl code do; what read, write and sync
return when their operation is done; that `write` does not exist without WRITE_SUPPORT, which stops the host's step (log
entry 22, as is a value standing for Ok). A value goes to the caller's buffer too: bytes in index order, a number in the
host's own byte order, a free value, and where that buffer lies is the model's choice (log entry 27). And R11, R30, R43,
R45, R74: a register read gives the register and changes nothing but what the host has seen. -/
def Obligations.AdapterCalls : Prop :=
  (∀ (s : State) (cs : List Call) (c : Call), busy s = false → s.host.pos = .free → s.host.calls = c :: cs →
    s.host.noinit = false →
    (∀ b n m, c = .read b n m → hostStep s =
      exec (.rdsect n m b) { s with host := { s.host with calls := cs, pos := .transfer } }) ∧
    (∀ b n m, c = .write b n m → s.cfg.writeSupport = true → hostStep s =
      exec (.wrsect n m b) { s with host := { s.host with calls := cs, pos := .transfer } }) ∧
    (∀ b, c = .ioctl 0 b → hostStep s =
      exec .sync { s with host := { s.host with calls := cs, pos := .syncing } }) ∧
    (∀ n v bs b, (n, v, bs) ∈ [
        (1, CallRet.number s.conf.sectorCount.toNat, numberLayout 4 s.conf.sectorCount.toNat),
        (2, .number s.conf.sectorSize.toNat, numberLayout 2 s.conf.sectorSize.toNat),
        (3, .number s.conf.eraseBlock.toNat, numberLayout 4 s.conf.eraseBlock.toNat),
        (4, .number (cardTypeBits s.cardType).toNat, [0#5 ++ cardTypeBits s.cardType]),
        (5, .bytes s.conf.csd.toList, s.conf.csd.toList), (6, .bytes s.conf.cid.toList, s.conf.cid.toList),
        (7, .bytes s.conf.ocr.toList, s.conf.ocr.toList), (8, .bytes s.conf.sdstatus.toList, s.conf.sdstatus.toList)] →
      c = .ioctl n b → hostStep s = .next { storePayload (.buffer b) 0 bs s with host := { s.host with
        calls := cs, ret := some v } }) ∧
    (∀ n b, 8 < n → c = .ioctl n b → hostStep s = .next { s with host := { s.host with
      calls := cs, ret := some (.code .parameterError) } })) ∧
  (∀ (s : State) (cs : List Call) (b : Nat) (n m : BitVec 32), busy s = false → s.host.pos = .free →
    s.host.calls = .write b n m :: cs → s.cfg.writeSupport = false → hostStep s = .refused .noSuchCall) ∧
  (∀ s : State, busy s = false →
    (s.host.pos = .transfer → hostStep s = .next { s with host := { s.host with
      pos := .free
      ret := some (.code (if s.res = 0xFF#8 then .parameterError else if s.res = 1#8 then .okay else .error)) } }) ∧
    (s.host.pos = .syncing → hostStep s = .next { s with host := { s.host with
      pos := .free, ret := some (.code (if s.res = 1#8 then .okay else .notReady)) } })) ∧
  ∀ (s : State) (r : HostReg), ∃ v,
    stepOn (.hostRead r) s = .next { s with host := { s.host with seen := some v } } ∧
    (r = .res → v = .number s.res.toNat) ∧ (r = .resp → v = .bytes s.resp) ∧
    (r = .busyflag → v = .number (if s.phase = [] then 0 else 1)) ∧
    (r = .t1 → v = .number s.t1) ∧ (r = .t2 → v = .number s.t2) ∧
    (r = .cardType → v = .number (cardTypeBits s.cardType).toNat) ∧
    (r = .sectorSize → v = .number s.conf.sectorSize.toNat) ∧
    (r = .sectorCount → v = .number s.conf.sectorCount.toNat) ∧
    (r = .eraseBlock → v = .number s.conf.eraseBlock.toNat) ∧ (r = .csd → v = .bytes s.conf.csd.toList) ∧
    (r = .cid → v = .bytes s.conf.cid.toList) ∧ (r = .ocr → v = .bytes s.conf.ocr.toList) ∧
    (r = .sdstatus → v = .bytes s.conf.sdstatus.toList)

/-- R11, R210 to R213, R220, R221, R224 to R228, R353, R354: what the host does next in the initialization sequence, from
the start of the call (NOINIT set, SETTYPE 0) to its end: it issues one operation, or reads one of RES, RESP and T1,
and acts on what it read in the step after. The model's choices are that RESP is read whole, SEL tested without a read,
and a return done with the last read (log entry 22), and that the echo follows another IF_COND_ARG and the block length another
SECTOR_BYTES than the rules' 0x01, 0xAA and 512 (log entry 4). -/
def Obligations.InitBranches : Prop :=
  ∀ s : State, busy s = false →
    (∀ cs, s.host.pos = .free → s.host.calls = .init :: cs → hostStep s =
      exec (.settype 0) { s with host := { s.host with pos := .afterClear, calls := cs, noinit := true } }) ∧
    (s.host.pos = .afterClear → s.sel = true → hostStep s = exec .deselect (setHostPos (.powerup 0) s)) ∧
    (∀ k, (s.host.pos = .afterClear ∧ s.sel = false ∧ k = 0 ∨ s.host.pos = .powerup k) → hostStep s =
      if k < s.cfg.powerupBytes then exec (.xchg s.cfg.fill) (setHostPos (.powerup (k + 1)) s)
      else exec (.sendcmd s.cfg.idxGoIdle 0 0) (setHostPos .afterReset s)) ∧
    (s.host.pos = .afterReset → hostStep s = .next (setHostPos (.resetRes s.res) s)) ∧
    (∀ r, s.host.pos = .resetRes r → hostStep s =
      if r = 0x01#8 then exec (.sendcmd s.cfg.idxSendIfCond s.cfg.ifCondArg 4) (setHostPos .afterIfCond s)
      else exec .deselect (setHostPos (.released .unknown) s)) ∧
    (s.host.pos = .afterIfCond → hostStep s = .next (setHostPos (.ifCondRes s.res) s)) ∧
    (∀ r, s.host.pos = .ifCondRes r → hostStep s =
      if r.getLsbD 7 then exec .deselect (setHostPos (.released .unknown) s)
      else if r = 0x01#8 then .next (setHostPos (.ifCondResp s.resp) s)
      else exec (.sendcmd s.cfg.idxAppCmd 0 0) (setHostPos .probed s)) ∧
    (∀ e, s.host.pos = .ifCondResp e → hostStep s =
      if e.getD 2 0 = s.cfg.ifCondArg.extractLsb' 8 8 ∧ e.getD 3 0 = s.cfg.ifCondArg.extractLsb' 0 8 then
        exec (.ldt1 s.cfg.negotiationTicks) (setHostPos .v2Loaded s)
      else exec (.sendcmd s.cfg.idxAppCmd 0 0) (setHostPos .probed s)) ∧
    (s.host.pos = .v2Loaded → hostStep s =
      exec (.sendacmd s.cfg.idxSdSendOpCond 0x40000000 0) (setHostPos .v2Tried s)) ∧
    (s.host.pos = .v2Tried → hostStep s = .next (setHostPos (.v2Res s.res) s)) ∧
    (∀ r, s.host.pos = .v2Res r → hostStep s =
      if r = 0x00#8 then exec (.sendcmd s.cfg.idxReadOcr 0 4) (setHostPos .v2Ocr s)
      else if r = 0x01#8 then .next (setHostPos (.v2Timer s.t1) s)
      else exec .deselect (setHostPos (.released .unknown) s)) ∧
    (∀ n, s.host.pos = .v2Timer n → hostStep s =
      if n = 0 then exec .deselect (setHostPos (.released .unknown) s)
      else exec (.sendacmd s.cfg.idxSdSendOpCond 0x40000000 0) (setHostPos .v2Tried s)) ∧
    (s.host.pos = .v2Ocr → hostStep s = .next (setHostPos (.v2OcrRes s.res) s)) ∧
    (∀ r, s.host.pos = .v2OcrRes r → hostStep s =
      if r = 0x00#8 then .next (setHostPos (.v2OcrResp s.resp) s)
      else exec .deselect (setHostPos (.released .unknown) s)) ∧
    (∀ o, s.host.pos = .v2OcrResp o → hostStep s =
      if (o.getD 0 0).getLsbD 6 then exec .deselect (setHostPos (.released .sdv2hc) s)
      else exec (.sendcmd s.cfg.idxSetBlocklen (BitVec.ofNat 32 s.cfg.sectorBytes) 0)
        (setHostPos (.afterBlocklen .sdv2sc) s)) ∧
    (s.host.pos = .probed → hostStep s = .next (setHostPos (.probeRes s.res) s)) ∧
    (∀ r, s.host.pos = .probeRes r → hostStep s = exec (.ldt1 s.cfg.negotiationTicks)
      (setHostPos (.legacyLoaded (if r.getLsbD 2 then .mmc else .sdv1)) s)) ∧
    (s.host.pos = .legacyLoaded .mmc → hostStep s =
      exec (.sendcmd s.cfg.idxSendOpCond 0 0) (setHostPos (.legacyTried .mmc) s)) ∧
    (s.host.pos = .legacyLoaded .sdv1 → hostStep s =
      exec (.sendacmd s.cfg.idxSdSendOpCond 0 0) (setHostPos (.legacyTried .sdv1) s)) ∧
    (∀ t, s.host.pos = .legacyTried t → hostStep s = .next (setHostPos (.legacyRes t s.res) s)) ∧
    (∀ t r, t = .mmc ∨ t = .sdv1 → s.host.pos = .legacyRes t r → hostStep s =
      if r = 0x00#8 then exec (.sendcmd s.cfg.idxSetBlocklen (BitVec.ofNat 32 s.cfg.sectorBytes) 0)
        (setHostPos (.afterBlocklen t) s)
      else .next (setHostPos (.legacyTimer t s.t1) s)) ∧
    (∀ t n, s.host.pos = .legacyTimer t n → hostStep s =
      if n = 0 then exec .deselect (setHostPos (.released .unknown) s)
      else if t = .mmc then exec (.sendcmd s.cfg.idxSendOpCond 0 0) (setHostPos (.legacyTried t) s)
      else exec (.sendacmd s.cfg.idxSdSendOpCond 0 0) (setHostPos (.legacyTried t) s)) ∧
    (∀ t, s.host.pos = .afterBlocklen t → hostStep s = .next (setHostPos (.blocklenRes t s.res) s)) ∧
    (∀ t r, s.host.pos = .blocklenRes t r → hostStep s =
      exec .deselect (setHostPos (.released (if r = 0x00#8 then t else .unknown)) s)) ∧
    (∀ t, s.host.pos = .released t → t ≠ .unknown → hostStep s =
      exec (.settype (cardTypeBits t)) (setHostPos .typeSet s)) ∧
    (s.host.pos = .released .unknown → hostStep s = .next { s with host := { s.host with
      pos := .free, ret := some (.status (if s.host.noinit then 1#8 else 0#8)) } }) ∧
    (s.host.pos = .typeSet → hostStep s = exec .rdconfig (setHostPos .configRead s)) ∧
    (s.host.pos = .configRead → hostStep s = .next { s with host := { s.host with
      pos := .free, noinit := if s.res = 1#8 then false else s.host.noinit
      ret := some (.status (if s.res = 1#8 then 0#8 else if s.host.noinit then 1#8 else 0#8)) } })

/-- R230, R211, R212, R227, R353: `initialize()` on a card that always reads 0xFF ends in failure after
POWERUP_BYTES + R1_POLLS + 8 exchanges, with no tick: 26 of them by default. The host's steps are log entry 22's. -/
def Obligations.SilentCardFailsInit : Prop :=
  ∀ (rest : List Byte) (cs : List Call) (s : State), busy s = false → s.sel = false → boundsOk s.cfg = true →
    s.cfg.codeRespTimeout ≠ 0x01#8 → s.host.pos = .free → s.host.calls = .init :: cs →
    s.rxq = List.replicate (s.cfg.powerupBytes + s.cfg.r1Polls + 8) 0xFF#8 ++ rest →
    ∃ t, Reaches s t ∧ t.phase = [] ∧ t.sel = false ∧ t.cardType = .unknown ∧ t.rxq = rest ∧
      t.host = { s.host with calls := cs, noinit := true, ret := some (.status 1#8) } ∧ t.conf = s.conf ∧
      t.mem = s.mem ∧ t.resp = s.resp ∧
      t.trace = .exchange s.cfg.fill 0xFF#8 :: .csOff :: exchanged s.cfg.fill (List.replicate s.cfg.r1Polls 0xFF#8)
        (sent (buildFrame s.cfg s.cfg.idxGoIdle 0) (List.replicate 6 0xFF#8)
          (exchanged s.cfg.fill (List.replicate 1 0xFF#8)
            (.csOn :: exchanged s.cfg.fill (List.replicate s.cfg.powerupBytes 0xFF#8) s.trace)))
end

