-- ==== Sys2Proof/Laws/State.lean ====
section
/-! SUPPORT. One lemma per field per update of the state, so that no later proof unfolds a record update. -/

namespace Sys2Proof.Machine

variable (s : State)

/-! ### goTo -/

@[simp] theorem goTo_cfg (p : Pos) : (goTo p s).cfg = s.cfg := rfl
@[simp] theorem goTo_ops (p : Pos) : (goTo p s).ops = s.ops := rfl
@[simp] theorem goTo_res (p : Pos) : (goTo p s).res = s.res := rfl
@[simp] theorem goTo_resp (p : Pos) : (goTo p s).resp = s.resp := rfl
@[simp] theorem goTo_phase (p : Pos) : (goTo p s).phase = p :: s.phase.tail := rfl
@[simp] theorem goTo_sel (p : Pos) : (goTo p s).sel = s.sel := rfl
@[simp] theorem goTo_t1 (p : Pos) : (goTo p s).t1 = s.t1 := rfl
@[simp] theorem goTo_t2 (p : Pos) : (goTo p s).t2 = s.t2 := rfl
@[simp] theorem goTo_cardType (p : Pos) : (goTo p s).cardType = s.cardType := rfl
@[simp] theorem goTo_conf (p : Pos) : (goTo p s).conf = s.conf := rfl
@[simp] theorem goTo_mem (p : Pos) : (goTo p s).mem = s.mem := rfl
@[simp] theorem goTo_trace (p : Pos) : (goTo p s).trace = s.trace := rfl
@[simp] theorem goTo_rxq (p : Pos) : (goTo p s).rxq = s.rxq := rfl
@[simp] theorem goTo_events (p : Pos) : (goTo p s).events = s.events := rfl
@[simp] theorem goTo_drawn (p : Pos) : (goTo p s).drawn = s.drawn := rfl
@[simp] theorem goTo_host (p : Pos) : (goTo p s).host = s.host := rfl

/-! ### callSub -/

@[simp] theorem callSub_cfg (c w : Pos) : (callSub c w s).cfg = s.cfg := rfl
@[simp] theorem callSub_ops (c w : Pos) : (callSub c w s).ops = s.ops := rfl
@[simp] theorem callSub_res (c w : Pos) : (callSub c w s).res = s.res := rfl
@[simp] theorem callSub_resp (c w : Pos) : (callSub c w s).resp = s.resp := rfl
@[simp] theorem callSub_phase (c w : Pos) : (callSub c w s).phase = c :: w :: s.phase.tail := rfl
@[simp] theorem callSub_sel (c w : Pos) : (callSub c w s).sel = s.sel := rfl
@[simp] theorem callSub_t1 (c w : Pos) : (callSub c w s).t1 = s.t1 := rfl
@[simp] theorem callSub_t2 (c w : Pos) : (callSub c w s).t2 = s.t2 := rfl
@[simp] theorem callSub_cardType (c w : Pos) : (callSub c w s).cardType = s.cardType := rfl
@[simp] theorem callSub_conf (c w : Pos) : (callSub c w s).conf = s.conf := rfl
@[simp] theorem callSub_mem (c w : Pos) : (callSub c w s).mem = s.mem := rfl
@[simp] theorem callSub_trace (c w : Pos) : (callSub c w s).trace = s.trace := rfl
@[simp] theorem callSub_rxq (c w : Pos) : (callSub c w s).rxq = s.rxq := rfl
@[simp] theorem callSub_events (c w : Pos) : (callSub c w s).events = s.events := rfl
@[simp] theorem callSub_drawn (c w : Pos) : (callSub c w s).drawn = s.drawn := rfl
@[simp] theorem callSub_host (c w : Pos) : (callSub c w s).host = s.host := rfl

/-! ### tick -/

@[simp] theorem tick_cfg : (tick s).cfg = s.cfg := rfl
@[simp] theorem tick_ops : (tick s).ops = s.ops := rfl
@[simp] theorem tick_res : (tick s).res = s.res := rfl
@[simp] theorem tick_resp : (tick s).resp = s.resp := rfl
@[simp] theorem tick_phase : (tick s).phase = s.phase := rfl
@[simp] theorem tick_sel : (tick s).sel = s.sel := rfl
@[simp] theorem tick_t1 : (tick s).t1 = countDown s.t1 := rfl
@[simp] theorem tick_t2 : (tick s).t2 = countDown s.t2 := rfl
@[simp] theorem tick_cardType : (tick s).cardType = s.cardType := rfl
@[simp] theorem tick_conf : (tick s).conf = s.conf := rfl
@[simp] theorem tick_mem : (tick s).mem = s.mem := rfl
@[simp] theorem tick_trace : (tick s).trace = s.trace := rfl
@[simp] theorem tick_rxq : (tick s).rxq = s.rxq := rfl
@[simp] theorem tick_events : (tick s).events = s.events := rfl
@[simp] theorem tick_drawn : (tick s).drawn = s.drawn := rfl
@[simp] theorem tick_host : (tick s).host = s.host := rfl

/-! ### refuse -/

@[simp] theorem refuse_cfg : (refuse s).cfg = s.cfg := rfl
@[simp] theorem refuse_ops : (refuse s).ops = s.ops := rfl
@[simp] theorem refuse_res : (refuse s).res = Config.codeRefused := rfl
@[simp] theorem refuse_resp : (refuse s).resp = s.resp := rfl
@[simp] theorem refuse_phase : (refuse s).phase = s.phase := rfl
@[simp] theorem refuse_sel : (refuse s).sel = s.sel := rfl
@[simp] theorem refuse_t1 : (refuse s).t1 = s.t1 := rfl
@[simp] theorem refuse_t2 : (refuse s).t2 = s.t2 := rfl
@[simp] theorem refuse_cardType : (refuse s).cardType = s.cardType := rfl
@[simp] theorem refuse_conf : (refuse s).conf = s.conf := rfl
@[simp] theorem refuse_mem : (refuse s).mem = s.mem := rfl
@[simp] theorem refuse_trace : (refuse s).trace = s.trace := rfl
@[simp] theorem refuse_rxq : (refuse s).rxq = s.rxq := rfl
@[simp] theorem refuse_events : (refuse s).events = s.events := rfl
@[simp] theorem refuse_drawn : (refuse s).drawn = s.drawn := rfl
@[simp] theorem refuse_host : (refuse s).host = s.host := rfl

/-! ### memWrite -/

@[simp] theorem memWrite_cfg (a : Nat) (v : Byte) : (memWrite s a v).cfg = s.cfg := rfl
@[simp] theorem memWrite_ops (a : Nat) (v : Byte) : (memWrite s a v).ops = s.ops := rfl
@[simp] theorem memWrite_res (a : Nat) (v : Byte) : (memWrite s a v).res = s.res := rfl
@[simp] theorem memWrite_resp (a : Nat) (v : Byte) : (memWrite s a v).resp = s.resp := rfl
@[simp] theorem memWrite_phase (a : Nat) (v : Byte) : (memWrite s a v).phase = s.phase := rfl
@[simp] theorem memWrite_sel (a : Nat) (v : Byte) : (memWrite s a v).sel = s.sel := rfl
@[simp] theorem memWrite_t1 (a : Nat) (v : Byte) : (memWrite s a v).t1 = s.t1 := rfl
@[simp] theorem memWrite_t2 (a : Nat) (v : Byte) : (memWrite s a v).t2 = s.t2 := rfl
@[simp] theorem memWrite_cardType (a : Nat) (v : Byte) : (memWrite s a v).cardType = s.cardType := rfl
@[simp] theorem memWrite_conf (a : Nat) (v : Byte) : (memWrite s a v).conf = s.conf := rfl
@[simp] theorem memWrite_mem (a : Nat) (v : Byte) : (memWrite s a v).mem = cellWrite s.mem (bufAddr s a) v := rfl
@[simp] theorem memWrite_trace (a : Nat) (v : Byte) : (memWrite s a v).trace = s.trace := rfl
@[simp] theorem memWrite_rxq (a : Nat) (v : Byte) : (memWrite s a v).rxq = s.rxq := rfl
@[simp] theorem memWrite_events (a : Nat) (v : Byte) : (memWrite s a v).events = s.events := rfl
@[simp] theorem memWrite_drawn (a : Nat) (v : Byte) : (memWrite s a v).drawn = s.drawn := rfl
@[simp] theorem memWrite_host (a : Nat) (v : Byte) : (memWrite s a v).host = s.host := rfl

/-! ### setHostPos -/

@[simp] theorem setHostPos_cfg (q : HostPos) : (setHostPos q s).cfg = s.cfg := rfl
@[simp] theorem setHostPos_ops (q : HostPos) : (setHostPos q s).ops = s.ops := rfl
@[simp] theorem setHostPos_res (q : HostPos) : (setHostPos q s).res = s.res := rfl
@[simp] theorem setHostPos_resp (q : HostPos) : (setHostPos q s).resp = s.resp := rfl
@[simp] theorem setHostPos_phase (q : HostPos) : (setHostPos q s).phase = s.phase := rfl
@[simp] theorem setHostPos_sel (q : HostPos) : (setHostPos q s).sel = s.sel := rfl
@[simp] theorem setHostPos_t1 (q : HostPos) : (setHostPos q s).t1 = s.t1 := rfl
@[simp] theorem setHostPos_t2 (q : HostPos) : (setHostPos q s).t2 = s.t2 := rfl
@[simp] theorem setHostPos_cardType (q : HostPos) : (setHostPos q s).cardType = s.cardType := rfl
@[simp] theorem setHostPos_conf (q : HostPos) : (setHostPos q s).conf = s.conf := rfl
@[simp] theorem setHostPos_mem (q : HostPos) : (setHostPos q s).mem = s.mem := rfl
@[simp] theorem setHostPos_trace (q : HostPos) : (setHostPos q s).trace = s.trace := rfl
@[simp] theorem setHostPos_rxq (q : HostPos) : (setHostPos q s).rxq = s.rxq := rfl
@[simp] theorem setHostPos_events (q : HostPos) : (setHostPos q s).events = s.events := rfl
@[simp] theorem setHostPos_drawn (q : HostPos) : (setHostPos q s).drawn = s.drawn := rfl
@[simp] theorem setHostPos_host (q : HostPos) : (setHostPos q s).host = { s.host with pos := q } := rfl

/-! ### setEraseBlock -/

@[simp] theorem setEraseBlock_cfg (v : BitVec 32) : (setEraseBlock v s).cfg = s.cfg := rfl
@[simp] theorem setEraseBlock_ops (v : BitVec 32) : (setEraseBlock v s).ops = s.ops := rfl
@[simp] theorem setEraseBlock_res (v : BitVec 32) : (setEraseBlock v s).res = s.res := rfl
@[simp] theorem setEraseBlock_resp (v : BitVec 32) : (setEraseBlock v s).resp = s.resp := rfl
@[simp] theorem setEraseBlock_phase (v : BitVec 32) : (setEraseBlock v s).phase = s.phase := rfl
@[simp] theorem setEraseBlock_sel (v : BitVec 32) : (setEraseBlock v s).sel = s.sel := rfl
@[simp] theorem setEraseBlock_t1 (v : BitVec 32) : (setEraseBlock v s).t1 = s.t1 := rfl
@[simp] theorem setEraseBlock_t2 (v : BitVec 32) : (setEraseBlock v s).t2 = s.t2 := rfl
@[simp] theorem setEraseBlock_cardType (v : BitVec 32) : (setEraseBlock v s).cardType = s.cardType := rfl
@[simp] theorem setEraseBlock_conf (v : BitVec 32) : (setEraseBlock v s).conf = { s.conf with eraseBlock := v } := rfl
@[simp] theorem setEraseBlock_mem (v : BitVec 32) : (setEraseBlock v s).mem = s.mem := rfl
@[simp] theorem setEraseBlock_trace (v : BitVec 32) : (setEraseBlock v s).trace = s.trace := rfl
@[simp] theorem setEraseBlock_rxq (v : BitVec 32) : (setEraseBlock v s).rxq = s.rxq := rfl
@[simp] theorem setEraseBlock_events (v : BitVec 32) : (setEraseBlock v s).events = s.events := rfl
@[simp] theorem setEraseBlock_drawn (v : BitVec 32) : (setEraseBlock v s).drawn = s.drawn := rfl
@[simp] theorem setEraseBlock_host (v : BitVec 32) : (setEraseBlock v s).host = s.host := rfl

/-! ### decodeSectorSize -/

@[simp] theorem decodeSectorSize_cfg : (decodeSectorSize s).cfg = s.cfg := rfl
@[simp] theorem decodeSectorSize_ops : (decodeSectorSize s).ops = s.ops := rfl
@[simp] theorem decodeSectorSize_res : (decodeSectorSize s).res = s.res := rfl
@[simp] theorem decodeSectorSize_resp : (decodeSectorSize s).resp = s.resp := rfl
@[simp] theorem decodeSectorSize_phase : (decodeSectorSize s).phase = s.phase := rfl
@[simp] theorem decodeSectorSize_sel : (decodeSectorSize s).sel = s.sel := rfl
@[simp] theorem decodeSectorSize_t1 : (decodeSectorSize s).t1 = s.t1 := rfl
@[simp] theorem decodeSectorSize_t2 : (decodeSectorSize s).t2 = s.t2 := rfl
@[simp] theorem decodeSectorSize_cardType : (decodeSectorSize s).cardType = s.cardType := rfl
@[simp] theorem decodeSectorSize_conf : (decodeSectorSize s).conf = { s.conf with sectorSize := BitVec.ofNat 16 s.cfg.sectorBytes } := rfl
@[simp] theorem decodeSectorSize_mem : (decodeSectorSize s).mem = s.mem := rfl
@[simp] theorem decodeSectorSize_trace : (decodeSectorSize s).trace = s.trace := rfl
@[simp] theorem decodeSectorSize_rxq : (decodeSectorSize s).rxq = s.rxq := rfl
@[simp] theorem decodeSectorSize_events : (decodeSectorSize s).events = s.events := rfl
@[simp] theorem decodeSectorSize_drawn : (decodeSectorSize s).drawn = s.drawn := rfl
@[simp] theorem decodeSectorSize_host : (decodeSectorSize s).host = s.host := rfl

/-! ### csAssert -/

@[simp] theorem csAssert_cfg : (csAssert s).cfg = s.cfg := by unfold csAssert; split <;> simp_all
@[simp] theorem csAssert_ops : (csAssert s).ops = s.ops := by unfold csAssert; split <;> simp_all
@[simp] theorem csAssert_res : (csAssert s).res = s.res := by unfold csAssert; split <;> simp_all
@[simp] theorem csAssert_resp : (csAssert s).resp = s.resp := by unfold csAssert; split <;> simp_all
@[simp] theorem csAssert_phase : (csAssert s).phase = s.phase := by unfold csAssert; split <;> simp_all
@[simp] theorem csAssert_sel : (csAssert s).sel = true := by unfold csAssert; split <;> simp_all
@[simp] theorem csAssert_t1 : (csAssert s).t1 = s.t1 := by unfold csAssert; split <;> simp_all
@[simp] theorem csAssert_t2 : (csAssert s).t2 = s.t2 := by unfold csAssert; split <;> simp_all
@[simp] theorem csAssert_cardType : (csAssert s).cardType = s.cardType := by unfold csAssert; split <;> simp_all
@[simp] theorem csAssert_conf : (csAssert s).conf = s.conf := by unfold csAssert; split <;> simp_all
@[simp] theorem csAssert_mem : (csAssert s).mem = s.mem := by unfold csAssert; split <;> simp_all
@[simp] theorem csAssert_trace : (csAssert s).trace = if s.sel then s.trace else .csOn :: s.trace := by unfold csAssert; split <;> simp_all
@[simp] theorem csAssert_rxq : (csAssert s).rxq = s.rxq := by unfold csAssert; split <;> simp_all
@[simp] theorem csAssert_events : (csAssert s).events = s.events := by unfold csAssert; split <;> simp_all
@[simp] theorem csAssert_drawn : (csAssert s).drawn = s.drawn := by unfold csAssert; split <;> simp_all
@[simp] theorem csAssert_host : (csAssert s).host = s.host := by unfold csAssert; split <;> simp_all

/-! ### csLevelOff -/

@[simp] theorem csLevelOff_cfg : (csLevelOff s).cfg = s.cfg := by unfold csLevelOff; split <;> simp_all
@[simp] theorem csLevelOff_ops : (csLevelOff s).ops = s.ops := by unfold csLevelOff; split <;> simp_all
@[simp] theorem csLevelOff_res : (csLevelOff s).res = s.res := by unfold csLevelOff; split <;> simp_all
@[simp] theorem csLevelOff_resp : (csLevelOff s).resp = s.resp := by unfold csLevelOff; split <;> simp_all
@[simp] theorem csLevelOff_phase : (csLevelOff s).phase = s.phase := by unfold csLevelOff; split <;> simp_all
@[simp] theorem csLevelOff_sel : (csLevelOff s).sel = false := by unfold csLevelOff; split <;> simp_all
@[simp] theorem csLevelOff_t1 : (csLevelOff s).t1 = s.t1 := by unfold csLevelOff; split <;> simp_all
@[simp] theorem csLevelOff_t2 : (csLevelOff s).t2 = s.t2 := by unfold csLevelOff; split <;> simp_all
@[simp] theorem csLevelOff_cardType : (csLevelOff s).cardType = s.cardType := by unfold csLevelOff; split <;> simp_all
@[simp] theorem csLevelOff_conf : (csLevelOff s).conf = s.conf := by unfold csLevelOff; split <;> simp_all
@[simp] theorem csLevelOff_mem : (csLevelOff s).mem = s.mem := by unfold csLevelOff; split <;> simp_all
@[simp] theorem csLevelOff_trace : (csLevelOff s).trace = if s.sel then .csOff :: s.trace else s.trace := by unfold csLevelOff; split <;> simp_all
@[simp] theorem csLevelOff_rxq : (csLevelOff s).rxq = s.rxq := by unfold csLevelOff; split <;> simp_all
@[simp] theorem csLevelOff_events : (csLevelOff s).events = s.events := by unfold csLevelOff; split <;> simp_all
@[simp] theorem csLevelOff_drawn : (csLevelOff s).drawn = s.drawn := by unfold csLevelOff; split <;> simp_all
@[simp] theorem csLevelOff_host : (csLevelOff s).host = s.host := by unfold csLevelOff; split <;> simp_all

/-! ### xchg -/

@[simp] theorem xchg_cfg (tx : Byte) : (xchg tx s).2.cfg = s.cfg := by unfold xchg; split <;> simp_all
@[simp] theorem xchg_ops (tx : Byte) : (xchg tx s).2.ops = s.ops := by unfold xchg; split <;> simp_all
@[simp] theorem xchg_res (tx : Byte) : (xchg tx s).2.res = s.res := by unfold xchg; split <;> simp_all
@[simp] theorem xchg_resp (tx : Byte) : (xchg tx s).2.resp = s.resp := by unfold xchg; split <;> simp_all
@[simp] theorem xchg_phase (tx : Byte) : (xchg tx s).2.phase = s.phase := by unfold xchg; split <;> simp_all
@[simp] theorem xchg_sel (tx : Byte) : (xchg tx s).2.sel = s.sel := by unfold xchg; split <;> simp_all
@[simp] theorem xchg_t1 (tx : Byte) : (xchg tx s).2.t1 = s.t1 := by unfold xchg; split <;> simp_all
@[simp] theorem xchg_t2 (tx : Byte) : (xchg tx s).2.t2 = s.t2 := by unfold xchg; split <;> simp_all
@[simp] theorem xchg_cardType (tx : Byte) : (xchg tx s).2.cardType = s.cardType := by unfold xchg; split <;> simp_all
@[simp] theorem xchg_conf (tx : Byte) : (xchg tx s).2.conf = s.conf := by unfold xchg; split <;> simp_all
@[simp] theorem xchg_mem (tx : Byte) : (xchg tx s).2.mem = s.mem := by unfold xchg; split <;> simp_all
@[simp] theorem xchg_trace (tx : Byte) : (xchg tx s).2.trace = .exchange tx (xchg tx s).1 :: s.trace := by unfold xchg; split <;> simp_all
@[simp] theorem xchg_rxq (tx : Byte) : (xchg tx s).2.rxq = s.rxq.tail := by unfold xchg; split <;> simp_all
@[simp] theorem xchg_events (tx : Byte) : (xchg tx s).2.events = s.events := by unfold xchg; split <;> simp_all
@[simp] theorem xchg_drawn (tx : Byte) : (xchg tx s).2.drawn = if s.rxq = [] then s.drawn + 1 else s.drawn := by unfold xchg; split <;> simp_all
@[simp] theorem xchg_host (tx : Byte) : (xchg tx s).2.host = s.host := by unfold xchg; split <;> simp_all

/-! ### xchgFill -/

@[simp] theorem xchgFill_cfg : (xchgFill s).2.cfg = s.cfg := by unfold xchgFill; simp
@[simp] theorem xchgFill_ops : (xchgFill s).2.ops = s.ops := by unfold xchgFill; simp
@[simp] theorem xchgFill_res : (xchgFill s).2.res = s.res := by unfold xchgFill; simp
@[simp] theorem xchgFill_resp : (xchgFill s).2.resp = s.resp := by unfold xchgFill; simp
@[simp] theorem xchgFill_phase : (xchgFill s).2.phase = s.phase := by unfold xchgFill; simp
@[simp] theorem xchgFill_sel : (xchgFill s).2.sel = s.sel := by unfold xchgFill; simp
@[simp] theorem xchgFill_t1 : (xchgFill s).2.t1 = s.t1 := by unfold xchgFill; simp
@[simp] theorem xchgFill_t2 : (xchgFill s).2.t2 = s.t2 := by unfold xchgFill; simp
@[simp] theorem xchgFill_cardType : (xchgFill s).2.cardType = s.cardType := by unfold xchgFill; simp
@[simp] theorem xchgFill_conf : (xchgFill s).2.conf = s.conf := by unfold xchgFill; simp
@[simp] theorem xchgFill_mem : (xchgFill s).2.mem = s.mem := by unfold xchgFill; simp
@[simp] theorem xchgFill_trace : (xchgFill s).2.trace = .exchange s.cfg.fill (xchgFill s).1 :: s.trace := by unfold xchgFill; simp
@[simp] theorem xchgFill_rxq : (xchgFill s).2.rxq = s.rxq.tail := by unfold xchgFill; simp
@[simp] theorem xchgFill_events : (xchgFill s).2.events = s.events := by unfold xchgFill; simp
@[simp] theorem xchgFill_drawn : (xchgFill s).2.drawn = if s.rxq = [] then s.drawn + 1 else s.drawn := by unfold xchgFill; simp
@[simp] theorem xchgFill_host : (xchgFill s).2.host = s.host := by unfold xchgFill; simp

/-! ### decodeSectorCount -/

@[simp] theorem decodeSectorCount_cfg : (decodeSectorCount s).cfg = s.cfg := by unfold decodeSectorCount; split_ifs <;> rfl
@[simp] theorem decodeSectorCount_ops : (decodeSectorCount s).ops = s.ops := by unfold decodeSectorCount; split_ifs <;> rfl
@[simp] theorem decodeSectorCount_res : (decodeSectorCount s).res = s.res := by unfold decodeSectorCount; split_ifs <;> rfl
@[simp] theorem decodeSectorCount_resp : (decodeSectorCount s).resp = s.resp := by unfold decodeSectorCount; split_ifs <;> rfl
@[simp] theorem decodeSectorCount_phase : (decodeSectorCount s).phase = s.phase := by unfold decodeSectorCount; split_ifs <;> rfl
@[simp] theorem decodeSectorCount_sel : (decodeSectorCount s).sel = s.sel := by unfold decodeSectorCount; split_ifs <;> rfl
@[simp] theorem decodeSectorCount_t1 : (decodeSectorCount s).t1 = s.t1 := by unfold decodeSectorCount; split_ifs <;> rfl
@[simp] theorem decodeSectorCount_t2 : (decodeSectorCount s).t2 = s.t2 := by unfold decodeSectorCount; split_ifs <;> rfl
@[simp] theorem decodeSectorCount_cardType : (decodeSectorCount s).cardType = s.cardType := by unfold decodeSectorCount; split_ifs <;> rfl
@[simp] theorem decodeSectorCount_mem : (decodeSectorCount s).mem = s.mem := by unfold decodeSectorCount; split_ifs <;> rfl
@[simp] theorem decodeSectorCount_trace : (decodeSectorCount s).trace = s.trace := by unfold decodeSectorCount; split_ifs <;> rfl
@[simp] theorem decodeSectorCount_rxq : (decodeSectorCount s).rxq = s.rxq := by unfold decodeSectorCount; split_ifs <;> rfl
@[simp] theorem decodeSectorCount_events : (decodeSectorCount s).events = s.events := by unfold decodeSectorCount; split_ifs <;> rfl
@[simp] theorem decodeSectorCount_host : (decodeSectorCount s).host = s.host := by unfold decodeSectorCount; split_ifs <;> rfl

/-! ### decodeEraseSdv1 -/

@[simp] theorem decodeEraseSdv1_cfg : (decodeEraseSdv1 s).cfg = s.cfg := by unfold decodeEraseSdv1; split_ifs <;> rfl
@[simp] theorem decodeEraseSdv1_ops : (decodeEraseSdv1 s).ops = s.ops := by unfold decodeEraseSdv1; split_ifs <;> rfl
@[simp] theorem decodeEraseSdv1_res : (decodeEraseSdv1 s).res = s.res := by unfold decodeEraseSdv1; split_ifs <;> rfl
@[simp] theorem decodeEraseSdv1_resp : (decodeEraseSdv1 s).resp = s.resp := by unfold decodeEraseSdv1; split_ifs <;> rfl
@[simp] theorem decodeEraseSdv1_phase : (decodeEraseSdv1 s).phase = s.phase := by unfold decodeEraseSdv1; split_ifs <;> rfl
@[simp] theorem decodeEraseSdv1_sel : (decodeEraseSdv1 s).sel = s.sel := by unfold decodeEraseSdv1; split_ifs <;> rfl
@[simp] theorem decodeEraseSdv1_t1 : (decodeEraseSdv1 s).t1 = s.t1 := by unfold decodeEraseSdv1; split_ifs <;> rfl
@[simp] theorem decodeEraseSdv1_t2 : (decodeEraseSdv1 s).t2 = s.t2 := by unfold decodeEraseSdv1; split_ifs <;> rfl
@[simp] theorem decodeEraseSdv1_cardType : (decodeEraseSdv1 s).cardType = s.cardType := by unfold decodeEraseSdv1; split_ifs <;> rfl
@[simp] theorem decodeEraseSdv1_mem : (decodeEraseSdv1 s).mem = s.mem := by unfold decodeEraseSdv1; split_ifs <;> rfl
@[simp] theorem decodeEraseSdv1_trace : (decodeEraseSdv1 s).trace = s.trace := by unfold decodeEraseSdv1; split_ifs <;> rfl
@[simp] theorem decodeEraseSdv1_rxq : (decodeEraseSdv1 s).rxq = s.rxq := by unfold decodeEraseSdv1; split_ifs <;> rfl
@[simp] theorem decodeEraseSdv1_events : (decodeEraseSdv1 s).events = s.events := by unfold decodeEraseSdv1; split_ifs <;> rfl
@[simp] theorem decodeEraseSdv1_host : (decodeEraseSdv1 s).host = s.host := by unfold decodeEraseSdv1; split_ifs <;> rfl

/-! ### copyOcr -/

@[simp] theorem copyOcr_cfg : (copyOcr s).cfg = s.cfg := rfl
@[simp] theorem copyOcr_ops : (copyOcr s).ops = s.ops := rfl
@[simp] theorem copyOcr_res : (copyOcr s).res = s.res := rfl
@[simp] theorem copyOcr_resp : (copyOcr s).resp = s.resp := rfl
@[simp] theorem copyOcr_phase : (copyOcr s).phase = s.phase := rfl
@[simp] theorem copyOcr_sel : (copyOcr s).sel = s.sel := rfl
@[simp] theorem copyOcr_t1 : (copyOcr s).t1 = s.t1 := rfl
@[simp] theorem copyOcr_t2 : (copyOcr s).t2 = s.t2 := rfl
@[simp] theorem copyOcr_cardType : (copyOcr s).cardType = s.cardType := rfl
@[simp] theorem copyOcr_mem : (copyOcr s).mem = s.mem := rfl
@[simp] theorem copyOcr_trace : (copyOcr s).trace = s.trace := rfl
@[simp] theorem copyOcr_rxq : (copyOcr s).rxq = s.rxq := rfl
@[simp] theorem copyOcr_events : (copyOcr s).events = s.events := rfl
@[simp] theorem copyOcr_drawn : (copyOcr s).drawn = s.drawn := rfl
@[simp] theorem copyOcr_host : (copyOcr s).host = s.host := rfl

/-! ### storeByte -/

@[simp] theorem storeByte_cfg (d : Dest) (k : Nat) (v : Byte) : (storeByte d k v s).cfg = s.cfg := by cases d <;> rfl
@[simp] theorem storeByte_ops (d : Dest) (k : Nat) (v : Byte) : (storeByte d k v s).ops = s.ops := by cases d <;> rfl
@[simp] theorem storeByte_res (d : Dest) (k : Nat) (v : Byte) : (storeByte d k v s).res = s.res := by cases d <;> rfl
@[simp] theorem storeByte_resp (d : Dest) (k : Nat) (v : Byte) : (storeByte d k v s).resp = s.resp := by cases d <;> rfl
@[simp] theorem storeByte_phase (d : Dest) (k : Nat) (v : Byte) : (storeByte d k v s).phase = s.phase := by cases d <;> rfl
@[simp] theorem storeByte_sel (d : Dest) (k : Nat) (v : Byte) : (storeByte d k v s).sel = s.sel := by cases d <;> rfl
@[simp] theorem storeByte_t1 (d : Dest) (k : Nat) (v : Byte) : (storeByte d k v s).t1 = s.t1 := by cases d <;> rfl
@[simp] theorem storeByte_t2 (d : Dest) (k : Nat) (v : Byte) : (storeByte d k v s).t2 = s.t2 := by cases d <;> rfl
@[simp] theorem storeByte_cardType (d : Dest) (k : Nat) (v : Byte) : (storeByte d k v s).cardType = s.cardType := by cases d <;> rfl
@[simp] theorem storeByte_trace (d : Dest) (k : Nat) (v : Byte) : (storeByte d k v s).trace = s.trace := by cases d <;> rfl
@[simp] theorem storeByte_rxq (d : Dest) (k : Nat) (v : Byte) : (storeByte d k v s).rxq = s.rxq := by cases d <;> rfl
@[simp] theorem storeByte_events (d : Dest) (k : Nat) (v : Byte) : (storeByte d k v s).events = s.events := by cases d <;> rfl
@[simp] theorem storeByte_drawn (d : Dest) (k : Nat) (v : Byte) : (storeByte d k v s).drawn = s.drawn := by cases d <;> rfl
@[simp] theorem storeByte_host (d : Dest) (k : Nat) (v : Byte) : (storeByte d k v s).host = s.host := by cases d <;> rfl

end Sys2Proof.Machine
end

