-- ==== Sys2Proof/Laws/Run.lean ====
section
/-! SUPPORT. Runs: composition, one step of the sequencer, and what each sub-procedure does wherever it is called from
(the records below it, `k`, are any). -/

namespace Sys2Proof.Laws

open Sys2Proof.Machine Sys2Proof.Safety

theorem stepOn_eq (e : Event) (s : State) : stepOn e s = runEvent e s := rfl

theorem runEvents_append (es fs : List Event) (s t : State) (h : runEvents es s = .next t) :
    runEvents (es ++ fs) s = runEvents fs t := by
  induction es generalizing s with
  | nil => simp only [runEvents, Host.Outcome.next.injEq] at h; subst h; rfl
  | cons e es ih =>
    simp only [List.cons_append, runEvents] at h ⊢
    split at h <;> simp_all

theorem reaches_refl (s : State) : Reaches s s := ⟨0, rfl⟩

theorem reaches_trans {s t u : State} (h : Reaches s t) (g : Reaches t u) : Reaches s u := by
  obtain ⟨n, hn⟩ := h
  obtain ⟨m, hm⟩ := g
  exact ⟨n + m, by rw [List.replicate_add, runEvents_append _ _ _ _ hn, hm]⟩

/-- One step of the sequencer, as a run of one event. -/
theorem runs_go {s t : State} {p : Pos} {k : List Pos} (hp : s.phase = p :: k) (h : seqAt p s = .next t) :
    runEvents [.go] s = .next t := by
  simp [runEvents, stepOn_eq, runEvent, busy, hp, seqStep, h]

/-- One step of the sequencer, then a run. -/
theorem reaches_step {s t u : State} {p : Pos} {k : List Pos} (hp : s.phase = p :: k)
    (h : seqAt p s = .next t) (g : Reaches t u) : Reaches s u := by
  exact reaches_trans ⟨1, runs_go hp h⟩ g

theorem xchg_cons {s : State} {rx : Byte} {q : List Byte} (tx : Byte) (h : s.rxq = rx :: q) :
    xchg tx s = (rx, { s with rxq := q, trace := .exchange tx rx :: s.trace }) := by
  simp [xchg, h]

theorem xchgFill_cons {s : State} {rx : Byte} {q : List Byte} (h : s.rxq = rx :: q) :
    xchgFill s = (rx, { s with rxq := q, trace := .exchange s.cfg.fill rx :: s.trace }) :=
  xchg_cons _ h

/-- A bound that fits a timer and is not zero: what a load of it leaves. -/
theorem tickBound_loaded {p : Params} {n : Nat} (h : tickBound p n = true) : timerValue p n = n ∧ n ≠ 0 := by
  simp only [tickBound, Bool.and_eq_true, decide_eq_true_eq] at h
  exact ⟨Nat.mod_eq_of_lt h.2, by omega⟩

/-- What each timer load of the block leaves, and that there are response polls. -/
theorem bounds_loaded {p : Params} (h : boundsOk p = true) :
    (timerValue p p.waitReadyTicks = p.waitReadyTicks ∧ p.waitReadyTicks ≠ 0) ∧
      (timerValue p p.recvTokenTicks = p.recvTokenTicks ∧ p.recvTokenTicks ≠ 0) ∧
      (timerValue p p.sendBusyTicks = p.sendBusyTicks ∧ p.sendBusyTicks ≠ 0) ∧ p.r1Polls ≠ 0 ∧
      (BitVec.ofNat 16 p.r1Polls).toNat = p.r1Polls := by
  simp only [boundsOk, Bool.and_eq_true, decide_eq_true_eq] at h
  exact ⟨tickBound_loaded h.1.1.1.1, tickBound_loaded h.1.1.1.2, tickBound_loaded h.1.1.2, by omega,
    Nat.mod_eq_of_lt h.2⟩

/-- The polls of WAITRDY that read busy, and the one that reads ready. -/
theorem waitrdy_polls (bb rest : List Byte) (k : List Pos) (s : State) (hp : s.phase = .wrXchg :: k)
    (hr : s.rxq = bb ++ 0xFF#8 :: rest) (hb : ∀ b ∈ bb, b ≠ 0xFF#8) (ht : s.t2 ≠ 0) :
    Reaches s { s with
      phase := .ret .waitrdy Config.ok :: k, rxq := rest
      trace := exchanged s.cfg.fill (bb ++ [0xFF#8]) s.trace } := by
  induction bb generalizing s with
  | nil =>
    simp only [List.nil_append] at hr
    refine reaches_step hp (by simp only [seqAt, xchgKeep, xchgFill_cons hr, goTo, hp, List.tail_cons]; rfl) ?_
    refine reaches_step (p := .wrTest 0xFF#8) rfl rfl ?_
    exact reaches_refl _
  | cons b bb ih =>
    simp only [List.cons_append] at hr
    refine reaches_step hp (by simp only [seqAt, xchgKeep, xchgFill_cons hr, goTo, hp, List.tail_cons]; rfl) ?_
    have hb0 : b ≠ 0xFF#8 := hb b (by simp)
    refine reaches_step (p := .wrTest b) (k := k) rfl
      (t := { s with phase := .wrXchg :: k, rxq := bb ++ 0xFF#8 :: rest, trace := .exchange s.cfg.fill b :: s.trace })
      ?_ ?_
    · simp [seqAt, lookFor, decode, Decode.atWire, Config.readyByte, hb0, pollAgain, expired, goTo]
      exact ht
    · have := ih { s with phase := .wrXchg :: k, rxq := bb ++ 0xFF#8 :: rest,
                          trace := .exchange s.cfg.fill b :: s.trace } rfl rfl
        (fun x hx => hb x (by simp [hx])) ht
      simpa [exchanged] using this

/-- WAITRDY, the card becoming ready after the busy bytes `bb`, no tick falling (R151). -/
theorem waitrdy_ready (bb rest : List Byte) (k : List Pos) (s : State) (hp : s.phase = .wrLoad :: k)
    (hr : s.rxq = bb ++ 0xFF#8 :: rest) (hb : ∀ b ∈ bb, b ≠ 0xFF#8) (ht : boundsOk s.cfg = true) :
    Reaches s { s with
      phase := .ret .waitrdy Config.ok :: k, t2 := s.cfg.waitReadyTicks, rxq := rest
      trace := exchanged s.cfg.fill (bb ++ [0xFF#8]) s.trace } := by
  refine reaches_step hp
    (t := { s with phase := .wrXchg :: k, t2 := s.cfg.waitReadyTicks })
    (by simp [seqAt, goTo, hp, (bounds_loaded ht).1.1]) ?_
  exact waitrdy_polls bb rest k _ rfl hr hb (bounds_loaded ht).1.2

/-- The bytes of a frame go out one by one, the received bytes dropped (R174). -/
theorem frame_sent (fs rs rest : List Byte) (rlen : Byte) (k : List Pos) (s : State)
    (hp : s.phase = .scFrame rlen fs :: k) (hr : s.rxq = rs ++ rest) (hl : fs.length = rs.length) :
    Reaches s { s with
      phase := .scPoll rlen (BitVec.ofNat 16 s.cfg.r1Polls) :: k, rxq := rest, trace := sent fs rs s.trace } := by
  induction fs generalizing s rs with
  | nil =>
    obtain rfl : rs = [] := by simpa using hl.symm
    refine reaches_step hp (t := { s with phase := .scPoll rlen (BitVec.ofNat 16 s.cfg.r1Polls) :: k })
      (by simp [seqAt, sendFrame, goTo, hp]) ?_
    simp only [List.nil_append] at hr
    simpa [sent, ← hr] using reaches_refl _
  | cons f fs ih =>
    obtain _ | ⟨r, rs⟩ := rs
    · simp at hl
    simp only [List.cons_append] at hr
    refine reaches_step hp
      (t := { s with phase := .scFrame rlen fs :: k, rxq := rs ++ rest, trace := .exchange f r :: s.trace })
      (by simp [seqAt, sendFrame, goTo, hp, xchg_cons f hr]) ?_
    have := ih rs { s with phase := .scFrame rlen fs :: k, rxq := rs ++ rest, trace := .exchange f r :: s.trace }
      rfl rfl (by simpa using hl)
    simpa [sent] using this

/-- The extra response bytes are stored in RESP in order of reception (R183). -/
theorem extra_received (done ex rest : List Byte) (rlen r : Byte) (k : List Pos) (s : State) (old : List Byte)
    (hp : s.phase = .scExtra rlen done.length r :: k) (hr : s.rxq = ex ++ rest)
    (hl : done.length + ex.length = rlen.toNat) (hs : s.resp = done ++ old) (ho : ex.length ≤ old.length) :
    Reaches s { s with
      phase := .ret .sendcmd r :: k, rxq := rest, resp := done ++ ex ++ old.drop ex.length
      trace := exchanged s.cfg.fill ex s.trace } := by
  induction ex generalizing s done old with
  | nil =>
    refine reaches_step hp (t := { s with phase := .ret .sendcmd r :: k })
      (by simp at hl; simp [seqAt, extraByte, goTo, hp, hl]) ?_
    simp only [List.nil_append] at hr
    simpa [exchanged, ← hr, ← hs] using reaches_refl _
  | cons e ex ih =>
    obtain _ | ⟨o, old⟩ := old
    · simp at ho
    simp only [List.cons_append] at hr
    simp only [List.length_cons] at hl ho
    refine reaches_step hp
      (t := { s with
        phase := .scExtra rlen (done ++ [e]).length r :: k, rxq := ex ++ rest
        resp := (done ++ [e]) ++ old, trace := .exchange s.cfg.fill e :: s.trace })
      (by
        have : done.length < rlen.toNat := by omega
        simp [seqAt, extraByte, goTo, hp, xchgFill_cons hr, this, hs]) ?_
    have := ih (done ++ [e])
      { s with
        phase := .scExtra rlen (done ++ [e]).length r :: k, rxq := ex ++ rest
        resp := (done ++ [e]) ++ old, trace := .exchange s.cfg.fill e :: s.trace } old rfl rfl
      (by simp; omega) rfl (by omega)
    simpa [exchanged] using this

end Sys2Proof.Laws
end

