-- ==== Sys2Proof/Laws/Command.lean ====
section
/-! SUPPORT. What SENDCMD and SENDACMD do wherever they are called from, no tick falling: one lemma per way they end. -/

namespace Sys2Proof.Laws

open Sys2Proof.Machine Sys2Proof.Safety

/-- A procedure's return to the record that waits for it. -/
theorem returned {p : Proc} {v : Byte} {w q : Pos} {k : List Pos} {s : State} (hp : s.phase = .ret p v :: w :: k)
    (hw : resume v w = some q) : Reaches s { s with phase := q :: k } :=
  reaches_step hp (by simp [seqAt, returnValue, hp, hw]) (reaches_refl _)

/-- The return of the outermost record completes the operation. -/
theorem completed {p : Proc} {v : Byte} {s : State} (hp : s.phase = [.ret p v]) :
    Reaches s { s with phase := [], res := v } :=
  reaches_step hp (by simp [seqAt, returnValue, hp]) (reaches_refl _)

/-- CS(release) with chip-select asserted (R142). -/
theorem released {p : Proc} {v rx : Byte} {rest : List Byte} {k : List Pos} {s : State}
    (hp : s.phase = .csOff p v :: k) (hr : s.rxq = rx :: rest) (hs : s.sel = true) :
    Reaches s { s with
      phase := .ret p v :: k, sel := false, rxq := rest
      trace := .exchange s.cfg.fill rx :: .csOff :: s.trace } := by
  refine reaches_step hp
    (t := { s with phase := .csDummy p v :: k, sel := false, trace := .csOff :: s.trace })
    (by simp [seqAt, csLevelOff, hs, goTo, hp]) ?_
  refine reaches_step (p := .csDummy p v) (k := k) rfl
    (t := { s with
      phase := .ret p v :: k, sel := false, rxq := rest
      trace := .exchange s.cfg.fill rx :: .csOff :: s.trace }) ?_ (reaches_refl _)
  simp [seqAt, xchgDrop, xchgFill, xchg, hr, goTo]

theorem csAssert_eq (s : State) : csAssert s = { s with sel := true, trace := selected s } := by
  cases s
  simp only [csAssert, selected]
  split <;> simp_all

/-- The counter of polls goes down by one while it is not zero (R41). -/
theorem counted_down {i : BitVec 16} (h : 0 < i.toNat) : (i - 1).toNat = i.toNat - 1 := by
  rw [BitVec.toNat_sub_of_le (by rw [BitVec.le_def]; exact h)]; rfl

theorem valid_r1 : ∀ r : Byte, r.getLsbD 7 = false → (0#1 ++ r.extractLsb' 0 7 : BitVec 8) = r := by decide

/-- The response poll ends at the first byte with bit 7 clear (R175, R180). -/
theorem poll_answered (noise rest : List Byte) (r rlen : Byte) (i : BitVec 16) (k : List Pos) (s : State)
    (hp : s.phase = .scPoll rlen i :: k) (hr : s.rxq = noise ++ r :: rest) (hn : ∀ b ∈ noise, b.getLsbD 7 = true)
    (hv : r.getLsbD 7 = false) (hl : noise.length < i.toNat) :
    Reaches s { s with
      phase := .scExtra rlen 0 r :: k, rxq := rest, trace := exchanged s.cfg.fill (noise ++ [r]) s.trace } := by
  induction noise generalizing s i with
  | nil =>
    simp only [List.nil_append] at hr
    refine reaches_step hp (by simp only [seqAt, xchgKeep, xchgFill_cons hr, goTo, hp, List.tail_cons]; rfl) ?_
    refine reaches_step (p := .scPollTest rlen (i - 1) r) (k := k) rfl
      (t := { s with phase := .scExtra rlen 0 r :: k, rxq := rest, trace := exchanged s.cfg.fill [r] s.trace })
      ?_ (reaches_refl _)
    have hv' : r[7] = false := by simpa using hv
    simp [seqAt, lookFor, decode, Decode.atWire, hv', exec, execR1Valid, exchanged, valid_r1 r hv]
  | cons b noise ih =>
    simp only [List.cons_append] at hr
    simp only [List.length_cons] at hl
    refine reaches_step hp (by simp only [seqAt, xchgKeep, xchgFill_cons hr, goTo, hp, List.tail_cons]; rfl) ?_
    have hb : b.getLsbD 7 = true := hn b (by simp)
    have hi : (i - 1).toNat = i.toNat - 1 := counted_down (by omega)
    have hi' : ¬ (i - 1#16 = 0#16) := fun h => by
      have hz : (i - 1#16).toNat = 0 := by rw [h]; rfl
      exact absurd (hi.symm.trans hz) (by omega)
    refine reaches_step (p := .scPollTest rlen (i - 1) b) (k := k) rfl
      (t := { s with
        phase := .scPoll rlen (i - 1) :: k, rxq := noise ++ r :: rest
        trace := .exchange s.cfg.fill b :: s.trace })
      (by simp [seqAt, lookFor, decode, Decode.atWire, hb, pollResponse, hi', goTo]) ?_
    have := ih (i - 1)
      { s with
        phase := .scPoll rlen (i - 1) :: k, rxq := noise ++ r :: rest
        trace := .exchange s.cfg.fill b :: s.trace } rfl rfl (fun x hx => hn x (by simp [hx])) (by omega)
    simpa [exchanged] using this

/-- No byte with bit 7 clear within the polls: 0x82 (R180). -/
theorem poll_timeout (noise rest : List Byte) (rlen : Byte) (i : BitVec 16) (k : List Pos) (s : State)
    (hp : s.phase = .scPoll rlen i :: k) (hi : i.toNat = noise.length) (hr : s.rxq = noise ++ rest)
    (hn : ∀ b ∈ noise, b.getLsbD 7 = true) (hl : noise ≠ []) :
    Reaches s { s with
      phase := .ret .sendcmd s.cfg.codeRespTimeout :: k, rxq := rest, trace := exchanged s.cfg.fill noise s.trace } := by
  induction noise generalizing s i with
  | nil => exact absurd rfl hl
  | cons b noise ih =>
    simp only [List.cons_append] at hr
    refine reaches_step hp (by simp only [seqAt, xchgKeep, xchgFill_cons hr, goTo, hp, List.tail_cons]; rfl) ?_
    have hb : b.getLsbD 7 = true := hn b (by simp)
    have hd : (i - 1).toNat = noise.length := by
      rw [counted_down (by rw [hi]; simp), hi]; rfl
    obtain rfl | hne := eq_or_ne noise []
    · have hz : i - 1#16 = 0#16 := BitVec.eq_of_toNat_eq hd
      refine reaches_step (p := .scPollTest rlen (i - 1) b) (k := k) rfl
        (t := { s with
          phase := .ret .sendcmd s.cfg.codeRespTimeout :: k, rxq := rest, trace := exchanged s.cfg.fill [b] s.trace })
        ?_ (reaches_refl _)
      simp [seqAt, lookFor, decode, Decode.atWire, hb, pollResponse, hz, exec, execCodeRespTimeout, exchanged]
    · have hz : ¬ (i - 1#16 = 0#16) := fun h => hne (List.length_eq_zero_iff.mp (hd.symm.trans (congrArg BitVec.toNat h)))
      refine reaches_step (p := .scPollTest rlen (i - 1) b) (k := k) rfl
        (t := { s with
          phase := .scPoll rlen (i - 1) :: k, rxq := noise ++ rest
          trace := .exchange s.cfg.fill b :: s.trace })
        (by simp [seqAt, lookFor, decode, Decode.atWire, hb, pollResponse, hz, goTo]) ?_
      have := ih (i - 1)
        { s with
          phase := .scPoll rlen (i - 1) :: k, rxq := noise ++ rest
          trace := .exchange s.cfg.fill b :: s.trace } rfl hd rfl (fun x hx => hn x (by simp [hx])) hne
      simpa [exchanged] using this

theorem buildFrame_length (p : Params) (idx : BitVec 6) (arg : BitVec 32) : (buildFrame p idx arg).length = 6 := rfl

/-- SENDCMD up to its response poll: chip-select, readiness, the frame (R172 to R174). -/
theorem sendcmd_framed (busy dropped rest : List Byte) (idx : BitVec 6) (arg : BitVec 32) (rlen : Byte) (k : List Pos)
    (s : State) (hp : s.phase = .scSelect idx arg rlen :: k) (hr : s.rxq = busy ++ 0xFF#8 :: (dropped ++ rest))
    (hb : ∀ b ∈ busy, b ≠ 0xFF#8) (hd : dropped.length = 6) (ht : boundsOk s.cfg = true) :
    Reaches s { s with
      phase := .scPoll rlen (BitVec.ofNat 16 s.cfg.r1Polls) :: k, sel := true, t2 := s.cfg.waitReadyTicks, rxq := rest
      trace := sent (buildFrame s.cfg idx arg) dropped (exchanged s.cfg.fill (busy ++ [0xFF#8]) (selected s)) } := by
  refine reaches_step hp
    (t := { s with phase := .wrLoad :: .scWaitRdy idx arg rlen :: k, sel := true, trace := selected s })
    (by simp [seqAt, callSub, csAssert_eq, hp]) ?_
  refine reaches_trans
    (waitrdy_ready busy (dropped ++ rest) _
      { s with phase := .wrLoad :: .scWaitRdy idx arg rlen :: k, sel := true, trace := selected s } rfl hr hb ht) ?_
  refine reaches_trans (returned rfl rfl) ?_
  refine reaches_step (p := .scReady idx arg rlen Config.ok) (k := k) rfl
    (t := { s with
      phase := .scFrame rlen (buildFrame s.cfg idx arg) :: k, sel := true, t2 := s.cfg.waitReadyTicks
      rxq := dropped ++ rest, trace := exchanged s.cfg.fill (busy ++ [0xFF#8]) (selected s) })
    (by simp [seqAt, goTo, Config.ok, Config.fail]) ?_
  exact frame_sent (buildFrame s.cfg idx arg) dropped rest rlen k _ rfl rfl (by rw [hd]; rfl)

theorem answer_fits {c : Answer} {rlen : Byte} (h : c.fits p rlen = true) :
    (∀ b ∈ c.busy, b ≠ 0xFF#8) ∧ c.dropped.length = 6 ∧ c.noise.length < p.r1Polls ∧ (∀ b ∈ c.noise, b.getLsbD 7 = true) ∧
      c.r1.getLsbD 7 = false ∧ c.extra.length = rlen.toNat := by
  simpa [Answer.fits, and_assoc] using h

/-- SENDCMD, the card answering within the eight polls (R176). -/
theorem sendcmd_answered (c : Answer) (rest : List Byte) (idx : BitVec 6) (arg : BitVec 32) (rlen : Byte) (k : List Pos)
    (s : State) (hp : s.phase = .scSelect idx arg rlen :: k) (hr : s.rxq = c.bytes ++ rest) (hc : c.fits s.cfg rlen = true)
    (ht : boundsOk s.cfg = true) (hl : rlen.toNat ≤ s.resp.length) :
    Reaches s { s with
      phase := .ret .sendcmd c.r1 :: k, sel := true, t2 := s.cfg.waitReadyTicks
      resp := c.extra ++ s.resp.drop rlen.toNat, rxq := rest, trace := c.trace s.cfg idx arg (selected s) } := by
  obtain ⟨hb, hd, hn, hs, hv, he⟩ := answer_fits hc
  have hr' : s.rxq = c.busy ++ 0xFF#8 :: (c.dropped ++ (c.noise ++ c.r1 :: (c.extra ++ rest))) := by
    simpa [Answer.bytes] using hr
  refine reaches_trans (sendcmd_framed c.busy c.dropped _ idx arg rlen k s hp hr' hb hd ht) ?_
  refine reaches_trans (poll_answered c.noise (c.extra ++ rest) c.r1 rlen _ k _ rfl rfl hs hv
    (by rw [(bounds_loaded ht).2.2.2.2]; exact hn)) ?_
  refine reaches_trans
    (extra_received [] c.extra rest rlen c.r1 k _ s.resp rfl rfl (by simpa using he) rfl (by omega)) ?_
  have : exchanged s.cfg.fill c.extra (exchanged s.cfg.fill (c.noise ++ [c.r1])
      (sent (buildFrame s.cfg idx arg) c.dropped (exchanged s.cfg.fill (c.busy ++ [0xFF#8]) (selected s)))) =
      c.trace s.cfg idx arg (selected s) := by
    simp [Answer.trace, exchanged]
  simpa [this, he] using reaches_refl _

/-- SENDCMD, eight polled bytes with bit 7 set: 0x82, and RESP keeps its bytes (R180, R182). -/
theorem sendcmd_unanswered (busy dropped noise rest : List Byte) (idx : BitVec 6) (arg : BitVec 32) (rlen : Byte)
    (k : List Pos) (s : State) (hp : s.phase = .scSelect idx arg rlen :: k)
    (hr : s.rxq = busy ++ 0xFF#8 :: (dropped ++ (noise ++ rest))) (hb : ∀ b ∈ busy, b ≠ 0xFF#8)
    (hd : dropped.length = 6) (hn : noise.length = s.cfg.r1Polls) (hs : ∀ b ∈ noise, b.getLsbD 7 = true)
    (ht : boundsOk s.cfg = true) :
    Reaches s { s with
      phase := .ret .sendcmd s.cfg.codeRespTimeout :: k, sel := true, t2 := s.cfg.waitReadyTicks, rxq := rest
      trace := exchanged s.cfg.fill noise (sent (buildFrame s.cfg idx arg) dropped
        (exchanged s.cfg.fill (busy ++ [0xFF#8]) (selected s))) } := by
  refine reaches_trans (sendcmd_framed busy dropped (noise ++ rest) idx arg rlen k s hp hr hb hd ht) ?_
  exact poll_timeout noise rest rlen (BitVec.ofNat 16 s.cfg.r1Polls) k
    { s with
      phase := .scPoll rlen (BitVec.ofNat 16 s.cfg.r1Polls) :: k, sel := true, t2 := s.cfg.waitReadyTicks, rxq := noise ++ rest
      trace := sent (buildFrame s.cfg idx arg) dropped (exchanged s.cfg.fill (busy ++ [0xFF#8]) (selected s)) }
    rfl (by rw [(bounds_loaded ht).2.2.2.2, hn]) rfl hs (by rintro rfl; exact (bounds_loaded ht).2.2.2.1 hn.symm)

/-- SENDACMD whose prefix is answered 0x00 or 0x01 and whose command is answered (R201, R202 a). -/
theorem sendacmd_answered (c d : Answer) (rest : List Byte) (idx : BitVec 6) (arg : BitVec 32) (rlen : Byte)
    (k : List Pos) (s : State) (hp : s.phase = .saStart idx arg rlen :: k) (hr : s.rxq = c.bytes ++ (d.bytes ++ rest))
    (hc : c.fits s.cfg 0 = true) (hd : d.fits s.cfg rlen = true) (hv : c.r1 = 0x00#8 ∨ c.r1 = 0x01#8)
    (ht : boundsOk s.cfg = true) (hl : rlen.toNat ≤ s.resp.length) :
    Reaches s { s with
      phase := .ret .sendacmd d.r1 :: k, sel := true, t2 := s.cfg.waitReadyTicks
      resp := d.extra ++ s.resp.drop rlen.toNat, rxq := rest
      trace := d.trace s.cfg idx arg (c.trace s.cfg s.cfg.idxAppCmd 0 (selected s)) } := by
  refine reaches_step hp
    (t := { s with phase := .scSelect s.cfg.idxAppCmd 0 0 :: .saWaitPrefix idx arg rlen :: k })
    (by simp [seqAt, callSub, hp]) ?_
  refine reaches_trans (sendcmd_answered c (d.bytes ++ rest) _ _ _ _ _ rfl hr hc ht (by simp)) ?_
  refine reaches_trans (returned rfl rfl) ?_
  have he : c.extra = [] := by simpa using (answer_fits hc).2.2.2.2.2
  have ha : aboveIdle c.r1 = false := by obtain h | h := hv <;> simp [aboveIdle, h]
  refine reaches_step (p := .saPrefix idx arg rlen c.r1) (k := k) rfl
    (t := { s with
      phase := .scSelect idx arg rlen :: .saWaitCmd :: k, sel := true, t2 := s.cfg.waitReadyTicks
      rxq := d.bytes ++ rest, trace := c.trace s.cfg s.cfg.idxAppCmd 0 (selected s) })
    (by simp [seqAt, ha, callSub, he, selected]) ?_
  refine reaches_trans (sendcmd_answered d rest _ _ _ _ _ rfl rfl hd ht hl) ?_
  refine reaches_trans (returned rfl rfl) ?_
  simpa [selected] using reaches_refl _

/-- SENDACMD whose prefix is answered with more than 0x01: that is the result, the command is not sent (R202 b). -/
theorem sendacmd_rejected (c : Answer) (rest : List Byte) (idx : BitVec 6) (arg : BitVec 32) (rlen : Byte)
    (k : List Pos) (s : State) (hp : s.phase = .saStart idx arg rlen :: k) (hr : s.rxq = c.bytes ++ rest)
    (hc : c.fits s.cfg 0 = true) (hv : 1 < c.r1.toNat) (ht : boundsOk s.cfg = true) :
    Reaches s { s with
      phase := .ret .sendacmd c.r1 :: k, sel := true, t2 := s.cfg.waitReadyTicks, rxq := rest
      trace := c.trace s.cfg s.cfg.idxAppCmd 0 (selected s) } := by
  refine reaches_step hp
    (t := { s with phase := .scSelect s.cfg.idxAppCmd 0 0 :: .saWaitPrefix idx arg rlen :: k })
    (by simp [seqAt, callSub, hp]) ?_
  refine reaches_trans (sendcmd_answered c rest _ _ _ _ _ rfl hr hc ht (by simp)) ?_
  refine reaches_trans (returned rfl rfl) ?_
  have he : c.extra = [] := by simpa using (answer_fits hc).2.2.2.2.2
  have ha : aboveIdle c.r1 = true := by simpa [aboveIdle, BitVec.lt_def] using hv
  refine reaches_step (p := .saPrefix idx arg rlen c.r1) (k := k) rfl
    (t := { s with
      phase := .ret .sendacmd c.r1 :: k, sel := true, t2 := s.cfg.waitReadyTicks, rxq := rest
      trace := c.trace s.cfg s.cfg.idxAppCmd 0 (selected s) })
    (by simp [seqAt, ha, goTo, he, selected]) (reaches_refl _)

end Sys2Proof.Laws
end

