-- ==== Sys2Proof/Laws/Memory.lean ====
section
/-! SUPPORT. The data buffer: a read after a write, every write keeps the canonical form, and what a stored payload
leaves in the buffer. -/

namespace Sys2Proof.Laws

open Sys2Proof.Machine Sys2Proof.Safety

/-- No listed address is `a` or below it. -/
def Above (a : Nat) (m : List Host.Cell) : Prop := ∀ c ∈ m, a < c.1

theorem wf_cons {a : Nat} {v : Byte} {m : List Host.Cell} :
    Memory.wf ((a, v) :: m) = true ↔ v ≠ unwritten ∧ Above a m ∧ Memory.wf m = true := by
  induction m generalizing a v with
  | nil => simp [Memory.wf, Above]
  | cons c m ih =>
    obtain ⟨b, w⟩ := c
    have ih' := @ih b w
    simp only [Memory.wf, Bool.and_eq_true, bne_iff_ne, decide_eq_true_eq] at ih' ⊢
    rw [ih']
    simp only [Above, List.mem_cons, forall_eq_or_imp]
    constructor
    · rintro ⟨⟨h1, h2⟩, h3, h4, h5⟩
      exact ⟨h1, ⟨h2, fun c hc => lt_trans h2 (h4 c hc)⟩, h3, h4, h5⟩
    · rintro ⟨h1, ⟨h2, -⟩, h3, h4, h5⟩
      exact ⟨⟨h1, h2⟩, h3, h4, h5⟩

theorem above_write {a b : Nat} {v : Byte} {m : List Host.Cell} (h : Above a m) (hb : a < b) :
    Above a (cellWrite m b v) := by
  induction m with
  | nil =>
    simp only [cellWrite]
    split <;> simp [Above, hb]
  | cons c m ih =>
    obtain ⟨d, w⟩ := c
    simp only [Above, List.mem_cons, forall_eq_or_imp] at h
    have ih' := ih h.2
    simp only [cellWrite]
    split
    · split <;> simp only [Above, List.mem_cons, forall_eq_or_imp]
      · exact h
      · exact ⟨hb, h⟩
    · split
      · split
        · exact h.2
        · simp only [Above, List.mem_cons, forall_eq_or_imp]; exact ⟨hb, h.2⟩
      · simp only [Above, List.mem_cons, forall_eq_or_imp]; exact ⟨h.1, ih'⟩

/-- A write keeps the canonical form. -/
theorem wf_write (m : List Host.Cell) (a : Nat) (v : Byte) (h : Memory.wf m = true) :
    Memory.wf (cellWrite m a v) = true := by
  induction m with
  | nil =>
    simp only [cellWrite]
    split
    · rfl
    · simpa [Memory.wf] using ‹¬ _›
  | cons c m ih =>
    obtain ⟨b, w⟩ := c
    obtain ⟨hw, hm, hr⟩ := wf_cons.1 h
    simp only [cellWrite]
    split
    · split
      · exact h
      · rename_i hab hv
        refine wf_cons.2 ⟨hv, ?_, h⟩
        simp only [Above, List.mem_cons, forall_eq_or_imp]
        exact ⟨hab, fun c hc => lt_trans hab (hm c hc)⟩
    · split
      · split
        · exact hr
        · rename_i hab hv
          exact wf_cons.2 ⟨hv, hab ▸ hm, hr⟩
      · exact wf_cons.2 ⟨hw, above_write hm (by omega), ih hr⟩

theorem read_above {a : Nat} {m : List Host.Cell} (h : Above a m) : cellRead m a = unwritten := by
  induction m with
  | nil => rfl
  | cons c m ih =>
    obtain ⟨b, w⟩ := c
    simp only [Above, List.mem_cons, forall_eq_or_imp] at h
    have : a ≠ b := by omega
    simpa [cellRead, this] using ih h.2

/-- A read after a write, in canonical memory. -/
theorem read_write (m : List Host.Cell) (a b : Nat) (v : Byte) (h : Memory.wf m = true) :
    cellRead (cellWrite m a v) b = if b = a then v else cellRead m b := by
  induction m with
  | nil =>
    simp only [cellWrite]
    split
    · simp_all [cellRead]
    · simp [cellRead]
  | cons c m ih =>
    obtain ⟨d, w⟩ := c
    obtain ⟨hw, hm, hr⟩ := wf_cons.1 h
    simp only [cellWrite]
    split
    · rename_i had
      split
      · rename_i hv
        split
        · rename_i hba
          have h1 : a ≠ d := by omega
          have h2 : Above a m := fun c hc => lt_trans had (hm c hc)
          simp [cellRead, hba, h1, read_above h2, hv]
        · rfl
      · simp [cellRead]
    · split
      · rename_i had hd
        subst hd
        split
        · rename_i hv
          split
          · rename_i hba
            rw [hba, read_above hm, hv]
          · rename_i hba
            simp [cellRead, hba]
        · by_cases hba : b = a <;> simp [cellRead, hba]
      · rename_i had hd
        simp only [cellRead, ih hr]
        split
        · rename_i hbd
          have : b ≠ a := by omega
          simp [this]
        · rfl

theorem memRead_memWrite (s : State) (a b : Nat) (v : Byte) (h : Memory.wf s.mem = true) :
    memRead (memWrite s a v) b = if bufAddr s b = bufAddr s a then v else memRead s b :=
  read_write s.mem (bufAddr s a) (bufAddr s b) v h

theorem wf_memWrite (s : State) (a : Nat) (v : Byte) (h : Memory.wf s.mem = true) :
    Memory.wf (memWrite s a v).mem = true :=
  wf_write _ _ _ h

theorem wf_storeByte (d : Dest) (k : Nat) (v : Byte) (s : State) (h : Memory.wf s.mem = true) :
    Memory.wf (storeByte d k v s).mem = true := by
  cases d
  · exact wf_memWrite s _ v h
  all_goals exact h

theorem wf_storePayload (d : Dest) (k : Nat) (bs : List Byte) (s : State) (h : Memory.wf s.mem = true) :
    Memory.wf (storePayload d k bs s).mem = true := by
  induction bs generalizing k s with
  | nil => exact h
  | cons b bs ih => exact ih (k + 1) _ (wf_storeByte d k b s h)

/-- Storing bytes one after another is storing a payload in the buffer. -/
theorem memWriteList_eq (a k : Nat) (bs : List Byte) (s : State) :
    memWriteList (a + k) bs s = storePayload (.buffer a) k bs s := by
  induction bs generalizing k s with
  | nil => rfl
  | cons b bs ih => exact ih (k + 1) _

theorem wf_memWriteList (a : Nat) (bs : List Byte) (s : State) (h : Memory.wf s.mem = true) :
    Memory.wf (memWriteList a bs s).mem = true := by
  rw [← Nat.add_zero a, memWriteList_eq]
  exact wf_storePayload _ _ _ _ h

/-- Storing bytes writes the buffer and nothing else. -/
theorem memWriteList_frame (a : Nat) (bs : List Byte) (s : State) :
    memWriteList a bs s = { s with mem := (memWriteList a bs s).mem } := by
  induction bs generalizing a s with
  | nil => rfl
  | cons b bs ih =>
    simp only [memWriteList]
    rw [ih]
    rfl

theorem wf_reset : Memory.wf State.reset.mem = true := rfl

/-- Storing a payload writes the buffer or the configuration, and nothing else. -/
theorem storePayload_frame (d : Dest) (k : Nat) (bs : List Byte) (s : State) :
    storePayload d k bs s =
      { s with mem := (storePayload d k bs s).mem, conf := (storePayload d k bs s).conf } := by
  induction bs generalizing k s with
  | nil => rfl
  | cons b bs ih =>
    simp only [storePayload]
    rw [ih]
    cases d <;> rfl

/-- Storing a payload reads nothing but the buffer, the configuration and the parameters. -/
theorem storePayload_congr (d : Dest) (k : Nat) (bs : List Byte) (s u : State) (hm : u.mem = s.mem)
    (hc : u.conf = s.conf) (hp : u.cfg = s.cfg) :
    (storePayload d k bs u).mem = (storePayload d k bs s).mem ∧
      (storePayload d k bs u).conf = (storePayload d k bs s).conf := by
  induction bs generalizing k s u with
  | nil => exact ⟨hm, hc⟩
  | cons b bs ih =>
    refine ih (k + 1) _ _ ?_ ?_ ?_ <;> cases d <;> simp [storeByte, memWrite, bufAddr, hm, hc, hp]

theorem storePayload_cfg (d : Dest) (k : Nat) (bs : List Byte) (s : State) : (storePayload d k bs s).cfg = s.cfg := by
  rw [storePayload_frame]

/-- Storing several sectors writes the buffer or the configuration, and nothing else. -/
theorem storeBlocks_frame (p : Nat) (bs : List Block) (s : State) :
    storeBlocks p bs s = { s with mem := (storeBlocks p bs s).mem, conf := (storeBlocks p bs s).conf } := by
  induction bs generalizing p s with
  | nil => rfl
  | cons b bs ih =>
    simp only [storeBlocks]
    rw [ih, storePayload_frame]

/-- Storing several sectors reads nothing but the buffer, the configuration and the parameters. -/
theorem storeBlocks_congr (p : Nat) (bs : List Block) (s u : State) (hm : u.mem = s.mem) (hc : u.conf = s.conf)
    (hp : u.cfg = s.cfg) :
    (storeBlocks p bs u).mem = (storeBlocks p bs s).mem ∧ (storeBlocks p bs u).conf = (storeBlocks p bs s).conf := by
  induction bs generalizing p s u with
  | nil => exact ⟨hm, hc⟩
  | cons b bs ih =>
    obtain ⟨h1, h2⟩ := storePayload_congr (.buffer p) 0 b.payload s u hm hc hp
    simp only [storeBlocks]
    have e : bufAddr u (p + u.cfg.sectorBytes) = bufAddr s (p + s.cfg.sectorBytes) := by simp [bufAddr, hp]
    rw [e]
    exact ih _ _ _ h1 h2 (by rw [storePayload_cfg, storePayload_cfg, hp])

/-- A payload that does not wrap reads back in order, and every other address keeps its byte (R67). -/
theorem memRead_storePayload (buf k : Nat) (bs : List Byte) (s : State) (h : Memory.wf s.mem = true)
    (hw : buf + k + bs.length ≤ 2 ^ s.cfg.addrWidth) (a : Nat) (ha : a < 2 ^ s.cfg.addrWidth) :
    memRead (storePayload (.buffer buf) k bs s) a =
      if buf + k ≤ a ∧ a < buf + k + bs.length then bs.getD (a - (buf + k)) 0 else memRead s a := by
  induction bs generalizing k s with
  | nil => simp [storePayload]
  | cons b bs ih =>
    simp only [List.length_cons] at hw ⊢
    simp only [storePayload]
    have hm : Memory.wf (storeByte (.buffer buf) k b s).mem = true := wf_storeByte _ _ _ _ h
    have h1 := ih (k + 1) (storeByte (.buffer buf) k b s) hm (by simp only [storeByte, memWrite]; omega)
      (by simpa only [storeByte, memWrite] using ha)
    rw [h1]
    have e1 : bufAddr s a = a := Nat.mod_eq_of_lt ha
    have e2 : bufAddr s (buf + k) = buf + k := Nat.mod_eq_of_lt (by omega)
    have h2 : memRead (storeByte (.buffer buf) k b s) a = if a = buf + k then b else memRead s a := by
      simp only [storeByte]
      rw [memRead_memWrite s _ _ _ h, e1, e2]
    rw [h2]
    by_cases h3 : a = buf + k
    · subst h3
      have : ¬ (buf + (k + 1) ≤ buf + k) := by omega
      simp [this]
    · by_cases h4 : buf + k + 1 ≤ a ∧ a < buf + k + 1 + bs.length
      · obtain ⟨j, rfl⟩ : ∃ j, a = buf + k + 1 + j := ⟨a - (buf + k + 1), by omega⟩
        have c1 : buf + (k + 1) ≤ buf + k + 1 + j ∧ buf + k + 1 + j < buf + (k + 1) + bs.length := by omega
        have c2 : buf + k ≤ buf + k + 1 + j ∧ buf + k + 1 + j < buf + k + (bs.length + 1) := by omega
        rw [if_pos c1, if_pos c2]
        have e3 : buf + k + 1 + j - (buf + (k + 1)) = j := by omega
        have e4 : buf + k + 1 + j - (buf + k) = j + 1 := by omega
        simp [e3, e4]
      · have c1 : ¬ (buf + (k + 1) ≤ a ∧ a < buf + (k + 1) + bs.length) := by omega
        have c2 : ¬ (buf + k ≤ a ∧ a < buf + k + (bs.length + 1)) := by omega
        rw [if_neg c1, if_neg c2, if_neg h3]

end Sys2Proof.Laws
end

