-- ==== Sys2Proof/Laws/Blocks.lean ====
section
/-! SUPPORT. What RECVBLK and SENDBLK do wherever they are called from, no tick falling. -/

namespace Sys2Proof.Laws

open Sys2Proof.Machine Sys2Proof.Safety

theorem block_fits {p : Params} {b : Block} {len : Nat} (h : b.fits p len = true) :
    (∀ x ∈ b.wait, x ≠ p.tokenStartSingle ∧ (p.startTokenStrict = true → x = 0xFF#8)) ∧ b.payload.length = len ∧ b.crc.length = 2 := by
  simp only [Block.fits, Bool.and_eq_true, List.all_eq_true, bne_iff_ne, Bool.or_eq_true, Bool.not_eq_true',
    beq_iff_eq] at h
  refine ⟨fun x hx => ⟨(h.1.1 x hx).1, fun hs => ?_⟩, h.1.2, h.2⟩
  simpa [hs] using (h.1.1 x hx).2

/-- The start-token wait (R272). -/
theorem token_found (ws rest : List Byte) (d : Dest) (len : Nat) (k : List Pos) (s : State)
    (hp : s.phase = .rbXchg d len :: k) (hr : s.rxq = ws ++ s.cfg.tokenStartSingle :: rest)
    (hw : ∀ x ∈ ws, x ≠ s.cfg.tokenStartSingle ∧ (s.cfg.startTokenStrict = true → x = 0xFF#8)) (ht : s.t1 ≠ 0) :
    Reaches s { s with
      phase := .rbData d len 0 :: k, rxq := rest, trace := exchanged s.cfg.fill (ws ++ [s.cfg.tokenStartSingle]) s.trace } := by
  induction ws generalizing s with
  | nil =>
    simp only [List.nil_append] at hr
    refine reaches_step hp (by simp only [seqAt, xchgKeep, xchgFill_cons hr, goTo, hp, List.tail_cons]; rfl) ?_
    refine reaches_step (p := .rbTest d len s.cfg.tokenStartSingle) (k := k) rfl
      (t := { s with phase := .rbData d len 0 :: k, rxq := rest, trace := exchanged s.cfg.fill [s.cfg.tokenStartSingle] s.trace })
      ?_ (reaches_refl _)
    simp [seqAt, strictStop, lookFor, decode, Decode.atWire, exec, execTokenStartSingle,
      exchanged]
  | cons b ws ih =>
    simp only [List.cons_append] at hr
    refine reaches_step hp (by simp only [seqAt, xchgKeep, xchgFill_cons hr, goTo, hp, List.tail_cons]; rfl) ?_
    obtain ⟨hb, hs⟩ := hw b (by simp)
    refine reaches_step (p := .rbTest d len b) (k := k) rfl
      (t := { s with phase := .rbXchg d len :: k, rxq := ws ++ s.cfg.tokenStartSingle :: rest,
                     trace := .exchange s.cfg.fill b :: s.trace })
      ?_ ?_
    · have h2 : (s.t1 == 0) = false := by simpa using ht
      simp only [seqAt, strictStop, Bool.and_eq_true, Bool.not_eq_true', beq_eq_false_iff_ne, ne_eq, and_assoc, if_false,
        lookFor, decode, Decode.atWire, hb, pollAgain, expired, h2, goTo,
        List.tail_cons, Bool.false_eq_true]
      exact if_neg fun h => h.2.1 (hs h.1)
    · have := ih { s with phase := .rbXchg d len :: k, rxq := ws ++ s.cfg.tokenStartSingle :: rest,
                          trace := .exchange s.cfg.fill b :: s.trace } rfl rfl
        (fun x hx => hw x (by simp [hx])) ht
      simpa [exchanged] using this

/-- The payload is received and stored byte by byte (R271, R67). -/
theorem payload_received (bs rest : List Byte) (d : Dest) (len j : Nat) (k : List Pos) (s : State)
    (hp : s.phase = .rbData d len j :: k) (hr : s.rxq = bs ++ rest) (hl : j + bs.length = len) :
    Reaches s { storePayload d j bs s with
      phase := .rbCrc1 :: k, rxq := rest, trace := exchanged s.cfg.fill bs s.trace } := by
  induction bs generalizing s j with
  | nil =>
    simp only [List.nil_append] at hr
    simp only [List.length_nil, Nat.add_zero] at hl
    refine reaches_step hp (t := { s with phase := .rbCrc1 :: k })
      (by simp [seqAt, recvData, goTo, hp, hl]) ?_
    simpa [exchanged, storePayload, ← hr] using reaches_refl _
  | cons b bs ih =>
    simp only [List.cons_append] at hr
    simp only [List.length_cons] at hl
    refine reaches_step hp
      (t := { storeByte d j b s with
        phase := .rbData d len (j + 1) :: k, rxq := bs ++ rest, trace := .exchange s.cfg.fill b :: s.trace })
      (by
        have : j < len := by omega
        simp only [seqAt, recvData, this, if_true, xchgFill_cons hr, goTo]
        cases d <;> simp [storeByte, memWrite, bufAddr, hp]) ?_
    have h := ih (j + 1)
      { storeByte d j b s with
        phase := .rbData d len (j + 1) :: k, rxq := bs ++ rest, trace := .exchange s.cfg.fill b :: s.trace }
      rfl rfl (by omega)
    have hc : (storeByte d j b s).cfg = s.cfg := by cases d <;> rfl
    obtain ⟨h1, h2⟩ := storePayload_congr d (j + 1) bs (storeByte d j b s)
      { storeByte d j b s with
        phase := .rbData d len (j + 1) :: k, rxq := bs ++ rest, trace := .exchange s.cfg.fill b :: s.trace }
      rfl rfl rfl
    rw [storePayload_frame, h1, h2] at h
    simp only [storePayload]
    rw [storePayload_frame]
    simpa [exchanged, hc] using h

/-- RECVBLK, the token arriving (R271). -/
theorem recvblk_received (b : Block) (rest : List Byte) (d : Dest) (len : Nat) (k : List Pos) (s : State)
    (hp : s.phase = .rbLoad d len :: k) (hr : s.rxq = b.bytes s.cfg ++ rest)
    (hb : b.fits s.cfg len = true) (ht : boundsOk s.cfg = true) :
    Reaches s { storePayload d 0 b.payload s with
      phase := .ret .recvblk Config.ok :: k, t1 := s.cfg.recvTokenTicks, rxq := rest
      trace := exchanged s.cfg.fill (b.bytes s.cfg) s.trace } := by
  obtain ⟨hw, hl, hc⟩ := block_fits hb
  obtain ⟨c₁, c₂, hcc⟩ : ∃ c₁ c₂, b.crc = [c₁, c₂] := by
    match h : b.crc, hc with
    | [x, y], _ => exact ⟨x, y, rfl⟩
  have hr' : s.rxq = b.wait ++ s.cfg.tokenStartSingle :: (b.payload ++ (c₁ :: c₂ :: rest)) := by
    simpa [Block.bytes, hcc] using hr
  refine reaches_step hp (t := { s with phase := .rbXchg d len :: k, t1 := s.cfg.recvTokenTicks })
    (by simp [seqAt, goTo, hp, (bounds_loaded ht).2.1.1]) ?_
  refine reaches_trans (token_found b.wait _ d len k
    { s with phase := .rbXchg d len :: k, t1 := s.cfg.recvTokenTicks } rfl hr' hw (bounds_loaded ht).2.1.2) ?_
  refine reaches_trans (payload_received b.payload (c₁ :: c₂ :: rest) d len 0 k
    { s with
      phase := .rbData d len 0 :: k, t1 := s.cfg.recvTokenTicks, rxq := b.payload ++ (c₁ :: c₂ :: rest)
      trace := exchanged s.cfg.fill (b.wait ++ [s.cfg.tokenStartSingle]) s.trace } rfl rfl (by simpa using hl)) ?_
  obtain ⟨h1, h2⟩ := storePayload_congr d 0 b.payload s
    { s with
      phase := .rbData d len 0 :: k, t1 := s.cfg.recvTokenTicks, rxq := b.payload ++ (c₁ :: c₂ :: rest)
      trace := exchanged s.cfg.fill (b.wait ++ [s.cfg.tokenStartSingle]) s.trace } rfl rfl rfl
  rw [storePayload_frame, h1, h2]
  rw [storePayload_frame d 0 b.payload s]
  refine reaches_step (p := .rbCrc1) (k := k) rfl (by simp only [seqAt, xchgDrop, xchgFill, xchg, goTo]; rfl) ?_
  refine reaches_step (p := .rbCrc2) (k := k) rfl (by simp only [seqAt, xchgDrop, xchgFill, xchg, goTo]; rfl) ?_
  simpa [exchanged, Block.bytes, hcc] using reaches_refl _

theorem taken_fits {p : Params} {b : Taken} {len : Nat} (h : b.fits p len = true) :
    b.dropped.length = len + 3 ∧ b.response.extractLsb' 0 4 = p.dataRespAccepted ∧ (∀ x ∈ b.busy, x ≠ 0xFF#8) := by
  simpa [Taken.fits, and_assoc] using h

/-- The payload goes out in ascending order, the received bytes dropped (R283 a). -/
theorem payload_sent (rs rest : List Byte) (buf len j : Nat) (k : List Pos) (s : State)
    (hp : s.phase = .sbData buf len j :: k) (hr : s.rxq = rs ++ rest) (hl : j + rs.length = len) :
    Reaches s { s with
      phase := .sbCrc1 :: k, rxq := rest
      trace := sent ((List.range' j rs.length).map (fun i => memRead s (buf + i))) rs s.trace } := by
  induction rs generalizing s j with
  | nil =>
    simp only [List.nil_append] at hr
    simp only [List.length_nil, Nat.add_zero] at hl
    refine reaches_step hp (t := { s with phase := .sbCrc1 :: k })
      (by simp [seqAt, sendData, goTo, hp, hl]) ?_
    simpa [sent, ← hr] using reaches_refl _
  | cons r rs ih =>
    simp only [List.cons_append] at hr
    simp only [List.length_cons] at hl
    refine reaches_step hp
      (t := { s with
        phase := .sbData buf len (j + 1) :: k, rxq := rs ++ rest
        trace := .exchange (memRead s (buf + j)) r :: s.trace })
      (by
        have : j < len := by omega
        simp [seqAt, sendData, this, xchg_cons _ hr, goTo, hp]) ?_
    have h := ih (j + 1)
      { s with
        phase := .sbData buf len (j + 1) :: k, rxq := rs ++ rest
        trace := .exchange (memRead s (buf + j)) r :: s.trace } rfl rfl (by omega)
    simpa [sent, List.range'_succ, memRead, bufAddr] using h

/-- The busy wait of SENDBLK (R282 d). -/
theorem busy_cleared (bb rest : List Byte) (k : List Pos) (s : State) (hp : s.phase = .sbXchg :: k)
    (hr : s.rxq = bb ++ 0xFF#8 :: rest) (hb : ∀ b ∈ bb, b ≠ 0xFF#8) (ht : s.t1 ≠ 0) :
    Reaches s { s with
      phase := .ret .sendblk Config.ok :: k, rxq := rest
      trace := exchanged s.cfg.fill (bb ++ [0xFF#8]) s.trace } := by
  induction bb generalizing s with
  | nil =>
    simp only [List.nil_append] at hr
    refine reaches_step hp (by simp only [seqAt, xchgKeep, xchgFill_cons hr, goTo, hp, List.tail_cons]; rfl) ?_
    refine reaches_step (p := .sbTest 0xFF#8) rfl rfl ?_
    exact reaches_refl _
  | cons b bb ih =>
    simp only [List.cons_append] at hr
    refine reaches_step hp (by simp only [seqAt, xchgKeep, xchgFill_cons hr, goTo, hp, List.tail_cons]; rfl) ?_
    have hb0 : b ≠ 0xFF#8 := hb b (by simp)
    refine reaches_step (p := .sbTest b) (k := k) rfl
      (t := { s with phase := .sbXchg :: k, rxq := bb ++ 0xFF#8 :: rest, trace := .exchange s.cfg.fill b :: s.trace })
      ?_ ?_
    · simp [seqAt, lookFor, decode, Decode.atWire, Config.readyByte, hb0, pollAgain, expired, goTo]
      exact ht
    · have := ih { s with phase := .sbXchg :: k, rxq := bb ++ 0xFF#8 :: rest,
                          trace := .exchange s.cfg.fill b :: s.trace } rfl rfl
        (fun x hx => hb x (by simp [hx])) ht
      simpa [exchanged] using this

theorem sent_append (a b x y : List Byte) (tr : List BusEvent) (h : a.length = x.length) :
    sent b y (sent a x tr) = sent (a ++ b) (x ++ y) tr := by
  simp [sent, List.zipWith_append h]

/-- SENDBLK up to its data response: token, payload, two dummy CRC bytes (R281). -/
theorem sendblk_sent (dropped rest : List Byte) (rx : Byte) (buf len : Nat) (tok : Byte) (k : List Pos) (s : State)
    (hp : s.phase = .sbTok buf len tok :: k) (hr : s.rxq = dropped ++ rx :: rest) (hd : dropped.length = len + 3) :
    Reaches s { s with
      phase := .sbRespTest rx :: k, rxq := rest
      trace := .exchange s.cfg.fill rx :: sent (blockSent s buf len tok) dropped s.trace } := by
  obtain _ | ⟨d₀, ds⟩ := dropped
  · simp at hd
  simp only [List.length_cons, Nat.add_right_cancel_iff] at hd
  obtain ⟨ps, c₁, c₂, rfl, hps⟩ : ∃ ps c₁ c₂, ds = ps ++ [c₁, c₂] ∧ ps.length = len := by
    refine ⟨ds.take len, ds.getD len 0, ds.getD (len + 1) 0, ?_, by simp; omega⟩
    have h1 : ds = ds.take len ++ ds.drop len := (List.take_append_drop len ds).symm
    have h2 : (ds.drop len).length = 2 := by simp; omega
    have h3 : ds.drop len = [ds.getD len 0, ds.getD (len + 1) 0] := by
      apply List.ext_getElem
      · simp [h2]
      · intro i h4 h5
        have : i < 2 := by omega
        interval_cases i <;> simp
        · rw [List.getElem?_eq_getElem (by omega)]; rfl
        · rw [List.getElem?_eq_getElem (by omega)]; rfl
    rw [← h3]
    exact h1
  simp only [List.cons_append, List.append_assoc, List.nil_append] at hr
  have hstep : seqAt (.sbTok buf len tok) s = .next (sendToken tok buf len k s) := by
    have hs : ∀ t : Byte, lookFor .startToken t (.next (sendToken t buf len k s)) s =
        .next (sendToken t buf len k s) := by
      intro t
      by_cases h1 : t = s.cfg.tokenStartSingle
      · simp [lookFor, decode, Decode.atWire, h1, exec, execTokenStartSingle, hp]
      · by_cases h2 : t = s.cfg.tokenStartMulti
        · rw [h2] at h1 ⊢
          simp [lookFor, decode, Decode.atWire, h1, exec, execTokenStartMulti, hp]
        · simp [lookFor, decode, Decode.atWire, h1, h2]
    simpa [seqAt, hp] using hs tok
  refine reaches_step hp hstep ?_
  have h1 : sendToken tok buf len k s = { s with
      phase := .sbData buf len 0 :: k, rxq := ps ++ (c₁ :: c₂ :: rx :: rest), trace := sent [tok] [d₀] s.trace } := by
    simp [sendToken, xchg_cons _ hr, sent]
  rw [h1]
  refine reaches_trans (payload_sent ps (c₁ :: c₂ :: rx :: rest) buf len 0 k _ rfl rfl (by simpa using hps)) ?_
  refine reaches_step (p := .sbCrc1) (k := k) rfl (by simp only [seqAt, xchgDrop, xchgFill, xchg, goTo]; rfl) ?_
  refine reaches_step (p := .sbCrc2) (k := k) rfl (by simp only [seqAt, xchgDrop, xchgFill, xchg, goTo]; rfl) ?_
  refine reaches_step (p := .sbResp) (k := k) rfl (by simp only [seqAt, xchgKeep, xchgFill, xchg, goTo]; rfl) ?_
  have h2 : sent (blockSent s buf len tok) (d₀ :: (ps ++ [c₁, c₂])) s.trace =
      .exchange s.cfg.fill c₂ :: .exchange s.cfg.fill c₁ ::
        sent ((List.range' 0 ps.length).map (fun i => memRead s (buf + i))) ps (sent [tok] [d₀] s.trace) := by
    have h3 : blockSent s buf len tok =
        ([tok] ++ (List.range' 0 ps.length).map (fun i => memRead s (buf + i))) ++ [s.cfg.fill, s.cfg.fill] := by
      simp [blockSent, hps, List.range_eq_range']
    rw [h3, show d₀ :: (ps ++ [c₁, c₂]) = ([d₀] ++ ps) ++ [c₁, c₂] by simp, ← sent_append _ _ _ _ _ (by simp),
      ← sent_append _ _ _ _ _ (by simp)]
    simp [sent]
  simp only [h2]
  exact reaches_refl _

/-- SENDBLK, the card accepting the block and the busy line clearing (R281). -/
theorem sendblk_taken (b : Taken) (rest : List Byte) (buf len : Nat) (tok : Byte) (k : List Pos) (s : State)
    (hp : s.phase = .sbTok buf len tok :: k) (hr : s.rxq = b.bytes ++ rest) (hb : b.fits s.cfg len = true) (ht : boundsOk s.cfg = true) :
    Reaches s { s with
      phase := .ret .sendblk Config.ok :: k, t1 := s.cfg.sendBusyTicks, rxq := rest, trace := b.trace s buf len tok s.trace } := by
  obtain ⟨hd, hv, hn⟩ := taken_fits hb
  have hr' : s.rxq = b.dropped ++ b.response :: (b.busy ++ 0xFF#8 :: rest) := by simpa [Taken.bytes] using hr
  refine reaches_trans (sendblk_sent b.dropped _ b.response buf len tok k s hp hr' hd) ?_
  refine reaches_step (p := .sbRespTest b.response) (k := k) rfl
    (t := { s with
      phase := .sbLoad :: k, rxq := b.busy ++ 0xFF#8 :: rest
      trace := .exchange s.cfg.fill b.response :: sent (blockSent s buf len tok) b.dropped s.trace })
    (by simp [seqAt, lookFor, decode, Decode.atWire, hv, exec, execDataResponseAccepted]) ?_
  refine reaches_step (p := .sbLoad) (k := k) rfl
    (t := { s with
      phase := .sbXchg :: k, t1 := s.cfg.sendBusyTicks, rxq := b.busy ++ 0xFF#8 :: rest
      trace := .exchange s.cfg.fill b.response :: sent (blockSent s buf len tok) b.dropped s.trace })
    (by simp [seqAt, goTo, (bounds_loaded ht).2.2.1.1]) ?_
  refine reaches_trans (busy_cleared b.busy rest k _ rfl rfl hn (bounds_loaded ht).2.2.1.2) ?_
  simpa [Taken.trace, exchanged] using reaches_refl _

/-- SENDBLK, the data response rejecting the block: no busy wait, T1 not loaded (R282 c). -/
theorem sendblk_rejected (dropped rest : List Byte) (rx : Byte) (buf len : Nat) (tok : Byte) (k : List Pos) (s : State)
    (hp : s.phase = .sbTok buf len tok :: k) (hr : s.rxq = dropped ++ rx :: rest) (hd : dropped.length = len + 3)
    (hv : rx.extractLsb' 0 4 ≠ s.cfg.dataRespAccepted) :
    Reaches s { s with
      phase := .ret .sendblk Config.fail :: k, rxq := rest
      trace := .exchange s.cfg.fill rx :: sent (blockSent s buf len tok) dropped s.trace } := by
  refine reaches_trans (sendblk_sent dropped rest rx buf len tok k s hp hr hd) ?_
  refine reaches_step (p := .sbRespTest rx) (k := k) rfl
    (t := { s with
      phase := .ret .sendblk Config.fail :: k, rxq := rest
      trace := .exchange s.cfg.fill rx :: sent (blockSent s buf len tok) dropped s.trace })
    (by simp [seqAt, lookFor, decode, Decode.atWire, hv, goTo]) (reaches_refl _)

/-- The trace of the blocks sent reads nothing but the buffer and the parameters. -/
theorem takenTrace_congr (s u : State) (p : Nat) (bs : List Taken) (tr : List BusEvent) (hm : u.mem = s.mem)
    (hp : u.cfg = s.cfg) : takenTrace u p bs tr = takenTrace s p bs tr := by
  induction bs generalizing p tr with
  | nil => rfl
  | cons b bs ih =>
    simp only [takenTrace]
    rw [ih]
    simp [Taken.trace, blockSent, memRead, bufAddr, hm, hp]

end Sys2Proof.Laws
end

