-- ==== Sys2Proof/Laws/Encoding.lean ====
section
/-! SUPPORT. Each encoding form read back: words from their bytes, the operation byte, the operands, the frame. -/

namespace Sys2Proof.Laws

open Sys2Proof.Machine

theorem shift_or_byte (a : Nat) (b : Byte) : a <<< 8 ||| b.toNat = a * 256 + b.toNat := by
  rw [← Nat.shiftLeft_add_eq_or_of_lt b.isLt, Nat.shiftLeft_eq]

theorem extract_byte {n : Nat} (w : BitVec n) (k : Nat) : (w.extractLsb' k 8).toNat = w.toNat / 2 ^ k % 256 := by
  simp [Nat.shiftRight_eq_div_pow]

theorem word16_bytes (w : BitVec 16) : Decode.word16 (w.extractLsb' 8 8) (w.extractLsb' 0 8) = w := by
  apply BitVec.eq_of_toNat_eq
  have := w.isLt
  simp only [Decode.word16, BitVec.toNat_append, shift_or_byte]
  simp only [extract_byte]
  omega

theorem word32_bytes (w : BitVec 32) :
    Decode.word32 (w.extractLsb' 24 8) (w.extractLsb' 16 8) (w.extractLsb' 8 8) (w.extractLsb' 0 8) = w := by
  apply BitVec.eq_of_toNat_eq
  have := w.isLt
  simp only [Decode.word32, BitVec.toNat_append, shift_or_byte]
  simp only [extract_byte]
  omega

theorem last_group : ∀ b : BitVec 7, (0#1 ++ b : BitVec 8).getLsbD 7 = false ∧ (0#1 ++ b : BitVec 8).extractLsb' 0 7 = b := by
  decide

theorem other_group : ∀ b : BitVec 7, (1#1 ++ b : BitVec 8).getLsbD 7 = true ∧ (1#1 ++ b : BitVec 8).extractLsb' 0 7 = b := by
  decide

theorem takeNumber_groups (fuel n : Nat) (rest : List Byte) (h : n ≤ fuel) :
    Decode.takeNumber (Decode.numberGroups fuel n ++ rest) = .ok (n, rest) := by
  induction fuel generalizing n with
  | zero =>
    obtain rfl : n = 0 := by omega
    simp only [Decode.numberGroups, List.cons_append, List.nil_append, Decode.takeNumber, last_group, Bool.false_eq_true,
      if_false, BitVec.toNat_ofNat, Nat.zero_mod]
  | succ fuel ih =>
    simp only [Decode.numberGroups]
    split
    · rename_i h'
      simp only [List.cons_append, List.nil_append, Decode.takeNumber, last_group, Bool.false_eq_true, if_false,
        BitVec.toNat_ofNat, Nat.mod_eq_of_lt (show n < 2 ^ 7 from h')]
    · simp only [List.cons_append, Decode.takeNumber, other_group, if_true, ih (n / 128) (by omega), BitVec.toNat_ofNat,
        Except.ok.injEq, Prod.mk.injEq, and_true]
      omega

/-- A number of any width reads back, whatever follows it. -/
theorem takeNumber_bytes (n : Nat) (rest : List Byte) :
    Decode.takeNumber (Decode.numberBytes n ++ rest) = .ok (n, rest) := takeNumber_groups n n rest le_rfl

/-- A number takes as many bytes as it has digits to the base 128, and one where it is 0. -/
theorem numberBytes_length (n : Nat) : (Decode.numberBytes n).length = Nat.log 128 n + 1 := by
  have h : ∀ fuel n : Nat, n ≤ fuel → (Decode.numberGroups fuel n).length = Nat.log 128 n + 1 := by
    intro fuel
    induction fuel with
    | zero => intro n hn; rw [Nat.le_zero.mp hn]; rfl
    | succ fuel ih =>
      intro n hn
      simp only [Decode.numberGroups]
      split
      · rename_i h'; simp [Nat.log_of_lt h']
      · rename_i h'
        have e : Nat.log 128 n = Nat.log 128 (n / 128) + 1 := Nat.log_of_one_lt_of_le (by omega) (by omega)
        rw [List.length_cons, ih _ (by omega), e]
  exact h n n le_rfl

/-- The operation byte at the host port. -/
theorem decode_operation (p : Params) (op : BitVec 4) (rest : List Byte) :
    decode p .host (Encode.operationByte op :: rest) = Decode.operation op rest := by
  have h1 : (Encode.operationByte op).extractLsb' 4 4 = 0#4 := by revert op; decide
  have h2 : (Encode.operationByte op).extractLsb' 0 4 = op := by revert op; decide
  simp only [decode, Decode.atHost]
  rw [if_pos h1, h2]

/-- The operands of SENDCMD and SENDACMD. -/
theorem command_operands (mk : BitVec 6 → BitVec 32 → Byte → Instr) (idx : BitVec 6) (arg : BitVec 32) (l : Byte)
    (rest : List Byte) :
    Decode.commandOperands mk ((0#2 ++ idx : BitVec 8) :: (bytes32 arg ++ [l]) ++ rest) = .ok (mk idx arg l) := by
  have h1 : (0#2 ++ idx : BitVec 8).extractLsb' 6 2 = 0#2 := by revert idx; decide
  have h2 : (0#2 ++ idx : BitVec 8).extractLsb' 0 6 = idx := by revert idx; decide
  simp only [bytes32, List.cons_append, List.nil_append, Decode.commandOperands]
  rw [if_pos h1, h2, word32_bytes]

/-- The operands of RDSECT and WRSECT. -/
theorem sector_operands (mk : BitVec 32 → BitVec 32 → Nat → Instr) (sect cnt : BitVec 32) (buf : Nat)
    (rest : List Byte) :
    Decode.sectorOperands mk (bytes32 sect ++ bytes32 cnt ++ Decode.numberBytes buf ++ rest) = .ok (mk sect cnt buf) := by
  simp only [bytes32, List.cons_append, List.nil_append, Decode.sectorOperands, word32_bytes, takeNumber_bytes]

/-- A 48-bit frame with the default command bits (R91, R92). -/
theorem decode_frame (p : Params) (idx : BitVec 6) (arg : BitVec 32) (trailer : BitVec 7) (rest : List Byte) :
    decode p .host (Encode.frame idx arg trailer ++ rest) = .ok (Decode.frameOf idx arg trailer) := by
  have h1 : (0b01#2 ++ idx : BitVec 8).extractLsb' 4 4 ≠ 0#4 := by revert idx; decide
  have h2 : (0b01#2 ++ idx : BitVec 8).extractLsb' 6 2 = 0b01#2 := by revert idx; decide
  have h3 : (0b01#2 ++ idx : BitVec 8).extractLsb' 0 6 = idx := by revert idx; decide
  have h4 : (trailer ++ 1#1 : BitVec 8).extractLsb' 0 1 = 1#1 := by revert trailer; decide
  have h5 : (trailer ++ 1#1 : BitVec 8).extractLsb' 1 7 = trailer := by revert trailer; decide
  simp only [decode, Encode.frame, frameHead, bytes32, trailerByte, List.cons_append, List.nil_append, Decode.atHost]
  rw [if_neg h1, if_pos h2]
  simp only [Decode.frame]
  rw [if_pos h4, h3, h5, word32_bytes]

end Sys2Proof.Laws
end

