-- ==== Sys2Proof/Laws/Host.lean ====
section
/-! SUPPORT. All the host side of a step can do, said once: an instruction at the host port, the bytes presented there,
and the host going on. -/

namespace Sys2Proof.Laws

open Sys2Proof.Machine Sys2Proof.Safety

/-- The first positions of the operations. -/
inductive Starts : Pos → Prop
  | select : Starts .selAssert
  | deselect : Starts (.csOff .deselect Config.ok)
  | xchg {b} : Starts (.xcXchg b)
  | waitrdy : Starts .wrLoad
  | sendcmd {idx arg rlen} : Starts (.scSelect idx arg rlen)
  | sendacmd {idx arg rlen} : Starts (.saStart idx arg rlen)
  | recvblk {a len} : Starts (.rbLoad (.buffer a) len)
  | sendblk {buf len tok} : Starts (.sbTok buf len tok)
  | sector {d sect cnt buf} : Starts (.txStart d sect cnt buf)
  | rdconfig : Starts .rcStart
  | settype {ty} : Starts (.stSet ty)
  | sync : Starts .syStart
  | ldt1 {v} : Starts (.ldLoad v)

/-- PHASE after something presented to the block: unchanged, or, of an idle block, an operation's first position. -/
def PhaseAfter (s t : State) : Prop := t.phase = s.phase ∨ s.phase = [] ∧ ∃ p, Starts p ∧ t.phase = [p]

/-- BUF and TVAL are within their widths (R23, R25). -/
def OpsWithin (p : Params) (o : Operands) : Prop := o.tval < 2 ^ p.timerWidth ∧ o.buf < 2 ^ p.addrWidth

/-- `t` differs from `s` in the operand registers, RES, PHASE and the host only, and the operands stay in their widths. -/
def Presented (s t : State) : Prop :=
  (∃ o r ph h, (OpsWithin s.cfg s.ops → OpsWithin s.cfg o) ∧ t = { s with ops := o, res := r, phase := ph, host := h }) ∧
    PhaseAfter s t

theorem presented_refl (s : State) : Presented s s := ⟨⟨_, _, _, _, id, rfl⟩, .inl rfl⟩

theorem presented_host {s t : State} (h : HostAgent) (g : Presented { s with host := h } t) : Presented s t := by
  obtain ⟨⟨o, r, ph, h', hw, rfl⟩, g⟩ := g
  exact ⟨⟨o, r, ph, h', hw, rfl⟩, g⟩

theorem tvalOperand_lt (s : State) (v : Nat) : tvalOperand s v < 2 ^ s.cfg.timerWidth := Nat.mod_lt _ (Nat.two_pow_pos _)

theorem bufOperand_lt (s : State) (buf : Nat) : bufOperand s buf < 2 ^ s.cfg.addrWidth := Nat.mod_lt _ (Nat.two_pow_pos _)

/-- Acceptance, refusal, or nothing (R123, R124). -/
theorem accept_presented (op : BitVec 4) (l : Operands → Operands) (r : Bool) {p : Pos} (s : State) (hp : Starts p)
    (hl : OpsWithin s.cfg s.ops → OpsWithin s.cfg (l { s.ops with op := op }) := by exact id) :
    Presented s (accept op l r p s) ∧ (accept op l r p s).host = s.host := by
  simp only [accept]
  split
  · exact ⟨presented_refl s, rfl⟩
  · rename_i hb
    split
    · exact ⟨⟨⟨_, _, _, _, hl, rfl⟩, .inl rfl⟩, rfl⟩
    · exact ⟨⟨⟨_, _, _, _, hl, rfl⟩, .inr ⟨by simpa [busy] using hb, p, hp, rfl⟩⟩, rfl⟩

theorem presented_next {s a t : State} (h : Presented s a ∧ a.host = s.host) (ht : .next a = (.next t : Result)) :
    Presented s t ∧ ∃ ps, t.host = { s.host with prog := ps } := by
  rw [← Host.Outcome.next.inj ht]
  exact ⟨h.1, s.host.prog, by rw [h.2]⟩

/-- An instruction at the host port. -/
theorem exec_presented {i : Instr} {s t : State} (hi : place i = .host) (h : exec i s = .next t) :
    Presented s t ∧ ∃ ps, t.host = { s.host with prog := ps } := by
  cases i
  case select => exact presented_next (accept_presented _ _ _ _ .select) h
  case deselect => exact presented_next (accept_presented _ _ _ _ .deselect) h
  case xchg b => exact presented_next (accept_presented _ _ _ _ .xchg) h
  case waitrdy => exact presented_next (accept_presented _ _ _ _ .waitrdy) h
  case recvblk =>
    exact presented_next (accept_presented _ _ _ _ .recvblk fun g => ⟨g.1, bufOperand_lt _ _⟩) h
  case sendblk =>
    exact presented_next (accept_presented _ _ _ _ .sendblk fun g => ⟨g.1, bufOperand_lt _ _⟩) h
  case rdsect | wrsect =>
    exact presented_next (accept_presented _ _ _ _ .sector fun g => ⟨g.1, bufOperand_lt _ _⟩) h
  case rdconfig => exact presented_next (accept_presented _ _ _ _ .rdconfig) h
  case settype => exact presented_next (accept_presented _ _ _ _ .settype) h
  case sync => exact presented_next (accept_presented _ _ _ _ .sync) h
  case ldt1 => exact presented_next (accept_presented _ _ _ _ .ldt1 fun g => ⟨tvalOperand_lt _ _, g.2⟩) h
  case reservedE | reservedF => exact presented_next (accept_presented _ _ _ _ .select) h
  case sendacmd | acmdN | acmd13 | acmd41 => exact presented_next (accept_presented _ _ _ _ .sendacmd) h
  case idleclk n =>
    cases n with
    | zero => exact presented_next ⟨presented_refl s, rfl⟩ h
    | succ n =>
      simp only [exec, execIdleclk] at h
      split at h
      · exact presented_next ⟨presented_refl s, rfl⟩ h
      · rw [← Host.Outcome.next.inj h]
        have g := accept_presented 0x2#4 (latchTxb 0xFF#8) false (p := .xcXchg 0xFF#8)
          { s with host := { s.host with prog := List.replicate n [0x02#8, 0xFF#8] ++ s.host.prog } } .xchg
        exact ⟨presented_host _ g.1, _, g.2⟩
  case tokenStartSingle | tokenStartMulti | tokenStopTran | dataResponseAccepted | r1Valid | codeNotReady
    | codeRespTimeout | codeRefused | ready => exact absurd hi (by simp [place])
  all_goals exact presented_next (accept_presented _ _ _ _ .sendcmd) h

/-- A map that keeps instructions at the host port. -/
theorem ite_host {c : Prop} [Decidable c] {x : Except DecodeError Instr} {e : DecodeError} {i : Instr}
    (hx : x = .ok i → place i = .host) (h : (if c then x else .error e) = .ok i) : place i = .host := by
  split at h
  · exact hx h
  · cases h

theorem frameOf_place (idx : BitVec 6) (arg : BitVec 32) (tr : BitVec 7) : place (Decode.frameOf idx arg tr) = .host := by
  simp only [Decode.frameOf, Decode.dummyFrame]
  repeat' split
  all_goals rfl

/-- What is decoded at the host port is an instruction of the host port. -/
theorem decode_host {p : Params} {bs : List Byte} {i : Instr} (h : decode p .host bs = .ok i) : place i = .host := by
  have cmd : ∀ (mk : BitVec 6 → BitVec 32 → Byte → Instr) xs, (∀ a b c, place (mk a b c) = .host) →
      Decode.commandOperands mk xs = .ok i → place i = .host := by
    intro mk xs hm h
    unfold Decode.commandOperands at h
    split at h
    · split at h <;> cases h; exact hm _ _ _
    · cases h
  have sec : ∀ (mk : BitVec 32 → BitVec 32 → Nat → Instr) xs, (∀ a b c, place (mk a b c) = .host) →
      Decode.sectorOperands mk xs = .ok i → place i = .host := by
    intro mk xs hm h
    unfold Decode.sectorOperands at h
    repeat' split at h
    all_goals cases h
    exact hm _ _ _
  cases bs with
  | nil => cases h
  | cons b xs =>
    simp only [decode, Decode.atHost] at h
    split at h
    · unfold Decode.operation at h
      split at h
      case h_5 | h_6 => exact cmd _ _ (fun _ _ _ => rfl) h
      case h_9 | h_10 => exact sec _ _ (fun _ _ _ => rfl) h
      all_goals
        try simp only [Decode.xchgOperands, Decode.recvOperands, Decode.sendOperands, Decode.settypeOperands,
          Decode.ldt1Operands] at h
        repeat' split at h
        all_goals cases h
        all_goals rfl
    · split at h
      · unfold Decode.frame at h
        split at h
        · split at h <;> cases h; exact frameOf_place _ _ _
        · cases h
      · cases h

/-- Bytes presented at the host port. -/
theorem presentBytes_presented {bs : List Byte} {s t : State} (h : presentBytes bs s = .next t) :
    Presented s t ∧ ∃ ps, t.host = { s.host with prog := ps } := by
  simp only [presentBytes] at h
  split at h
  · rename_i i hi; exact exec_presented (decode_host hi) h
  · cases h

/-- What a step of the host does to the block: what a presentation may, and the caller's buffer may be written, which
keeps it canonical. -/
def HostActs (s t : State) : Prop :=
  ∃ m, (Memory.wf s.mem = true → Memory.wf m = true) ∧ Presented { s with mem := m } t

theorem Presented.acts {s t : State} (h : Presented s t) : HostActs s t := ⟨s.mem, id, h⟩

theorem HostActs.phase {s t : State} (h : HostActs s t) : PhaseAfter s t := by
  obtain ⟨_, -, h⟩ := h
  exact h.2

/-- What most steps of the host do, NOINIT kept. -/
structure HostKeeps (s t : State) : Prop where
  acts : HostActs s t
  noinit : t.host.noinit = s.host.noinit
  waits : t.host.pos ≠ .configRead

/-- What any step of the host may do: NOINIT it changes only at the two points of R353 and R354, and it comes to wait
for RDCONFIG only by issuing it to the idle block. -/
structure HostMoves (s t : State) : Prop where
  acts : HostActs s t
  noinit : t.host.noinit = s.host.noinit ∨
    t.host.noinit = false ∧ s.host.pos = .configRead ∧ s.res = Config.ok ∨
    t.host.noinit = true ∧ s.host.pos = .free ∧ s.host.calls.head? = some .init
  waits : t.host.pos = .configRead → s.phase = [] → t.phase = [.rcStart]

theorem HostKeeps.moves {s t : State} (h : HostKeeps s t) : HostMoves s t :=
  ⟨h.acts, .inl h.noinit, fun g => absurd g h.waits⟩

theorem issue_keeps {i : Instr} {pos : HostPos} {s t : State} (h : issue i pos s = .next t)
    (hi : place i = .host := by rfl) (hp : pos ≠ .configRead := by nofun) : HostKeeps s t := by
  obtain ⟨hpr, ps, hh⟩ := exec_presented hi h
  exact ⟨(presented_host _ hpr).acts, by rw [hh]; rfl, by rw [hh]; exact hp⟩

theorem finish_keeps {r : CallRet} {s t : State} (h : Machine.finish r s = .next t) : HostKeeps s t := by
  rw [← Host.Outcome.next.inj h]
  exact ⟨Presented.acts ⟨⟨_, _, _, _, id, rfl⟩, .inl rfl⟩, rfl, nofun⟩

theorem look_keeps {pos : HostPos} {s t : State} (h : look pos s = .next t)
    (hp : pos ≠ .configRead := by nofun) : HostKeeps s t := by
  rw [← Host.Outcome.next.inj h]
  exact ⟨Presented.acts ⟨⟨_, _, _, _, id, rfl⟩, .inl rfl⟩, rfl, hp⟩

theorem numberLayout_length (size n : Nat) : (numberLayout size n).length = size := by simp [numberLayout]

/-- An ioctl that hands a value over. -/
theorem hand_over_keeps {r : CallRet} {a : Nat} {bs : List Byte} {s t : State}
    (h : Machine.finish r (memWriteList a bs s) = .next t) : HostKeeps s t := by
  rw [← Host.Outcome.next.inj h, memWriteList_frame a bs s]
  exact ⟨⟨(memWriteList a bs s).mem, wf_memWriteList a bs s, ⟨⟨_, _, _, _, id, rfl⟩, .inl rfl⟩⟩, rfl, nofun⟩

theorem initBlocklen_keeps {c : CardType} {s t : State} (h : initBlocklen c s = .next t) : HostKeeps s t := by
  cases c <;> simp only [initBlocklen, initRelease] at h <;> exact issue_keeps h

theorem initPowerup_keeps {k : Nat} {s t : State} (h : initPowerup k s = .next t) : HostKeeps s t := by
  unfold initPowerup at h
  split at h <;> exact issue_keeps h

/-- The host going on from its position. -/
theorem hostResume_moves {s t : State} (h : hostResume s.host.pos s = .next t) : HostMoves s t := by
  cases hp : s.host.pos <;> rw [hp] at h
  case free =>
    rw [← Host.Outcome.next.inj h]
    exact ⟨(presented_refl s).acts, .inl rfl, fun g => by rw [hp] at g; cases g⟩
  case typeSet =>
    have g := accept_presented 0xA#4 latchNone false (p := .rcStart) (setHostPos .configRead s) .rdconfig
    rw [← Host.Outcome.next.inj h]
    refine ⟨(presented_host _ g.1).acts, .inl (by rw [g.2]; rfl), fun _ hs => ?_⟩
    simp [accept, busy, setHostPos, hs]
  case configRead =>
    simp only [hostResume, initConfigRead, finishStatus, Machine.finish] at h
    rw [← Host.Outcome.next.inj h]
    split
    · rename_i hr
      exact ⟨Presented.acts ⟨⟨_, _, _, _, id, rfl⟩, .inl rfl⟩, .inr (.inl ⟨rfl, hp, hr⟩), nofun⟩
    · exact ⟨Presented.acts ⟨⟨_, _, _, _, id, rfl⟩, .inl rfl⟩, .inl rfl, nofun⟩
  all_goals
    simp only [hostResume, initReset, initProbe, initIfCond, initEcho, initV2Try, initV2Tried, initV2Timer, initV2Ocr,
      initV2Class, initProbed, initLegacyTry, initLegacyTried, initLegacyTimer, initReleased, initRelease] at h
    repeat' split at h
    all_goals
      first
      | exact (look_keeps h).moves
      | exact (issue_keeps h).moves
      | exact (initPowerup_keeps h).moves
      | exact (initBlocklen_keeps h).moves
      | exact (finish_keeps h).moves

theorem startCall_keeps {c : Call} {s t : State} (hc : c ≠ .init) (h : startCall c s = .next t) : HostKeeps s t := by
  cases c <;> simp only [startCall] at h
  case status => exact finish_keeps h
  case init => exact absurd rfl hc
  all_goals
    repeat' split at h
    all_goals first | exact hand_over_keeps h | exact finish_keeps h | exact issue_keeps h | cases h

/-- A step of the host. -/
theorem hostStep_moves {s t : State} (h : hostStep s = .next t) : HostMoves s t := by
  simp only [hostStep] at h
  split at h
  · rename_i hp hc hg
    rw [← Host.Outcome.next.inj h]
    exact ⟨(presented_refl s).acts, .inl rfl, fun g => by rw [hp] at g; cases g⟩
  · rename_i bs ps hp hc hg
    obtain ⟨hpr, qs, hh⟩ := presentBytes_presented h
    exact ⟨(presented_host _ hpr).acts, .inl (by rw [hh]), fun g => by rw [hh] at g; rw [hp] at g; cases g⟩
  · rename_i c cs hp hc
    by_cases hi : c = .init
    · subst hi
      obtain ⟨hpr, qs, hh⟩ := exec_presented (i := .settype 0) rfl h
      exact ⟨(presented_host _ hpr).acts, .inr (.inr ⟨by rw [hh]; rfl, hp, by rw [hc]; rfl⟩),
        fun g => by rw [hh] at g; cases g⟩
    · have g := startCall_keeps hi h
      obtain ⟨m, hw, hpr⟩ := g.acts
      exact ⟨⟨m, hw, presented_host _ hpr⟩, .inl g.noinit, fun q => absurd q g.waits⟩
  · exact hostResume_moves h

end Sys2Proof.Laws
end

