-- ==== Sys2Proof/Laws/PerInstr.lean ====
section
/-! SUPPORT. One family of statements about every instruction as syntax: how many bytes its encoding has (R97, R120 to
R122). BUF and TVAL take a byte for each seven bits. -/

namespace Sys2Proof.Laws

/-- The number of bytes of an instruction's encoding. -/
def EncodeLength.bytes : Instr → Nat
  | .select | .deselect | .waitrdy | .rdconfig | .sync | .reservedE | .reservedF => 1
  | .xchg _ | .settype _ => 2
  | .ldt1 tval => 2 + Nat.log 128 tval
  | .sendcmd .. | .sendacmd .. | .cmdN .. | .acmdN .. => 7
  | .recvblk buf _ => 4 + Nat.log 128 buf
  | .sendblk buf _ _ => 5 + Nat.log 128 buf
  | .rdsect _ _ buf | .wrsect _ _ buf => 10 + Nat.log 128 buf
  | .idleclk k => 2 * k
  | .tokenStartSingle | .tokenStartMulti | .tokenStopTran | .dataResponseAccepted _ | .r1Valid _ | .codeNotReady
  | .codeRespTimeout | .codeRefused | .ready => 1
  | .cmd0 .. | .cmd1 _ | .cmd8 .. | .cmd9 _ | .cmd10 _ | .cmd12 _ | .cmd16 _ | .cmd17 _ | .cmd18 _ | .cmd24 _
  | .cmd25 _ | .cmd55 _ | .cmd58 _ | .acmd13 _ | .acmd41 _ | .frameAny .. => 6

/-- Every encoding has the number of bytes of its form, whatever the parameters, and at least one where the instruction
is one operation. -/
def EncodeLength.Statement (i : Instr) : Prop :=
  (∀ p, (encode p i).length = EncodeLength.bytes i) ∧ (i.pseudo = false → 1 ≤ EncodeLength.bytes i)

theorem EncodeLength.select : EncodeLength.Statement .select :=
  ⟨fun _ => rfl, fun _ => by simp [EncodeLength.bytes]⟩
theorem EncodeLength.deselect : EncodeLength.Statement .deselect :=
  ⟨fun _ => rfl, fun _ => by simp [EncodeLength.bytes]⟩
theorem EncodeLength.xchg (txb : Byte) :
    EncodeLength.Statement (.xchg txb) :=
  ⟨fun _ => rfl, fun _ => by simp [EncodeLength.bytes]⟩
theorem EncodeLength.waitrdy : EncodeLength.Statement .waitrdy :=
  ⟨fun _ => rfl, fun _ => by simp [EncodeLength.bytes]⟩
theorem EncodeLength.sendcmd (idx : BitVec 6) (arg : BitVec 32) (rlen : Byte) :
    EncodeLength.Statement (.sendcmd idx arg rlen) :=
  ⟨fun _ => rfl, fun _ => by simp [EncodeLength.bytes]⟩
theorem EncodeLength.sendacmd (idx : BitVec 6) (arg : BitVec 32) (rlen : Byte) :
    EncodeLength.Statement (.sendacmd idx arg rlen) :=
  ⟨fun _ => rfl, fun _ => by simp [EncodeLength.bytes]⟩
theorem EncodeLength.recvblk (buf : Nat) (len : BitVec 16) :
    EncodeLength.Statement (.recvblk buf len) :=
  ⟨fun _ => by simp [encode, Decode.bytes16, numberBytes_length, EncodeLength.bytes]; omega,
    fun _ => by simp [EncodeLength.bytes]; omega⟩
theorem EncodeLength.sendblk (buf : Nat) (len : BitVec 16) (tok : Byte) :
    EncodeLength.Statement (.sendblk buf len tok) :=
  ⟨fun _ => by simp [encode, Decode.bytes16, numberBytes_length, EncodeLength.bytes]; omega,
    fun _ => by simp [EncodeLength.bytes]; omega⟩
theorem EncodeLength.rdsect (sect cnt : BitVec 32) (buf : Nat) :
    EncodeLength.Statement (.rdsect sect cnt buf) :=
  ⟨fun _ => by simp [encode, Encode.sector, Machine.bytes32, numberBytes_length, EncodeLength.bytes]; omega,
    fun _ => by simp [EncodeLength.bytes]; omega⟩
theorem EncodeLength.wrsect (sect cnt : BitVec 32) (buf : Nat) :
    EncodeLength.Statement (.wrsect sect cnt buf) :=
  ⟨fun _ => by simp [encode, Encode.sector, Machine.bytes32, numberBytes_length, EncodeLength.bytes]; omega,
    fun _ => by simp [EncodeLength.bytes]; omega⟩
theorem EncodeLength.rdconfig : EncodeLength.Statement .rdconfig :=
  ⟨fun _ => rfl, fun _ => by simp [EncodeLength.bytes]⟩
theorem EncodeLength.settype (typein : BitVec 3) :
    EncodeLength.Statement (.settype typein) :=
  ⟨fun _ => rfl, fun _ => by simp [EncodeLength.bytes]⟩
theorem EncodeLength.sync : EncodeLength.Statement .sync :=
  ⟨fun _ => rfl, fun _ => by simp [EncodeLength.bytes]⟩
theorem EncodeLength.ldt1 (tval : Nat) :
    EncodeLength.Statement (.ldt1 tval) :=
  ⟨fun _ => by simp [encode, numberBytes_length, EncodeLength.bytes]; omega,
    fun _ => by simp [EncodeLength.bytes]; omega⟩
theorem EncodeLength.reservedE : EncodeLength.Statement .reservedE :=
  ⟨fun _ => rfl, fun _ => by simp [EncodeLength.bytes]⟩
theorem EncodeLength.reservedF : EncodeLength.Statement .reservedF :=
  ⟨fun _ => rfl, fun _ => by simp [EncodeLength.bytes]⟩
theorem EncodeLength.cmdN (n : BitVec 6) (arg : BitVec 32) (rlen : Byte) :
    EncodeLength.Statement (.cmdN n arg rlen) :=
  ⟨fun _ => rfl, fun _ => by simp [EncodeLength.bytes]⟩
theorem EncodeLength.acmdN (n : BitVec 6) (arg : BitVec 32) (rlen : Byte) :
    EncodeLength.Statement (.acmdN n arg rlen) :=
  ⟨fun _ => rfl, fun _ => by simp [EncodeLength.bytes]⟩
theorem EncodeLength.idleclk (k : Nat) : EncodeLength.Statement (.idleclk k) := by
  refine ⟨fun _ => ?_, nofun⟩
  show (List.replicate k [Encode.operationByte 0x2#4, 0xFF#8]).flatten.length = 2 * k
  simp [Nat.mul_comm]
theorem EncodeLength.cmd0 (arg : BitVec 32) (crc : BitVec 7) :
    EncodeLength.Statement (.cmd0 arg crc) :=
  ⟨fun _ => rfl, fun _ => by simp [EncodeLength.bytes]⟩
theorem EncodeLength.cmd1 (arg : BitVec 32) :
    EncodeLength.Statement (.cmd1 arg) :=
  ⟨fun _ => rfl, fun _ => by simp [EncodeLength.bytes]⟩
theorem EncodeLength.cmd8 (arg : BitVec 32) (crc : BitVec 7) :
    EncodeLength.Statement (.cmd8 arg crc) :=
  ⟨fun _ => rfl, fun _ => by simp [EncodeLength.bytes]⟩
theorem EncodeLength.cmd9 (arg : BitVec 32) :
    EncodeLength.Statement (.cmd9 arg) :=
  ⟨fun _ => rfl, fun _ => by simp [EncodeLength.bytes]⟩
theorem EncodeLength.cmd10 (arg : BitVec 32) :
    EncodeLength.Statement (.cmd10 arg) :=
  ⟨fun _ => rfl, fun _ => by simp [EncodeLength.bytes]⟩
theorem EncodeLength.cmd12 (arg : BitVec 32) :
    EncodeLength.Statement (.cmd12 arg) :=
  ⟨fun _ => rfl, fun _ => by simp [EncodeLength.bytes]⟩
theorem EncodeLength.cmd16 (arg : BitVec 32) :
    EncodeLength.Statement (.cmd16 arg) :=
  ⟨fun _ => rfl, fun _ => by simp [EncodeLength.bytes]⟩
theorem EncodeLength.cmd17 (arg : BitVec 32) :
    EncodeLength.Statement (.cmd17 arg) :=
  ⟨fun _ => rfl, fun _ => by simp [EncodeLength.bytes]⟩
theorem EncodeLength.cmd18 (arg : BitVec 32) :
    EncodeLength.Statement (.cmd18 arg) :=
  ⟨fun _ => rfl, fun _ => by simp [EncodeLength.bytes]⟩
theorem EncodeLength.cmd24 (arg : BitVec 32) :
    EncodeLength.Statement (.cmd24 arg) :=
  ⟨fun _ => rfl, fun _ => by simp [EncodeLength.bytes]⟩
theorem EncodeLength.cmd25 (arg : BitVec 32) :
    EncodeLength.Statement (.cmd25 arg) :=
  ⟨fun _ => rfl, fun _ => by simp [EncodeLength.bytes]⟩
theorem EncodeLength.cmd55 (arg : BitVec 32) :
    EncodeLength.Statement (.cmd55 arg) :=
  ⟨fun _ => rfl, fun _ => by simp [EncodeLength.bytes]⟩
theorem EncodeLength.cmd58 (arg : BitVec 32) :
    EncodeLength.Statement (.cmd58 arg) :=
  ⟨fun _ => rfl, fun _ => by simp [EncodeLength.bytes]⟩
theorem EncodeLength.acmd13 (arg : BitVec 32) :
    EncodeLength.Statement (.acmd13 arg) :=
  ⟨fun _ => rfl, fun _ => by simp [EncodeLength.bytes]⟩
theorem EncodeLength.acmd41 (arg : BitVec 32) :
    EncodeLength.Statement (.acmd41 arg) :=
  ⟨fun _ => rfl, fun _ => by simp [EncodeLength.bytes]⟩
theorem EncodeLength.frameAny (idx : BitVec 6) (arg : BitVec 32) (trailer : BitVec 7) :
    EncodeLength.Statement (.frameAny idx arg trailer) :=
  ⟨fun _ => rfl, fun _ => by simp [EncodeLength.bytes]⟩
theorem EncodeLength.tokenStartSingle : EncodeLength.Statement .tokenStartSingle :=
  ⟨fun _ => rfl, fun _ => by simp [EncodeLength.bytes]⟩
theorem EncodeLength.tokenStartMulti : EncodeLength.Statement .tokenStartMulti :=
  ⟨fun _ => rfl, fun _ => by simp [EncodeLength.bytes]⟩
theorem EncodeLength.tokenStopTran : EncodeLength.Statement .tokenStopTran :=
  ⟨fun _ => rfl, fun _ => by simp [EncodeLength.bytes]⟩
theorem EncodeLength.dataResponseAccepted (high : BitVec 4) :
    EncodeLength.Statement (.dataResponseAccepted high) :=
  ⟨fun _ => rfl, fun _ => by simp [EncodeLength.bytes]⟩
theorem EncodeLength.r1Valid (flags : BitVec 7) :
    EncodeLength.Statement (.r1Valid flags) :=
  ⟨fun _ => rfl, fun _ => by simp [EncodeLength.bytes]⟩
theorem EncodeLength.codeNotReady : EncodeLength.Statement .codeNotReady :=
  ⟨fun _ => rfl, fun _ => by simp [EncodeLength.bytes]⟩
theorem EncodeLength.codeRespTimeout : EncodeLength.Statement .codeRespTimeout :=
  ⟨fun _ => rfl, fun _ => by simp [EncodeLength.bytes]⟩
theorem EncodeLength.codeRefused : EncodeLength.Statement .codeRefused :=
  ⟨fun _ => rfl, fun _ => by simp [EncodeLength.bytes]⟩
theorem EncodeLength.ready : EncodeLength.Statement .ready :=
  ⟨fun _ => rfl, fun _ => by simp [EncodeLength.bytes]⟩

end Sys2Proof.Laws
end

