-- ==== Sys2Proof/Laws/Registers.lean ====
section
/-! SUPPORT. RECVBLK into the registers of RDCONFIG, and the part of RDCONFIG every card type shares. -/

namespace Sys2Proof.Laws

open Sys2Proof.Machine Sys2Proof.Safety

/-- A register with the bytes `bs` written from index `k`. -/
def setBytes {n : Nat} : Nat → List Byte → Vector Byte n → Vector Byte n
  | _, [], v => v
  | k, b :: bs, v => setBytes (k + 1) bs (v.setIfInBounds k b)

theorem setBytes_toList {n : Nat} (k : Nat) (bs : List Byte) (v : Vector Byte n) (h : k + bs.length ≤ n) :
    (setBytes k bs v).toList = v.toList.take k ++ (bs ++ v.toList.drop (k + bs.length)) := by
  induction bs generalizing k v with
  | nil => simp [setBytes]
  | cons b bs ih =>
    simp only [List.length_cons] at h
    rw [setBytes, ih (k + 1) _ (by omega)]
    have hl : v.toList.length = n := by simp
    have e : (v.setIfInBounds k b).toList = v.toList.set k b := by simp
    rw [e, List.take_add_one, List.take_set_of_le (le_refl k), List.getElem?_set_self (by omega),
      List.drop_set_of_lt (by omega)]
    simp [Nat.add_assoc, Nat.add_comm 1]

theorem storePayload_cid (k : Nat) (bs : List Byte) (s : State) :
    storePayload .cid k bs s = { s with conf := { s.conf with cid := setBytes k bs s.conf.cid } } := by
  induction bs generalizing k s with
  | nil => rfl
  | cons b bs ih => rw [storePayload, ih]; rfl

theorem storePayload_csd (k : Nat) (bs : List Byte) (s : State) :
    storePayload .csd k bs s = { s with conf := { s.conf with csd := setBytes k bs s.conf.csd } } := by
  induction bs generalizing k s with
  | nil => rfl
  | cons b bs ih => rw [storePayload, ih]; rfl

theorem storePayload_sdstatus (k : Nat) (bs : List Byte) (s : State) :
    storePayload .sdstatus k bs s = { s with conf := { s.conf with sdstatus := setBytes k bs s.conf.sdstatus } } := by
  induction bs generalizing k s with
  | nil => rfl
  | cons b bs ih => rw [storePayload, ih]; rfl

/-- RDCONFIG steps 1 and 2 to the decoding of the CSD, every command accepted and every block arriving (R301). -/
theorem rdconfig_registers (o ci cs : Answer) (b₁ b₂ : Block) (rest : List Byte) (k : List Pos) (s : State)
    (hp : s.phase = .rcStart :: k) (ht : boundsOk s.cfg = true) (hm : 4 ≤ s.resp.length)
    (ho : o.fits s.cfg 4 = true) (ho0 : o.r1 = 0#8) (hci : ci.fits s.cfg 0 = true) (hci0 : ci.r1 = 0#8)
    (h₁ : b₁.fits s.cfg 16 = true) (hcs : cs.fits s.cfg 0 = true) (hcs0 : cs.r1 = 0#8)
    (h₂ : b₂.fits s.cfg 16 = true)
    (hq : s.rxq = o.bytes ++ (ci.bytes ++ ((b₁.bytes s.cfg) ++ (cs.bytes ++ ((b₂.bytes s.cfg) ++ rest))))) :
    Reaches s { s with
      phase := .rcDecode :: k, sel := true, t1 := s.cfg.recvTokenTicks, t2 := s.cfg.waitReadyTicks
      resp := o.extra ++ s.resp.drop 4, rxq := rest
      conf := { s.conf with
        ocr := #v[o.extra.getD 0 0, o.extra.getD 1 0, o.extra.getD 2 0, o.extra.getD 3 0]
        cid := setBytes 0 b₁.payload s.conf.cid
        csd := setBytes 0 b₂.payload s.conf.csd }
      trace := exchanged s.cfg.fill (b₂.bytes s.cfg) (cs.trace s.cfg s.cfg.idxSendCsd 0
        (exchanged s.cfg.fill (b₁.bytes s.cfg) (ci.trace s.cfg s.cfg.idxSendCid 0
          (o.trace s.cfg s.cfg.idxReadOcr 0 (selected s))))) } := by
  have hl : o.extra.length = 4 := by simpa using (answer_fits ho).2.2.2.2.2
  obtain ⟨x₀, x₁, x₂, x₃, eo⟩ : ∃ x₀ x₁ x₂ x₃, o.extra = [x₀, x₁, x₂, x₃] := by
    match h : o.extra, hl with
    | [w, x, y, z], _ => exact ⟨w, x, y, z, rfl⟩
  have ei : ci.extra = [] := by simpa using (answer_fits hci).2.2.2.2.2
  have es : cs.extra = [] := by simpa using (answer_fits hcs).2.2.2.2.2
  refine reaches_step hp (t := { s with phase := .scSelect s.cfg.idxReadOcr 0 4 :: .rcWaitOcr :: k })
    (by simp [seqAt, callSub, hp]) ?_
  refine reaches_trans (sendcmd_answered o _ _ _ _ _ _ rfl hq ho ht (by simpa using hm)) ?_
  refine reaches_trans (returned rfl rfl) ?_
  refine reaches_step (p := .rcOcr o.r1) (k := k) rfl
    (t := { s with
      phase := .scSelect s.cfg.idxSendCid 0 0 :: .rcWaitCidCmd :: k, sel := true, t2 := s.cfg.waitReadyTicks
      resp := o.extra ++ s.resp.drop 4, rxq := ci.bytes ++ ((b₁.bytes s.cfg) ++ (cs.bytes ++ ((b₂.bytes s.cfg) ++ rest)))
      conf := { s.conf with
        ocr := #v[o.extra.getD 0 0, o.extra.getD 1 0, o.extra.getD 2 0, o.extra.getD 3 0] }
      trace := o.trace s.cfg s.cfg.idxReadOcr 0 (selected s) })
    (by simp [seqAt, ho0, configGuard, accepted, callSub, copyOcr, selected, eo]) ?_
  refine reaches_trans (sendcmd_answered ci _ _ _ _ _ _ rfl rfl hci ht (by simp)) ?_
  refine reaches_trans (returned rfl rfl) ?_
  refine reaches_step (p := .rcCidCmd ci.r1) (k := k) rfl
    (by simp only [seqAt, hci0, configGuard, accepted, beq_self_eq_true, if_true, callSub]; rfl) ?_
  refine reaches_trans (recvblk_received b₁ _ .cid 16 _ _ rfl rfl h₁ ht) ?_
  rw [storePayload_cid]
  refine reaches_trans (returned rfl rfl) ?_
  refine reaches_step (p := .rcCid Config.ok) (k := k) rfl
    (by simp only [seqAt, configGuard, beq_self_eq_true, if_true, callSub]; rfl) ?_
  refine reaches_trans (sendcmd_answered cs _ _ _ _ _ _ rfl rfl hcs ht (by simp)) ?_
  refine reaches_trans (returned rfl rfl) ?_
  refine reaches_step (p := .rcCsdCmd cs.r1) (k := k) rfl
    (by simp only [seqAt, hcs0, configGuard, accepted, beq_self_eq_true, if_true, callSub]; rfl) ?_
  refine reaches_trans (recvblk_received b₂ _ .csd 16 _ _ rfl rfl h₂ ht) ?_
  rw [storePayload_csd]
  refine reaches_trans (returned rfl rfl) ?_
  refine reaches_step (p := .rcCsd Config.ok) (k := k) rfl
    (by simp only [seqAt, configGuard, beq_self_eq_true, if_true, goTo]; rfl) ?_
  simpa [ei, es, selected] using reaches_refl _

end Sys2Proof.Laws
end

