-- ==== Sys2Proof/Laws/Sequencer.lean ====
section
/-! SUPPORT. All a step of the running block can do, said once: where PHASE goes from each position (`Succ`), and what
the step keeps (`Kept`). Invariants are derived from these two, with no position unfolded again. -/

namespace Sys2Proof.Laws

open Sys2Proof.Machine Sys2Proof.Safety

/-- The records that may stand where `p` stood after one step of the sequencer that is no return. -/
inductive Succ : Pos → List Pos → Prop
  | selAssert : Succ .selAssert [.ret .select Config.ok]
  | xcXchg {b v} : Succ (.xcXchg b) [.ret .xchg v]
  | stSet {ty} : Succ (.stSet ty) [.ret .settype Config.ok]
  | ldLoad {v} : Succ (.ldLoad v) [.ret .ldt1 Config.ok]
  | csOff {q v} : Succ (.csOff q v) [.csDummy q v]
  | csDummy {q v} : Succ (.csDummy q v) [.ret q v]
  | wrLoad : Succ .wrLoad [.wrXchg]
  | wrXchg {rx} : Succ .wrXchg [.wrTest rx]
  | wrDone {rx v} : Succ (.wrTest rx) [.ret .waitrdy v]
  | wrAgain {rx} : Succ (.wrTest rx) [.wrXchg]
  | scSelect {idx arg rlen} : Succ (.scSelect idx arg rlen) [.wrLoad, .scWaitRdy idx arg rlen]
  | scNotReady {idx arg rlen rdy v} : Succ (.scReady idx arg rlen rdy) [.ret .sendcmd v]
  | scReady {idx arg rlen rdy fs} : Succ (.scReady idx arg rlen rdy) [.scFrame rlen fs]
  | scFrame {rlen fs gs} : Succ (.scFrame rlen fs) [.scFrame rlen gs]
  | scFramed {rlen fs i} : Succ (.scFrame rlen fs) [.scPoll rlen i]
  | scPoll {rlen i j r} : Succ (.scPoll rlen i) [.scPollTest rlen j r]
  | scAnswered {rlen i r v} : Succ (.scPollTest rlen i r) [.scExtra rlen 0 v]
  | scTimeout {rlen i r v} : Succ (.scPollTest rlen i r) [.ret .sendcmd v]
  | scAgain {rlen i r} : Succ (.scPollTest rlen i r) [.scPoll rlen i]
  | scExtra {rlen i r} : Succ (.scExtra rlen i r) [.scExtra rlen (i + 1) r]
  | scDone {rlen i r} : Succ (.scExtra rlen i r) [.ret .sendcmd r]
  | saStart {idx arg rlen c} : Succ (.saStart idx arg rlen) [.scSelect c 0 0, .saWaitPrefix idx arg rlen]
  | saRejected {idx arg rlen r} : Succ (.saPrefix idx arg rlen r) [.ret .sendacmd r]
  | saPrefix {idx arg rlen r} : Succ (.saPrefix idx arg rlen r) [.scSelect idx arg rlen, .saWaitCmd]
  | rbLoad {d len} : Succ (.rbLoad d len) [.rbXchg d len]
  | rbXchg {d len rx} : Succ (.rbXchg d len) [.rbTest d len rx]
  | rbFailed {d len rx} : Succ (.rbTest d len rx) [.ret .recvblk Config.fail]
  | rbToken {d len rx} : Succ (.rbTest d len rx) [.rbData d len 0]
  | rbAgain {d len rx} : Succ (.rbTest d len rx) [.rbXchg d len]
  | rbData {d len k} : Succ (.rbData d len k) [.rbData d len (k + 1)]
  | rbStored {d len k} : Succ (.rbData d len k) [.rbCrc1]
  | rbCrc1 : Succ .rbCrc1 [.rbCrc2]
  | rbCrc2 : Succ .rbCrc2 [.ret .recvblk Config.ok]
  | sbTok {buf len tok} : Succ (.sbTok buf len tok) [.sbData buf len 0]
  | sbData {buf len k} : Succ (.sbData buf len k) [.sbData buf len (k + 1)]
  | sbSent {buf len k} : Succ (.sbData buf len k) [.sbCrc1]
  | sbCrc1 : Succ .sbCrc1 [.sbCrc2]
  | sbCrc2 : Succ .sbCrc2 [.sbResp]
  | sbResp {rx} : Succ .sbResp [.sbRespTest rx]
  | sbAccepted {rx} : Succ (.sbRespTest rx) [.sbLoad]
  | sbRejected {rx} : Succ (.sbRespTest rx) [.ret .sendblk Config.fail]
  | sbLoad : Succ .sbLoad [.sbXchg]
  | sbXchg {rx} : Succ .sbXchg [.sbTest rx]
  | sbDone {rx v} : Succ (.sbTest rx) [.ret .sendblk v]
  | sbAgain {rx} : Succ (.sbTest rx) [.sbXchg]
  | txOne {d sect cnt buf c a} : Succ (.txStart d sect cnt buf) [.scSelect c a 0, .txWaitSingle d buf]
  | txMany {d sect cnt buf c a} : Succ (.txStart d sect cnt buf) [.scSelect c a 0, .txWaitMulti d cnt buf]
  | txSingle {c d buf r} : Succ (.txSingle d buf r) [blockCall c d false buf, .txWaitOne d]
  | txSingleFailed {d buf r} : Succ (.txSingle d buf r) [.csOff (dirProc d) Config.fail]
  | txMulti {c d cnt buf r} : Succ (.txMulti d cnt buf r) [blockCall c d true buf, .txWaitBlock d cnt buf]
  | txMultiFailed {d cnt buf r} : Succ (.txMulti d cnt buf r) [.csOff (dirProc d) Config.fail]
  | txLoopEnd {d rem q v left} : Succ (.txBlock d rem q v) [loopEnd d left]
  | txBlock {c d rem q v left p} : Succ (.txBlock d rem q v) [blockCall c d true p, .txWaitBlock d left p]
  | rdStop {rem c} : Succ (.rdStop rem) [.scSelect c 0 0, .rdWaitStop rem]
  | rdStopped {rem} : Succ (.rdStopped rem) [.wrLoad, .txWaitRdy .read rem]
  | wsStop {rem} : Succ (.wsStop rem) [.wrLoad, .txWaitRdy .write rem]
  | txRdy {d rem v r} : Succ (.txRdy d rem v) [.csOff (dirProc d) r]
  | rcStart {c} : Succ .rcStart [.scSelect c 0 4, .rcWaitOcr]
  | rcOcr {r c} : Succ (.rcOcr r) [.scSelect c 0 0, .rcWaitCidCmd]
  | rcOcrFailed {r} : Succ (.rcOcr r) [.csOff .rdconfig Config.fail]
  | rcCidCmd {r} : Succ (.rcCidCmd r) [.rbLoad .cid 16, .rcWaitCid]
  | rcCidCmdFailed {r} : Succ (.rcCidCmd r) [.csOff .rdconfig Config.fail]
  | rcCid {v c} : Succ (.rcCid v) [.scSelect c 0 0, .rcWaitCsdCmd]
  | rcCidFailed {v} : Succ (.rcCid v) [.csOff .rdconfig Config.fail]
  | rcCsdCmd {r} : Succ (.rcCsdCmd r) [.rbLoad .csd 16, .rcWaitCsd]
  | rcCsdCmdFailed {r} : Succ (.rcCsdCmd r) [.csOff .rdconfig Config.fail]
  | rcCsd {v} : Succ (.rcCsd v) [.rcDecode]
  | rcCsdFailed {v} : Succ (.rcCsd v) [.csOff .rdconfig Config.fail]
  | rcDecode : Succ .rcDecode [.rcErase]
  | rcStatus {c} : Succ .rcErase [.saStart c 0 1, .rcWaitSdCmd]
  | rcErase {v} : Succ .rcErase [.csOff .rdconfig v]
  | rcSdCmd {r} : Succ (.rcSdCmd r) [.rbLoad .sdstatus 16, .rcWaitSd]
  | rcSdCmdFailed {r} : Succ (.rcSdCmd r) [.csOff .rdconfig Config.fail]
  | rcSd {v} : Succ (.rcSd v) [.rcSkip 0]
  | rcSdFailed {v} : Succ (.rcSd v) [.csOff .rdconfig Config.fail]
  | rcSkip {i} : Succ (.rcSkip i) [.rcSkip (i + 1)]
  | rcSkipped {i} : Succ (.rcSkip i) [.rcUnit]
  | rcUnit : Succ .rcUnit [.csOff .rdconfig Config.ok]
  | syStart : Succ .syStart [.wrLoad, .syWait]

/-- Chip-select after a step at a position: three positions assert it, one releases it (R141, R142). -/
def selAfter : Pos → Bool → Bool
  | .selAssert, _ | .scSelect .., _ | .syStart, _ => true
  | .csOff .., _ => false
  | _, b => b

/-- The registers a position of RECVBLK may store into. -/
def storesRegister : Pos → Bool
  | .rbData .cid .. | .rbData .csd .. | .rbData .sdstatus .. => true
  | _ => false

/-- What a timer holds after a step of the block: what it held, or a load. -/
def Reloaded (p : Params) (before after : Nat) : Prop := after = before ∨ ∃ v, after = timerValue p v

theorem reloaded_lt {p : Params} {a b : Nat} (h : Reloaded p a b) (ha : a < 2 ^ p.timerWidth) : b < 2 ^ p.timerWidth := by
  obtain rfl | ⟨v, rfl⟩ := h
  · exact ha
  · exact Nat.mod_lt _ (Nat.two_pow_pos _)

/-- What a step at position `p` keeps, PHASE apart. -/
structure Kept (p : Pos) (s t : State) : Prop where
  cfg : t.cfg = s.cfg
  ops : t.ops = s.ops
  host : t.host = s.host
  events : t.events = s.events
  resp : t.resp.length = s.resp.length
  sel : t.sel = selAfter p s.sel
  mem : t.mem = s.mem ∨ ∃ a v, t.mem = (memWrite s a v).mem
  cardType : (∀ ty, p ≠ .stSet ty) → t.cardType = s.cardType
  conf : procOf p ≠ .rdconfig → storesRegister p = false → t.conf = s.conf
  size : t.conf.sectorSize = s.conf.sectorSize ∨ t.conf.sectorSize = BitVec.ofNat 16 s.cfg.sectorBytes
  decoded : p = .rcDecode → t.conf.sectorSize = BitVec.ofNat 16 s.cfg.sectorBytes
  t1 : Reloaded s.cfg s.t1 t.t1
  t2 : Reloaded s.cfg s.t2 t.t2

theorem xchg_frame (b : Byte) (s : State) :
    ∃ q d tr, (xchg b s).2 = { s with rxq := q, drawn := d, trace := tr } := by
  simp only [xchg]; split <;> exact ⟨_, _, _, rfl⟩

/-- The step moves the top record. -/
theorem moved {p q : Pos} {k : List Pos} {s o t : State} (hp : s.phase = p :: k) (h : Succ p [q]) (ht : goTo q o = t)
    (ho : o.phase = s.phase) (hk : Kept p s o) : ∃ top, Succ p top ∧ t.phase = top ++ k ∧ Kept p s t := by
  subst ht
  exact ⟨_, h, by simp [goTo, ho, hp], { hk with }⟩

/-- The step calls a procedure. -/
theorem called {p c w : Pos} {k : List Pos} {s o t : State} (hp : s.phase = p :: k) (h : Succ p [c, w])
    (ht : callSub c w o = t) (ho : o.phase = s.phase) (hk : Kept p s o) :
    ∃ top, Succ p top ∧ t.phase = top ++ k ∧ Kept p s t := by
  subst ht
  exact ⟨_, h, by simp [callSub, ho, hp], { hk with }⟩

theorem kept_io {p : Pos} {s : State} (q : List Byte) (d : Nat) (tr : List BusEvent) (a b : Nat)
    (rs : List Byte) (hl : rs.length = s.resp.length) (hs : selAfter p s.sel = s.sel) (hd : p ≠ .rcDecode)
    (ha : Reloaded s.cfg s.t1 a := by exact .inl rfl) (hb : Reloaded s.cfg s.t2 b := by exact .inl rfl) :
    Kept p s { s with rxq := q, drawn := d, trace := tr, t1 := a, t2 := b, resp := rs } :=
  ⟨rfl, rfl, rfl, rfl, hl, hs.symm, .inl rfl, fun _ => rfl, fun _ _ => rfl, .inl rfl, fun h => absurd h hd, ha, hb⟩

theorem kept_self {p : Pos} {s : State} (hs : selAfter p s.sel = s.sel) (hd : p ≠ .rcDecode) : Kept p s s :=
  kept_io _ _ _ _ _ _ rfl hs hd

theorem kept_xchg {p : Pos} {s : State} (b : Byte) (hs : selAfter p s.sel = s.sel) (hd : p ≠ .rcDecode) :
    Kept p s (xchg b s).2 := by
  obtain ⟨q, d, tr, h⟩ := xchg_frame b s
  rw [h]; exact kept_io _ _ _ _ _ _ rfl hs hd

theorem lookFor_cases {pl : Place} {rx : Byte} {o : Result} {s t : State} (hpl : pl ≠ .host)
    (h : lookFor pl rx o s = .next t) : (∃ i, Decode.atWire s.cfg pl rx = .ok i ∧ exec i s = .next t) ∨ o = .next t := by
  have hd : decode s.cfg pl [rx] = Decode.atWire s.cfg pl rx := by cases pl <;> first | exact absurd rfl hpl | rfl
  simp only [lookFor, hd] at h
  split at h
  · rename_i i hi; exact .inl ⟨i, hi, h⟩
  · exact .inr h

/-- A step that writes PHASE only. -/
theorem moved_only {p q : Pos} {k : List Pos} {s t : State} (hp : s.phase = p :: k) (h : Succ p [q])
    (ht : .next (goTo q s) = (.next t : Result)) (hs : selAfter p s.sel = s.sel) (hd : p ≠ .rcDecode) :
    ∃ top, Succ p top ∧ t.phase = top ++ k ∧ Kept p s t :=
  moved hp h (Host.Outcome.next.inj ht) rfl (kept_self hs hd)

/-- A step that calls a procedure and does nothing else. -/
theorem called_only {p c w : Pos} {k : List Pos} {s t : State} (hp : s.phase = p :: k) (h : Succ p [c, w])
    (ht : .next (callSub c w s) = (.next t : Result)) (hs : selAfter p s.sel = s.sel) (hd : p ≠ .rcDecode) :
    ∃ top, Succ p top ∧ t.phase = top ++ k ∧ Kept p s t :=
  called hp h (Host.Outcome.next.inj ht) rfl (kept_self hs hd)

/-- A step that is one exchange. -/
theorem moved_xchg {p q : Pos} {k : List Pos} {s t : State} (b : Byte) (hp : s.phase = p :: k) (h : Succ p [q])
    (ht : .next (goTo q (xchg b s).2) = (.next t : Result)) (hs : selAfter p s.sel = s.sel) (hd : p ≠ .rcDecode) :
    ∃ top, Succ p top ∧ t.phase = top ++ k ∧ Kept p s t :=
  moved hp h (Host.Outcome.next.inj ht) (xchg_phase _ _) (kept_xchg _ hs hd)

/-- A step that runs an element writing PHASE only. -/
theorem moved_by {p q : Pos} {k : List Pos} {s t : State} (hp : s.phase = p :: k) (h : Succ p [q])
    (ht : .next { s with phase := q :: k } = (.next t : Result)) (hs : selAfter p s.sel = s.sel) (hd : p ≠ .rcDecode) :
    ∃ top, Succ p top ∧ t.phase = top ++ k ∧ Kept p s t := by
  refine moved_only hp h ?_ hs hd
  rw [← ht]; simp [goTo, hp]

theorem kept_timers {p : Pos} {s : State} (a b : Nat) (hs : selAfter p s.sel = s.sel) (hd : p ≠ .rcDecode)
    (ha : Reloaded s.cfg s.t1 a) (hb : Reloaded s.cfg s.t2 b) :
    Kept p s { s with t1 := a, t2 := b } :=
  ⟨rfl, rfl, rfl, rfl, rfl, hs.symm, .inl rfl, fun _ => rfl, fun _ _ => rfl, .inl rfl, fun h => absurd h hd, ha, hb⟩

theorem configGuard_cases {b : Bool} {go s t : State} (h : configGuard b go s = .next t) :
    go = t ∨ .next (goTo (.csOff .rdconfig Config.fail) s) = (.next t : Result) := by
  simp only [configGuard] at h
  split at h
  · exact .inl (Host.Outcome.next.inj h)
  · exact .inr h

/-- The meanings of the rows at the positions that meet them, as moves. -/
theorem transmitted {p : Pos} {tok : Byte} {buf len : Nat} {k : List Pos} {s t : State} (hp : s.phase = p :: k)
    (h : Succ p [.sbData buf len 0]) (ht : .next (sendToken tok buf len k s) = (.next t : Result))
    (hs : selAfter p s.sel = s.sel) (hd : p ≠ .rcDecode) : ∃ top, Succ p top ∧ t.phase = top ++ k ∧ Kept p s t := by
  refine moved_xchg tok hp h ?_ hs hd
  rw [← ht]
  simp [goTo, sendToken, hp]

theorem decodeSectorCount_frame (s : State) :
    ∃ n d, decodeSectorCount s = { s with conf := { s.conf with sectorCount := n }, drawn := d } := by
  simp only [decodeSectorCount]
  split
  · exact ⟨_, _, rfl⟩
  · split <;> exact ⟨_, _, rfl⟩

theorem decodeEraseSdv1_frame (s : State) :
    ∃ n d, decodeEraseSdv1 s = { s with conf := { s.conf with eraseBlock := n }, drawn := d } := by
  simp only [decodeEraseSdv1, setEraseBlock]
  split <;> exact ⟨_, _, rfl⟩

theorem storeByte_kept {d : Dest} {len j : Nat} {s o : State} (v : Byte) (k : Nat) (hm : o.mem = s.mem)
    (h : Kept (.rbData d len j) s o) :
    Kept (.rbData d len j) s (storeByte d k v o) := by
  obtain ⟨h1, h2, h3, h4, h5, h6, h7, h8, h9, h10, h11, h12, h13⟩ := h
  cases d
  case buffer a =>
    refine ⟨h1, h2, h3, h4, h5, h6, .inr ⟨a + k, v, ?_⟩, h8, h9, h10, h11, h12, h13⟩
    simp [storeByte, memWrite, bufAddr, h1, hm]
  all_goals exact ⟨h1, h2, h3, h4, h5, h6, h7, h8, nofun, h10, nofun, h12, h13⟩

/-- One step of the running block: a return, or a move to a successor that keeps the rest. -/
theorem seqAt_cases {p : Pos} {k : List Pos} {s t : State} (hp : s.phase = p :: k) (h : seqAt p s = .next t) :
    (∃ q v, p = .ret q v ∧ returnValue v s = .next t) ∨ ∃ top, Succ p top ∧ t.phase = top ++ k ∧ Kept p s t := by
  cases p
  case ret q v => exact .inl ⟨q, v, rfl, h⟩
  all_goals right
  case selAssert =>
    have h := Host.Outcome.next.inj h
    rw [csAssert_eq] at h
    exact moved hp .selAssert h rfl ⟨rfl, rfl, rfl, rfl, rfl, rfl, .inl rfl, fun _ => rfl, fun _ _ => rfl, .inl rfl, nofun, .inl rfl, .inl rfl⟩
  case xcXchg b => exact moved_xchg _ hp .xcXchg h rfl nofun
  case stSet ty =>
    exact moved hp .stSet (Host.Outcome.next.inj h) rfl ⟨rfl, rfl, rfl, rfl, rfl, rfl, .inl rfl, fun h => absurd rfl (h _), fun _ _ => rfl, .inl rfl, nofun, .inl rfl, .inl rfl⟩
  case ldLoad v =>
    exact moved (o := { s with t1 := timerValue s.cfg v }) hp .ldLoad (Host.Outcome.next.inj h) rfl
      (kept_timers _ _ rfl nofun (.inr ⟨_, rfl⟩) (.inl rfl))
  case csOff q v =>
    have hk : (csLevelOff s).phase = s.phase ∧ Kept (.csOff q v) s (csLevelOff s) := by
      simp only [csLevelOff]; split
      · exact ⟨rfl, rfl, rfl, rfl, rfl, rfl, rfl, .inl rfl, fun _ => rfl, fun _ _ => rfl, .inl rfl, nofun, .inl rfl, .inl rfl⟩
      · rename_i g
        exact ⟨rfl, rfl, rfl, rfl, rfl, rfl, (show s.sel = false by simpa using g), .inl rfl, fun _ => rfl, fun _ _ => rfl, .inl rfl, nofun, .inl rfl, .inl rfl⟩
    exact moved (o := csLevelOff s) hp .csOff (Host.Outcome.next.inj h) hk.1 hk.2
  case csDummy q v => exact moved_xchg _ hp .csDummy h rfl nofun
  case wrLoad =>
    exact moved (o := { s with t2 := timerValue s.cfg s.cfg.waitReadyTicks }) hp .wrLoad
      (Host.Outcome.next.inj h) rfl (kept_timers _ _ rfl nofun (.inl rfl) (.inr ⟨_, rfl⟩))
  case wrXchg => exact moved_xchg _ hp .wrXchg h rfl nofun
  case wrTest rx =>
    obtain ⟨i, hi, h⟩ | h := lookFor_cases (pl := .busy) nofun h
    · simp only [Decode.atWire] at hi
      split at hi <;> cases hi
      simp only [exec, execReady, hp] at h
      exact moved_by hp .wrDone h rfl nofun
    · simp only [pollAgain] at h
      split at h
      · exact moved_only hp .wrDone h rfl nofun
      · exact moved_only hp .wrAgain h rfl nofun
  case scSelect idx arg rlen =>
    have h := Host.Outcome.next.inj h
    rw [csAssert_eq] at h
    exact called hp .scSelect h rfl ⟨rfl, rfl, rfl, rfl, rfl, rfl, .inl rfl, fun _ => rfl, fun _ _ => rfl, .inl rfl, nofun, .inl rfl, .inl rfl⟩
  case syStart =>
    have h := Host.Outcome.next.inj h
    rw [csAssert_eq] at h
    exact called hp .syStart h rfl ⟨rfl, rfl, rfl, rfl, rfl, rfl, .inl rfl, fun _ => rfl, fun _ _ => rfl, .inl rfl, nofun, .inl rfl, .inl rfl⟩
  case scReady idx arg rlen rdy =>
    simp only [seqAt] at h
    split at h
    · simp only [exec, execCodeNotReady, hp] at h
      exact moved_by hp .scNotReady h rfl nofun
    · exact moved_only hp .scReady h rfl nofun
  case scFrame rlen rest =>
    cases rest with
    | nil => exact moved_only hp .scFramed h rfl nofun
    | cons b bs => exact moved_xchg _ hp .scFrame h rfl nofun
  case scPoll rlen i => exact moved_xchg _ hp .scPoll h rfl nofun
  case scPollTest rlen i r =>
    obtain ⟨i, hi, h⟩ | h := lookFor_cases (pl := .response) nofun h
    · simp only [Decode.atWire] at hi
      split at hi <;> cases hi
      simp only [exec, execR1Valid, hp] at h
      exact moved_by hp .scAnswered h rfl nofun
    · simp only [pollResponse] at h
      split at h
      · simp only [exec, execCodeRespTimeout, hp] at h
        exact moved_by hp .scTimeout h rfl nofun
      · exact moved_only hp .scAgain h rfl nofun
  case scExtra rlen i r =>
    simp only [seqAt, extraByte] at h
    split at h
    · obtain ⟨q, d, tr, hx⟩ := xchg_frame s.cfg.fill s
      have h := Host.Outcome.next.inj h
      simp only [xchgFill, hx] at h
      exact moved hp .scExtra h rfl ⟨rfl, rfl, rfl, rfl, by simp, rfl, .inl rfl, fun _ => rfl, fun _ _ => rfl, .inl rfl, nofun, .inl rfl, .inl rfl⟩
    · exact moved_only hp .scDone h rfl nofun
  case saStart idx arg rlen => exact called_only hp .saStart h rfl nofun
  case saPrefix idx arg rlen r =>
    simp only [seqAt] at h
    split at h
    · exact moved_only hp .saRejected h rfl nofun
    · exact called_only hp .saPrefix h rfl nofun
  case rbLoad d len =>
    exact moved hp .rbLoad (Host.Outcome.next.inj h) rfl
      (kept_timers _ _ rfl nofun (.inr ⟨_, rfl⟩) (.inl rfl))
  case rbXchg d len => exact moved_xchg _ hp .rbXchg h rfl nofun
  case rbTest d len rx =>
    simp only [seqAt] at h
    split at h
    · exact moved_only hp .rbFailed h rfl nofun
    · obtain ⟨i, hi, h⟩ | h := lookFor_cases (pl := .tokenWait) nofun h
      · simp only [Decode.atWire] at hi
        split at hi <;> cases hi
        simp only [exec, execTokenStartSingle, hp] at h
        exact moved_by hp .rbToken h rfl nofun
      · simp only [pollAgain] at h
        split at h
        · exact moved_only hp .rbFailed h rfl nofun
        · exact moved_only hp .rbAgain h rfl nofun
  case rbData d len j =>
    simp only [seqAt, recvData] at h
    split at h
    · exact moved hp .rbData (Host.Outcome.next.inj h) (by cases d <;> exact xchg_phase _ _)
        (storeByte_kept _ _ (xchg_mem _ _) (kept_xchg _ rfl nofun))
    · exact moved_only hp .rbStored h rfl nofun
  case rbCrc1 => exact moved_xchg _ hp .rbCrc1 h rfl nofun
  case rbCrc2 => exact moved_xchg _ hp .rbCrc2 h rfl nofun
  case sbTok buf len tok =>
    obtain ⟨i, hi, h⟩ | h := lookFor_cases (pl := .startToken) nofun h
    · simp only [Decode.atWire] at hi
      split at hi
      · cases hi
        simp only [exec, execTokenStartSingle, hp] at h
        exact transmitted hp .sbTok h rfl nofun
      · split at hi <;> cases hi
        simp only [exec, execTokenStartMulti, hp] at h
        exact transmitted hp .sbTok h rfl nofun
    · rw [hp] at h
      exact transmitted hp .sbTok h rfl nofun
  case sbData buf len j =>
    simp only [seqAt, sendData] at h
    split at h
    · exact moved_xchg _ hp .sbData h rfl nofun
    · exact moved_only hp .sbSent h rfl nofun
  case sbCrc1 => exact moved_xchg _ hp .sbCrc1 h rfl nofun
  case sbCrc2 => exact moved_xchg _ hp .sbCrc2 h rfl nofun
  case sbResp => exact moved_xchg _ hp .sbResp h rfl nofun
  case sbRespTest rx =>
    obtain ⟨i, hi, h⟩ | h := lookFor_cases (pl := .dataResponse) nofun h
    · simp only [Decode.atWire] at hi
      split at hi <;> cases hi
      simp only [exec, execDataResponseAccepted, hp] at h
      exact moved_by hp .sbAccepted h rfl nofun
    · exact moved_only hp .sbRejected h rfl nofun
  case sbLoad =>
    exact moved hp .sbLoad (Host.Outcome.next.inj h) rfl
      (kept_timers _ _ rfl nofun (.inr ⟨_, rfl⟩) (.inl rfl))
  case sbXchg => exact moved_xchg _ hp .sbXchg h rfl nofun
  case sbTest rx =>
    obtain ⟨i, hi, h⟩ | h := lookFor_cases (pl := .busy) nofun h
    · simp only [Decode.atWire] at hi
      split at hi <;> cases hi
      simp only [exec, execReady, hp] at h
      exact moved_by hp .sbDone h rfl nofun
    · simp only [pollAgain] at h
      split at h
      · exact moved_only hp .sbDone h rfl nofun
      · exact moved_only hp .sbAgain h rfl nofun
  case txStart d sect cnt buf =>
    simp only [seqAt, transferStart] at h
    split at h
    · exact called_only hp .txOne h rfl nofun
    · exact called_only hp .txMany h rfl nofun
  case txSingle d buf r =>
    simp only [seqAt] at h
    split at h
    · exact called_only hp .txSingle h rfl nofun
    · exact moved_only hp .txSingleFailed h rfl nofun
  case txMulti d cnt buf r =>
    simp only [seqAt] at h
    split at h
    · exact called_only hp .txMulti h rfl nofun
    · exact moved_only hp .txMultiFailed h rfl nofun
  case txBlock d rem q v =>
    simp only [seqAt, transferBlock] at h
    split at h
    · exact moved_only hp .txLoopEnd h rfl nofun
    · split at h
      · exact moved_only hp .txLoopEnd h rfl nofun
      · exact called_only hp .txBlock h rfl nofun
  case rdStop rem => exact called_only hp .rdStop h rfl nofun
  case rdStopped rem => exact called_only hp .rdStopped h rfl nofun
  case wsStop rem =>
    simp only [seqAt, exec, execTokenStopTran, hp] at h
    refine called hp .wsStop (o := (xchg s.cfg.tokenStopTran s).2) ?_ (xchg_phase _ _) (kept_xchg _ rfl nofun)
    rw [← Host.Outcome.next.inj h]
    simp [callSub, hp]
  case txRdy d rem v => exact moved_only hp .txRdy h rfl nofun
  case rcStart => exact called_only hp .rcStart h rfl nofun
  case rcOcr r =>
    obtain h | h := configGuard_cases h
    · exact called hp .rcOcr h rfl ⟨rfl, rfl, rfl, rfl, rfl, rfl, .inl rfl, fun _ => rfl, nofun, .inl rfl, nofun, .inl rfl, .inl rfl⟩
    · exact moved_only hp .rcOcrFailed h rfl nofun
  case rcCidCmd r =>
    obtain h | h := configGuard_cases h
    · exact called hp .rcCidCmd h rfl (kept_self rfl nofun)
    · exact moved_only hp .rcCidCmdFailed h rfl nofun
  case rcCid v =>
    obtain h | h := configGuard_cases h
    · exact called hp .rcCid h rfl (kept_self rfl nofun)
    · exact moved_only hp .rcCidFailed h rfl nofun
  case rcCsdCmd r =>
    obtain h | h := configGuard_cases h
    · exact called hp .rcCsdCmd h rfl (kept_self rfl nofun)
    · exact moved_only hp .rcCsdCmdFailed h rfl nofun
  case rcCsd v =>
    obtain h | h := configGuard_cases h
    · exact moved hp .rcCsd h rfl (kept_self rfl nofun)
    · exact moved_only hp .rcCsdFailed h rfl nofun
  case rcDecode =>
    obtain ⟨n, d, hd⟩ := decodeSectorCount_frame (decodeSectorSize s)
    have h := Host.Outcome.next.inj h
    rw [hd] at h
    exact moved hp .rcDecode h rfl ⟨rfl, rfl, rfl, rfl, rfl, rfl, .inl rfl, fun _ => rfl, fun h => absurd rfl h, .inr rfl, fun _ => rfl, .inl rfl, .inl rfl⟩
  case rcErase =>
    simp only [seqAt, eraseStep] at h
    split at h
    · exact called_only hp .rcStatus h rfl nofun
    · exact called_only hp .rcStatus h rfl nofun
    · exact moved hp .rcErase (Host.Outcome.next.inj h) rfl ⟨rfl, rfl, rfl, rfl, rfl, rfl, .inl rfl, fun _ => rfl, fun h => absurd rfl h, .inl rfl, nofun, .inl rfl, .inl rfl⟩
    · obtain ⟨n, d, hd⟩ := decodeEraseSdv1_frame s
      rw [hd] at h
      exact moved hp .rcErase (Host.Outcome.next.inj h) rfl ⟨rfl, rfl, rfl, rfl, rfl, rfl, .inl rfl, fun _ => rfl, fun h => absurd rfl h, .inl rfl, nofun, .inl rfl, .inl rfl⟩
    · exact moved_only hp .rcErase h rfl nofun
  case rcSdCmd r =>
    obtain h | h := configGuard_cases h
    · exact called hp .rcSdCmd h rfl (kept_self rfl nofun)
    · exact moved_only hp .rcSdCmdFailed h rfl nofun
  case rcSd v =>
    obtain h | h := configGuard_cases h
    · exact moved hp .rcSd h rfl (kept_self rfl nofun)
    · exact moved_only hp .rcSdFailed h rfl nofun
  case rcSkip i =>
    simp only [seqAt] at h
    split at h
    · exact moved_xchg _ hp .rcSkip h rfl nofun
    · exact moved_only hp .rcSkipped h rfl nofun
  case rcUnit =>
    exact moved hp .rcUnit (Host.Outcome.next.inj h) rfl ⟨rfl, rfl, rfl, rfl, rfl, rfl, .inl rfl, fun _ => rfl, fun h => absurd rfl h, .inl rfl, nofun, .inl rfl, .inl rfl⟩
  all_goals exact nomatch h
end Sys2Proof.Laws
end

