-- ==== Sys2Proof/Laws/Step.lean ====
section
/-! SUPPORT. All one step of the machine can do, said once, and where it cannot fault. -/

namespace Sys2Proof.Laws

open Sys2Proof.Machine Sys2Proof.Safety

/-- A return: the operation completes, or the record below goes on (R40). -/
theorem ret_cases {q v} {k : List Pos} {s t : State} (hp : s.phase = .ret q v :: k) (h : returnValue v s = .next t) :
   (k = [] ∧ t = { s with phase := [], res := v }) ∨ ∃ w k' p, k = w :: k' ∧ resume v w = some p ∧ t = { s with phase := p :: k' } := by
  simp only [returnValue, hp] at h
  cases k with
  | nil => exact .inl ⟨rfl, (Host.Outcome.next.inj h).symm⟩
  | cons w k =>
    simp only at h
    split at h
    · rename_i q' hq; exact .inr ⟨w, k, q', rfl, hq, (Host.Outcome.next.inj h).symm⟩
    · cases h

/-- A step takes an event off, and that event acts. -/
theorem step_cases {s t : State} (h : step s = .next t) : ∃ e es d, nextEvent s = (e, { s with events := es, drawn := d }) ∧
   runEvent e { s with events := es, drawn := d } = .next t := by
  unfold step at h
  have : ∃ e es d, nextEvent s = (e, { s with events := es, drawn := d }) := by
    unfold nextEvent; split <;> exact ⟨_, _, _, rfl⟩
  obtain ⟨e, es, d, he⟩ := this
  rw [he] at h
  exact ⟨e, es, d, he, h⟩

/-- What an event does: one of the five inputs, the host going on, a return, or a move of the running block. -/
theorem run_cases {e : Event} {s t : State} (h : runEvent e s = .next t) :
   (e = .tick ∧ t = tick s) ∨ (e = .reset ∧ t = resetBlock s) ∨ (∃ a v, e = .hostWrite a v ∧ t = memWrite s a v) ∨
   (e = .go ∧ s.phase = [] ∧ HostMoves s t) ∨
   (∃ bs, e = .present bs ∧ Presented s t ∧ ∃ ps, t.host = { s.host with prog := ps }) ∨
   (∃ r v, e = .hostRead r ∧ t = { s with host := { s.host with seen := v } }) ∨
   (e = .go ∧ ∃ q v k, s.phase = .ret q v :: k ∧ returnValue v s = .next t) ∨
   (e = .go ∧ ∃ p k top, s.phase = p :: k ∧ Succ p top ∧ t.phase = top ++ k ∧ Kept p s t) := by
  cases e
  case tick => exact .inl ⟨rfl, (Host.Outcome.next.inj h).symm⟩
  case reset => exact .inr (.inl ⟨rfl, (Host.Outcome.next.inj h).symm⟩)
  case hostWrite a v => exact .inr (.inr (.inl ⟨a, v, rfl, (Host.Outcome.next.inj h).symm⟩))
  case present bs =>
    simp only [runEvent] at h
    split at h
    · have := Host.Outcome.next.inj h
      subst this
      exact .inr (.inr (.inr (.inr (.inl ⟨bs, rfl, presented_refl _, _, rfl⟩))))
    · exact .inr (.inr (.inr (.inr (.inl ⟨bs, rfl, presentBytes_presented h⟩))))
  case hostRead r => exact .inr (.inr (.inr (.inr (.inr (.inl ⟨r, _, rfl, (Host.Outcome.next.inj h).symm⟩)))))
  case go =>
    simp only [runEvent] at h
    split at h
    · simp only [seqStep] at h
      split at h
      · rename_i hb _ hp; simp [busy, hp] at hb
      · rename_i hb p k hp
        rcases seqAt_cases hp h with ⟨q, v, rfl, hr⟩ | ⟨top, h1, h2, h3⟩
        · exact .inr (.inr (.inr (.inr (.inr (.inr (.inl ⟨rfl, q, v, k, hp, hr⟩))))))
        · exact .inr (.inr (.inr (.inr (.inr (.inr (.inr ⟨rfl, p, k, top, hp, h1, h2, h3⟩))))))
    · rename_i hb
      exact .inr (.inr (.inr (.inl ⟨rfl, by simpa [busy] using hb, hostStep_moves h⟩)))

/-- A record that waits goes on at a record of the same procedure that waits for nothing. -/
theorem resume_ok {q : Proc} {v : Byte} {w p : Pos} (hw : waitsFor w = some q) (h : resume v w = some p) :
   topOk p = true ∧ procOf p = procOf w := by
  cases w <;> first | (cases hw; done) | skip
  all_goals (cases h; first | exact ⟨rfl, rfl⟩ | (rename_i d; cases d <;> exact ⟨rfl, rfl⟩))

theorem resume_some (q : Proc) (v : Byte) (w : Pos) (hw : waitsFor w = some q) : ∃ p, resume v w = some p := by
  cases w <;> first | exact ⟨_, rfl⟩ | cases hw

/-- A successor keeps the shape of PHASE. -/
theorem succ_ok {p : Pos} {top : List Pos} (h : Succ p top) (hp : topOk p = true) : 
    (∃ q, top = [q] ∧ topOk q = true ∧ procOf q = procOf p) ∨ 
    ∃ c w, top = [c, w] ∧ topOk c = true ∧ waitsFor w = some (procOf c) ∧ procOf w = procOf p := by
  cases h
  case csOff => exact .inl ⟨_, rfl, hp, rfl⟩
  case csDummy => exact .inl ⟨_, rfl, rfl, rfl⟩
  case txSingle d _ _ | txSingleFailed d _ _ | txMulti d _ _ _ | txMultiFailed d _ _ _ | txLoopEnd d _ _ _ _ | txBlock d _ _ _ _ _ | txRdy d _ _ _ =>
    cases d <;> first | exact .inl ⟨_, rfl, rfl, rfl⟩ | exact .inr ⟨_, _, rfl, rfl, rfl, rfl⟩
  all_goals first | exact .inl ⟨_, rfl, rfl, rfl⟩ | exact .inr ⟨_, _, rfl, rfl, rfl, rfl⟩

theorem after_ok {s t : State} (h : phaseOk s.phase = true) (g : PhaseAfter s t) : phaseOk t.phase = true := by
  rcases g with g | ⟨_, p, hp, g⟩
  · rw [g]; exact h
  · rw [g]; cases hp <;> rfl

/-! ### No fault -/

theorem exec_no_fault (i : Instr) (s : State) (f : Fault) : exec i s ≠ .fault f := by
  cases i <;> first
    | (intro h; cases h)
    | (intro h; simp only [exec, execTokenStartSingle, execTokenStartMulti, execTokenStopTran, execDataResponseAccepted, execR1Valid, execCodeNotReady, execCodeRespTimeout, execCodeRefused, execReady, execIdleclk] at h
       repeat' split at h
       all_goals cases h)

theorem lookFor_fault {pl : Place} {rx : Byte} {o : Result} {s : State} {f : Fault} (h : lookFor pl rx o s = .fault f) : o = .fault f := by
  unfold lookFor at h
  split at h
  · exact absurd h (exec_no_fault _ _ _)
  · exact h

/-- The sequencer does not fault where PHASE has the shape the pseudocode gives it. -/
theorem seqAt_no_fault {p : Pos} {k : List Pos} {s : State} {f : Fault} (hp : s.phase = p :: k) (hok : phaseOk (p :: k) = true) : seqAt p s ≠ .fault f := by
  intro h
  simp only [phaseOk, Bool.and_eq_true] at hok
  cases p
  case ret q v =>
    simp only [seqAt, returnValue, hp] at h
    cases k with
    | nil => cases h
    | cons w k =>
      simp [callersOk] at hok
      obtain ⟨p, hr⟩ := resume_some _ v w hok.2.1
      have hr : resume v w = some p := hr
      simp only [hr] at h
      cases h
  case scWaitRdy | saWaitPrefix | saWaitCmd | txWaitSingle | txWaitOne | txWaitMulti
  | txWaitBlock | rdWaitStop | txWaitRdy | rcWaitOcr | rcWaitCidCmd | rcWaitCid | rcWaitCsdCmd
  | rcWaitCsd | rcWaitSdCmd | rcWaitSd | syWait => (have g := hok.1; cases g)
  all_goals simp only [seqAt] at h
  all_goals try simp only [sendFrame, pollResponse, extraByte, recvData, sendData, transferStart, transferBlock, configGuard, eraseStep, xchgKeep, xchgDrop] at h
  all_goals repeat' split at h
  all_goals first | cases h | exact exec_no_fault _ _ _ h | skip
  all_goals
    have h := lookFor_fault h
    try simp only [pollAgain] at h
    repeat' split at h
    all_goals first | cases h | exact exec_no_fault _ _ _ h

theorem presentBytes_no_fault (bs : List Byte) (s : State) (f : Fault) : presentBytes bs s ≠ .fault f := by
  intro h
  simp only [presentBytes] at h
  split at h
  · exact exec_no_fault _ _ _ h
  · cases h

theorem hostResume_no_fault (q : HostPos) (s : State) (f : Fault) : hostResume q s ≠ .fault f := by
  intro h
  cases q <;> 
    simp only [hostResume, initReset, initProbe, initIfCond, initEcho, initV2Try, initV2Tried, initV2Timer, initV2Ocr,
      initV2Class, initProbed, initLegacyTry, initLegacyTried, initLegacyTimer, initReleased, initRelease, initPowerup,
      initBlocklen, initConfigRead, finishStatus, Machine.finish, issue, look] at h
  all_goals
    repeat' split at h
    all_goals first | exact exec_no_fault _ _ _ h | cases h

theorem hostStep_no_fault (s : State) (f : Fault) : hostStep s ≠ .fault f := by
  intro h
  simp only [hostStep] at h
  split at h
  · cases h
  · exact presentBytes_no_fault _ _ _ h
  · unfold startCall at h
    simp only [finishStatus, Machine.finish, issue] at h
    repeat' split at h
    all_goals first | exact exec_no_fault _ _ _ h | cases h
  · exact hostResume_no_fault _ _ _ h

end Sys2Proof.Laws
end

