-- ==== Sys2Proof/Tests/Slice0.lean ====
section
/-! SUPPORT. The model's own tests: ill-formed terms refused, words written out from the tables decoded, single steps
against the rules and the worked vectors of 95_test_vectors.md, and a witness for the hypotheses of every obligation
that has any. -/

namespace Sys2Proof.Tests

open Sys2Proof.Machine Sys2Proof.Safety

/-- The reset state with a 16-bit buffer address, so that it can be computed with. -/
def idle : State := { State.reset with cfg := { Params.default with addrWidth := 16 } }

/-- An idle block whose transport answers `rx`. -/
def idleRx (rx : List Byte) : State := { idle with rxq := rx }

/-- A block at one position. -/
def running (p : Pos) : State := { idle with phase := [p] }

/-- A block at one position, about to take a step. -/
def going (p : Pos) : State := { running p with events := [.go] }

/-- An idle block whose host stands at a position. -/
def hostAt (p : HostPos) : State := { idle with host := { idle.host with pos := p } }

/-- A host with one call to make. -/
def calling (c : Call) (noinit : Bool) : State := { idle with host := { idle.host with calls := [c], noinit := noinit } }

/-! ### Well-formedness: an ill-formed term for each check -/

theorem test_cmd0_crc_refused : (Instr.cmd0 0 0x4B).wellFormed = false ∧ (Instr.cmd0 0 0x4A).wellFormed = true := by
  decide +kernel

theorem test_cmd8_crc_refused :
    (Instr.cmd8 0x1AA 0).wellFormed = false ∧ (Instr.cmd8 0x1AA 0x43).wellFormed = true := by decide +kernel

theorem test_frame_trailer_refused :
    (Instr.frameAny 3 0 1).wellFormed = false ∧ (Instr.frameAny 3 0 0).wellFormed = true := by decide

theorem test_frame_tabled_index_refused : (Instr.frameAny 17 0 0).wellFormed = false := by decide

/-! ### Decoding: words written out from the encodings of 30_encoding.md -/

/-- R120: operation codes 0000 to 1111, operands zero. -/
theorem test_decode_operations :
    (List.range 16).map (decodeTableWord 8) =
      [some .select, some .deselect, some (.xchg 0), some .waitrdy, some (.sendcmd 0 0 0), some (.sendacmd 0 0 0),
        some (.recvblk 0 0), some (.sendblk 0 0 0), some (.rdsect 0 0 0), some (.wrsect 0 0 0), some .rdconfig,
        some (.settype 0), some .sync, some (.ldt1 0), some .reservedE, some .reservedF] := by decide

/-- R97: 01, the index, the argument, the trailer. -/
theorem test_decode_frames :
    [0x400000000095, 0x410000000001, 0x48000001AA87, 0x490000000001, 0x4A0000000001, 0x4C0000000001, 0x500000020001,
        0x5100000A0001, 0x520000000101, 0x580000000001, 0x590000000001, 0x770000000001, 0x7A0000000001,
        0x4D0000000001, 0x694000000001, 0x7F1234567801].map (decodeTableWord 48) =
      [some (.cmd0 0 0x4A), some (.cmd1 0), some (.cmd8 0x1AA 0x43), some (.cmd9 0), some (.cmd10 0), some (.cmd12 0),
        some (.cmd16 0x200), some (.cmd17 0xA00), some (.cmd18 1), some (.cmd24 0), some (.cmd25 0), some (.cmd55 0),
        some (.cmd58 0), some (.acmd13 0), some (.acmd41 0x40000000), some (.frameAny 0x3F 0x12345678 0)] := by decide

/-- R100, R102, R110 to R112, R114: the one-byte rows. -/
theorem test_decode_bytes :
    [0xFE, 0xFC, 0xFD, 0x25, 0x10, 0x81, 0x82].map (decodeTableWord 8) =
      [some .tokenStartSingle, some .tokenStartMulti, some .tokenStopTran, some (.dataResponseAccepted 2),
        some (.r1Valid 0x10), some .codeNotReady, some .codeRespTimeout] := by decide

/-- R115, R124: 0xFF is ready where the block waits for readiness, refused where it is a result. -/
theorem test_decode_ff :
    decode Params.default .busy [0xFF#8] = .ok .ready ∧ decode Params.default .result [0xFF#8] = .ok .codeRefused := by decide

/-- R122: the pseudo-operations are the words of the operations they stand for. -/
theorem test_decode_pseudo :
    encode Params.default (.cmdN 17 0xA00 0) = [0x04#8, 0x11, 0x00, 0x00, 0x0A, 0x00, 0x00] ∧
      encode Params.default (.acmdN 41 0x40000000 0) = [0x05#8, 0x29, 0x40, 0x00, 0x00, 0x00, 0x00] ∧
      encode Params.default (.idleclk 2) = [0x02#8, 0xFF, 0x02, 0xFF] := by decide

/-- R120: operands of every width, most significant byte first; BUF = 0x1000 and TVAL = 100 in groups of seven bits, the
least significant first: 0x1000 = 0 + 128 * 32 (log entry 1). -/
theorem test_decode_operands :
    decode Params.default .host [0x08#8, 0, 0, 0, 5, 0, 0, 0, 2, 0x80, 0x20] = .ok (.rdsect 5 2 0x1000) ∧
      decode Params.default .host [0x07#8, 0xB4, 0x24, 0x02, 0x00, 0xFC] = .ok (.sendblk 0x1234 0x200 0xFC) ∧
      decode Params.default .host [0x0D#8, 0x64] = .ok (.ldt1 100) ∧
      decode Params.default .host [0x0D#8, 0xFF] = .error .truncated := by decide

/-- R91, R97: a frame ends in a one, and its two command bits are 01. -/
theorem test_decode_refusals :
    decode Params.default .host [0x51#8, 0, 0, 0, 0, 0x00] = .error .noStopBit ∧ decode Params.default .host [0xD1#8, 0, 0, 0, 0, 0x01] = .error .noSuchForm ∧
      decode Params.default .host [0x0B#8, 0x08] = .error .spareBits ∧ decode Params.default .host [0x04#8, 0] = .error .truncated := by decide

/-- Step runs the fetched word as the first instruction after reset. -/
theorem test_fetch_runs :
    step (State.reset.withFetchWord 8 0x3) = exec .waitrdy State.reset ∧
      step (State.reset.withFetchWord 48 0x5100000A0001) = exec (.cmd17 0xA00) State.reset := ⟨rfl, rfl⟩

/-! ### Single steps -/

/-- R147: T1 is loaded with TVAL. -/
theorem test_ldt1 : seqStep (running (.ldLoad 100)) = .next { running (.ret .ldt1 1#8) with t1 := 100 } := rfl

/-- R45, R121: with TIMER_WIDTH 20 a timer holds more than 16 bits. -/
theorem test_ldt1_wide :
    (∃ t, exec (.ldt1 0x12345) { idle with cfg := { Params.default with timerWidth := 20 } } = .next t ∧
      t.ops.tval = 0x12345 ∧ t.phase = [.ldLoad 0x12345]) ∧
    ∃ t, seqStep { running (.ldLoad 0x12345) with cfg := { Params.default with timerWidth := 20 } } = .next t ∧
      t.t1 = 0x12345 := ⟨⟨_, rfl, rfl, rfl⟩, ⟨_, rfl, rfl⟩⟩

/-- Vector T12: SETTYPE 5 is refused, RES = 0xFF. -/
theorem test_settype_refused :
    exec (.settype 5) idle = .next { idle with ops := { idle.ops with op := 0xB, typein := 5 }, res := 0xFF#8 } := by
  rfl

/-- Vector T10: SETTYPE 4 writes SDv2 high capacity. -/
theorem test_settype_writes :
    seqStep (running (.stSet 4)) = .next { running (.ret .settype 1#8) with cardType := .sdv2hc } := rfl

/-- R124: RLEN 5 is refused with RESP_MAX = 4. -/
theorem test_rlen_refused : ∃ t, exec (.sendcmd 0 0 5) idle = .next t ∧ t.res = 0xFF#8 ∧ t.phase = [] := ⟨_, rfl, rfl, rfl⟩

/-- R124: the count 0, and a buffer one byte too long. -/
theorem test_sector_refused :
    (∃ t, exec (.rdsect 0 0 0) idle = .next t ∧ t.res = 0xFF#8 ∧ t.phase = []) ∧
      ∃ t, exec (.wrsect 0 1 0xFE01) idle = .next t ∧ t.res = 0xFF#8 ∧ t.phase = [] :=
  ⟨⟨_, rfl, rfl, rfl⟩, ⟨_, rfl, rfl, rfl⟩⟩

/-- R124: the reserved codes. -/
theorem test_reserved_refused :
    (∃ t, exec .reservedE idle = .next t ∧ t.res = 0xFF#8 ∧ t.phase = []) ∧
      ∃ t, exec .reservedF idle = .next t ∧ t.res = 0xFF#8 ∧ t.phase = [] := ⟨⟨_, rfl, rfl, rfl⟩, ⟨_, rfl, rfl, rfl⟩⟩

/-- R143: the exchange of XCHG 0xA5 against 0x3C (vector T5). -/
theorem test_xchg :
    seqStep { running (.xcXchg 0xA5#8) with rxq := [0x3C#8] } =
      .next { running (.ret .xchg 0x3C#8) with trace := [.exchange 0xA5 0x3C] } := rfl

/-- R142: CS(release) with chip-select released already adds no level event (vector T4). -/
theorem test_release_idle :
    seqStep (running (.csOff .deselect 1#8)) = .next (running (.csDummy .deselect 1#8)) := rfl

/-- R146: a timer at zero stays there. -/
theorem test_tick_floor : (tick { idle with t1 := 0, t2 := 1 }).t1 = 0 ∧ (tick { idle with t1 := 0, t2 := 1 }).t2 = 0 := by
  decide

/-- R152: the byte is tested before the timer (vector W4). -/
theorem test_ready_before_timer : seqStep (running (.wrTest 0xFF#8)) = .next (running (.ret .waitrdy 1#8)) := rfl

/-- R152: T2 at zero ends the wait (vector W3). -/
theorem test_wait_timeout : seqStep (running (.wrTest 0x00#8)) = .next (running (.ret .waitrdy 0#8)) := rfl

/-- R176: 0x82 after the eighth byte with bit 7 set (vector S4). -/
theorem test_response_timeout :
    seqStep (running (.scPollTest 0 0 0xFF#8)) = .next (running (.ret .sendcmd 0x82#8)) := rfl

/-- R173: 0x81 where the card was not ready (vector S5). -/
theorem test_not_ready :
    seqStep (running (.scReady 17 0 0 0#8)) = .next (running (.ret .sendcmd 0x81#8)) := rfl

/-- R201: a prefix response above 1 is the result (vector A2). -/
theorem test_prefix_rejected :
    seqStep (running (.saPrefix 41 0 0 0x05#8)) = .next (running (.ret .sendacmd 0x05#8)) := rfl

/-- R63: the byte address of sector 5, and the sector itself on a high-capacity card. -/
theorem test_card_address : cardAddress Params.default .sdv1 5 = 0xA00#32 ∧
    cardAddress Params.default .sdv2hc 5 = 5#32 := by decide

/-- R281: the received byte of a rejected data response (vector SB of L2.9: low nibble 0xB). -/
theorem test_data_rejected : seqStep (running (.sbRespTest 0xEB#8)) = .next (running (.ret .sendblk 0#8)) := rfl

/-- R272: under START_TOKEN_STRICT another byte ends the wait at once. -/
theorem test_strict :
    seqStep { running (.rbTest (.buffer 0) 512 0x08#8) with
      t1 := 5, cfg := { Params.default with addrWidth := 16, startTokenStrict := true } } =
      .next { running (.ret .recvblk 0#8) with
        t1 := 5, cfg := { Params.default with addrWidth := 16, startTokenStrict := true } } := rfl

/-- R67, R271: the payload byte k goes to BUF + k. -/
theorem test_payload_stored :
    seqStep { running (.rbData (.buffer 0x100) 2 1) with rxq := [0x34#8] } =
      .next { running (.rbData (.buffer 0x100) 2 2) with mem := [(0x101, 0x34)], trace := [.exchange 0xFF 0x34] } := rfl

/-- R315, L1.1: C_SIZE 0x3A3F gives 15269888 sectors. -/
theorem test_sector_count_v2 :
    sectorCountV2 #v[0x40, 0, 0, 0, 0, 0, 0, 0x00, 0x3A, 0x3F, 0, 0, 0, 0, 0, 0] = 0x00E90000#32 := by decide

/-- R331: the allocation-unit nibble 9 gives 16 shifted by 9. -/
theorem test_erase_status : eraseFromStatus ((Vector.replicate 64 (0 : Byte)).set 10 0x90) = 8192#32 := by decide

/-- R228, R354: the call `init` starts with SETTYPE 0. -/
theorem test_init_clears : ∃ t, hostStep (calling .init false) = .next t ∧ t.host.noinit = true ∧ t.phase = [.stSet 0] :=
  ⟨_, rfl, rfl, rfl⟩

/-- R352: RES = 0xFF of a transfer is ParameterError. -/
theorem test_transfer_code : transferCode 0xFF#8 = .parameterError ∧ transferCode 1#8 = .okay ∧ transferCode 0#8 = .error := by
  decide

/-- R357: without WRITE_SUPPORT the call `write` does not exist. -/
theorem test_no_write_call :
    hostStep { calling (.write 0 1 1) false with cfg := { Params.default with writeSupport := false } } =
      .refused .noSuchCall := rfl

/-- R11, R220: T1 is read in a step of its own, and the step after it acts on the value read. -/
theorem test_timer_read : hostStep { hostAt (.v2Res 0x01) with t1 := 3 } = .next { hostAt (.v2Timer 3) with t1 := 3 } ∧
    ∃ t, hostStep (hostAt (.v2Timer 0)) = .next t ∧ t.phase = [.csOff .deselect 1] := ⟨rfl, _, rfl, rfl⟩

/-- R358, R360: get-OCR lays its four bytes in the caller's buffer in index order. -/
theorem test_ocr_handed_over :
    ∃ t, hostStep { calling (.ioctl 7 16) false with
        cfg := { Params.default with addrWidth := 16 }
        conf := { CardConfig.zero with ocr := #v[0x80, 0xFF, 0x40, 0] } } = .next t ∧
      t.mem = [(16, 0x80#8), (17, 0xFF#8), (18, 0x40#8)] ∧ t.host.ret = some (.bytes [0x80, 0xFF, 0x40, 0]) :=
  ⟨_, rfl, rfl, rfl⟩

/-- R43, R74: BUSYFLAG read while the block is busy; nothing moves. -/
theorem test_read_busyflag :
    stepOn (.hostRead .busyflag) (running .wrXchg) =
      .next { running .wrXchg with host := { idle.host with seen := some (.number 1) } } := rfl

/-! ### Witnesses: states and operands that meet the hypotheses of the obligations -/

/-- A card that answers at once, with the extra bytes `ex`. -/
def answer (r : Byte) (ex : List Byte) : Answer := ⟨[], List.replicate 6 0xFF#8, [], r, ex⟩

/-- A card that reads busy once, and answers at the last of the eight polled bytes. -/
def lateAnswer (r : Byte) (ex : List Byte) : Answer :=
  ⟨[0x00#8], List.replicate 6 0xFF#8, List.replicate 7 0xFF#8, r, ex⟩

/-- A block of `n` bytes after one idle byte. -/
def block (n : Nat) : Block := ⟨[0xFF#8], List.replicate n 0x5A#8, [0x12#8, 0x34]⟩

/-- A block of `n` bytes accepted. -/
def taken (n : Nat) : Taken := ⟨List.replicate (n + 3) 0xFF#8, 0xE5#8, [0x00#8]⟩

theorem block_fits (rx : List Byte) (n : Nat) : (block n).fits (idleRx rx).cfg n = true := by
  simp [block, Block.fits, idleRx, idle, Params.default]

theorem taken_fits (rx : List Byte) (n : Nat) : (taken n).fits (idleRx rx).cfg n = true := by
  simp [taken, Taken.fits, idleRx, idle, Params.default]

theorem idleRx_rxq (rx : List Byte) : (idleRx rx).rxq = rx := rfl

theorem idleRx_ready (rx : List Byte) : busy (idleRx rx) = false ∧ boundsOk (idleRx rx).cfg = true := by
  exact ⟨rfl, rfl⟩

theorem refusedBy_cfg (s t : State) (i : Instr) (h : s.cfg = t.cfg) : refusedBy s i = refusedBy t i := by
  cases i <;> simp [refusedBy, h]

theorem idleRx_refuses (rx : List Byte) : refusedBy (idleRx rx) (.rdsect 0 1 0xFE00) = false ∧
    refusedBy (idleRx rx) (.rdsect 0 2 0xFC00) = false ∧ refusedBy (idleRx rx) (.wrsect 0 1 0xFE00) = false ∧
    refusedBy (idleRx rx) (.wrsect 0 2 0xFC00) = false := by
  simp only [refusedBy_cfg (idleRx rx) idle _ rfl]
  decide

theorem idle_meets : busy idle = false ∧ boundsOk idle.cfg = true ∧ idle.resp.length = idle.cfg.respMax ∧
    4 ≤ idle.cfg.respMax ∧ idle.cfg.startTokenStrict = false ∧ Memory.wf idle.mem = true := by decide

/-- Of an argument at its greatest, of a BUF that takes three groups of seven bits, and of TVAL wider than sixteen. -/
theorem witness_DecodeEncodeRoundTrip : distinctBytes Params.default = true ∧
    ((Instr.cmd8 0x1AA 0x43).wellFormed = true ∧ (Instr.cmd8 0x1AA 0x43).pseudo = false) ∧
      ((Instr.frameAny 63 0xFFFFFFFF 0).wellFormed = true ∧ (Instr.frameAny 63 0xFFFFFFFF 0).pseudo = false) ∧
      ((Instr.recvblk 0xFFFF 512).wellFormed = true ∧ (Instr.recvblk 0xFFFF 512).pseudo = false) ∧
      ((Instr.ldt1 0x12345).wellFormed = true ∧ (Instr.ldt1 0x12345).pseudo = false) := by
  decide +kernel

/-- Buffers that end exactly at the top of the buffer space; the largest type. -/
theorem witness_OperationsAccepted : busy idle = false ∧ refusedBy idle (.recvblk 0xFE00 0x200) = false ∧
    refusedBy idle (.recvblk 0xFFFF 0) = false ∧ refusedBy idle (.sendblk 0xFFFF 1 0xFE) = false ∧
    refusedBy idle (.rdsect 0 1 0xFE00) = false ∧ refusedBy idle (.wrsect 0 128 0) = false ∧
    refusedBy idle (.settype 4) = false := by decide

theorem witness_CommandsAccepted : busy idle = false ∧ refusedBy idle (.sendcmd 8 0 4) = false ∧
    commandOf (.sendcmd 8 0 4) = some (8, 0, 4) ∧ refusedBy idle (.cmd58 0) = false ∧
    commandOf (.cmd58 0) = some (58, 0, 4) ∧ refusedBy idle (.acmd13 0) = false ∧
    appCommandOf (.acmd13 0) = some (13, 0, 1) ∧ commandOf (.frameAny 3 7 0) = some (3, 7, 0) := by decide

theorem witness_RefusedOperations : (place .reservedE = .host ∧ busy idle = false ∧ refusedBy idle .reservedE = true) ∧
    refusedBy idle (.settype 5) = true ∧ refusedBy idle (.sendcmd 0 0 5) = true ∧
    refusedBy idle (.recvblk 0xFFFF 2) = true ∧ refusedBy idle (.rdsect 0 0 0) = true ∧
    (place (.idleclk 1) = .host ∧ refusedBy idle (.idleclk 1) = false ∧ Instr.idleclk 1 ≠ .idleclk 0) := by decide

theorem witness_BusyIgnoresOperations : place .select = .host ∧ busy (running .wrXchg) = true := by decide

theorem witness_WireElementsAct :
    (running (.rbTest .cid 16 0xFE)).phase = [.rbTest .cid 16 0xFE] ∧
      (running (.sbTok 0 512 0xFE)).phase = [.sbTok 0 512 0xFE] ∧ (running (.wsStop 0)).phase = [.wsStop 0] ∧
      (running (.sbRespTest 0x05)).phase = [.sbRespTest 0x05] ∧
      (running (.scPollTest 4 7 0x00)).phase = [.scPollTest 4 7 0x00] ∧
      (running (.scReady 0 0 0 0)).phase = [.scReady 0 0 0 0] ∧ idle.phase = [] ∧
      (running (.wrTest 0xFF)).phase = [.wrTest 0xFF] ∧ (running (.sbTest 0xFF)).phase = [.sbTest 0xFF] := by decide

theorem witness_InstructionFrame : (∃ t, exec .select idle = .next t ∧ place .select = .host) ∧
    (∃ t, exec .ready (running (.wrTest 0xFF)) = .next t ∧ place .ready ≠ .host) ∧
    ∃ t, exec .tokenStopTran (running (.wsStop 0)) = .next t ∧ t.trace ≠ idle.trace :=
  ⟨⟨_, rfl, rfl⟩, ⟨_, rfl, nofun⟩, ⟨_, rfl, nofun⟩⟩

theorem witness_ExchangeEvent : (idleRx [0x3C]).rxq = [0x3C] ∧ idle.rxq = [] := by decide

/-- Of the runs that need an idle block only, chip-select either way. -/
theorem witness_SmallRuns : busy idle = false ∧ busy { idle with sel := true } = false := by decide

/-- The greatest operand of sixteen bits. -/
theorem witness_LoadTimerRun : busy idle = false ∧ 0xFFFF < 2 ^ idle.cfg.timerWidth := by decide

theorem witness_SetTypeRun : busy idle = false ∧ (4#3).toNat ≤ 4 ∧ 4 < (5#3).toNat := by decide

theorem witness_PseudoOperations : busy (idleRx [1, 2, 3]) = false ∧ (idleRx [1, 2, 3]).host.pos = .free ∧
    (idleRx [1, 2, 3]).host.calls = [] ∧ (idleRx [1, 2, 3]).host.prog = [] ∧
    (idleRx [1, 2, 3]).rxq = [1, 2] ++ [3] ∧ ([1, 2] : List Byte).length = 2 := by decide

theorem witness_WaitReadyRun : ∃ s : State, busy s = false ∧ boundsOk s.cfg = true ∧ (∀ b ∈ [0x00#8], b ≠ 0xFF#8) ∧
    s.rxq = [0x00] ++ 0xFF :: [9] := ⟨idleRx [0, 0xFF, 9], by decide⟩

/-- As many ticks as the timer was loaded with. -/
theorem witness_WaitReadyTimeout : ∃ s : State, busy s = false ∧ boundsOk s.cfg = true ∧
    (∀ x ∈ [0x00#8], x ≠ 0xFF#8) ∧ 0x7F#8 ≠ 0xFF#8 ∧ s.rxq = [0x00] ++ 0x7F :: [] ∧ s.cfg.waitReadyTicks ≤ 50 :=
  ⟨idleRx [0, 0x7F], by decide⟩

/-- A card that becomes ready, and one that does not until as many ticks as the timer was loaded with. -/
theorem witness_SyncRun :
    (∃ s : State, busy s = false ∧ boundsOk s.cfg = true ∧ (∀ b ∈ [0x00#8], b ≠ 0xFF#8) ∧
      s.rxq = [0x00] ++ 0xFF :: 9 :: []) ∧
    ∃ s : State, busy s = false ∧ boundsOk s.cfg = true ∧ (∀ x ∈ [0x00#8], x ≠ 0xFF#8) ∧ 0x7F#8 ≠ 0xFF#8 ∧
      s.rxq = [0x00] ++ 0x7F :: 9 :: [] ∧ s.cfg.waitReadyTicks ≤ 50 :=
  ⟨⟨idleRx [0, 0xFF, 9], by decide⟩, ⟨idleRx [0, 0x7F, 9], by decide⟩⟩

theorem witness_PolledByteBeforeTimer : (running (.wrTest 0)).phase = [.wrTest 0] ∧
    (running (.sbTest 0)).phase = [.sbTest 0] ∧ (running (.rbTest .csd 16 8)).phase = [.rbTest .csd 16 8] := by decide

/-- A timer at one, the least that keeps each loop going. -/
theorem witness_NoTicksNoEnd :
    (∃ s : State, s.rxq = [0x00, 0xFE] ++ [3] ∧ s.phase = [.wrXchg] ∧ s.t2 ≠ 0 ∧ ∀ b ∈ [0x00#8, 0xFE], b ≠ 0xFF#8) ∧
    (∃ s : State, s.rxq = [0x00, 0xFE] ++ [3] ∧ s.phase = [.sbXchg] ∧ s.t1 ≠ 0 ∧ ∀ b ∈ [0x00#8, 0xFE], b ≠ 0xFF#8) ∧
    ∃ s : State, s.rxq = [0x00, 0xFF] ++ [3] ∧ s.phase = [.rbXchg (.buffer 0) 512] ∧ s.t1 ≠ 0 ∧
      s.cfg.startTokenStrict = false ∧ ∀ b ∈ [0x00#8, 0xFF], b ≠ s.cfg.tokenStartSingle :=
  ⟨⟨{ running .wrXchg with rxq := [0, 0xFE, 3], t2 := 1 }, by decide⟩,
    ⟨{ running .sbXchg with rxq := [0, 0xFE, 3], t1 := 1 }, by decide⟩,
    ⟨{ running (.rbXchg (.buffer 0) 512) with rxq := [0, 0xFF, 3], t1 := 1 }, by decide⟩⟩

/-- An answer at the last polled byte, RLEN = RESP_MAX; and a frame row. -/
theorem witness_CommandAnswered :
    (∃ s : State, commandOf (.sendcmd 8 0x1AA 4) = some (8, 0x1AA, 4) ∧ busy s = false ∧ (4#8).toNat ≤ s.cfg.respMax ∧
      s.resp.length = s.cfg.respMax ∧ boundsOk s.cfg = true ∧ (lateAnswer 1 [0, 0, 1, 0xAA]).fits s.cfg 4 = true ∧
      s.rxq = (lateAnswer 1 [0, 0, 1, 0xAA]).bytes ++ []) ∧
    ∃ s : State, commandOf (.cmd17 0xA00) = some (17, 0xA00, 0) ∧ busy s = false ∧ (0#8).toNat ≤ s.cfg.respMax ∧
      s.resp.length = s.cfg.respMax ∧ boundsOk s.cfg = true ∧ (answer 0 []).fits s.cfg 0 = true ∧
      s.rxq = (answer 0 []).bytes ++ [] :=
  ⟨⟨idleRx (lateAnswer 1 [0, 0, 1, 0xAA]).bytes, by decide⟩, ⟨idleRx (answer 0 []).bytes, by decide⟩⟩

theorem witness_CommandUnanswered : ∃ s : State, commandOf (.cmd17 0) = some (17, 0, 0) ∧ busy s = false ∧
    (0#8).toNat ≤ s.cfg.respMax ∧ boundsOk s.cfg = true ∧ (∀ b ∈ [0x00#8], b ≠ 0xFF#8) ∧
    (List.replicate 6 0xFF#8).length = 6 ∧ (List.replicate 8 0x80#8).length = s.cfg.r1Polls ∧
    (∀ b ∈ List.replicate 8 0x80#8, b.getLsbD 7 = true) ∧
    s.rxq = [0x00] ++ 0xFF :: (List.replicate 6 0xFF ++ (List.replicate 8 0x80 ++ [])) :=
  ⟨idleRx ([0x00] ++ 0xFF :: (List.replicate 6 0xFF ++ (List.replicate 8 0x80 ++ []))), by decide⟩

theorem witness_CommandNotReady : ∃ s : State, commandOf (.cmdN 17 0 0) = some (17, 0, 0) ∧ busy s = false ∧
    (0#8).toNat ≤ s.cfg.respMax ∧ boundsOk s.cfg = true ∧ (∀ x ∈ [0x7F#8], x ≠ 0xFF#8) ∧ 0x00#8 ≠ 0xFF#8 ∧
    s.rxq = [0x7F] ++ 0x00 :: [] ∧ s.cfg.waitReadyTicks ≤ 50 := ⟨idleRx [0x7F, 0x00], by decide⟩

/-- A prefix response of 1, the highest that goes on. -/
theorem witness_AppCommandAnswered : ∃ s : State, appCommandOf (.acmd13 0) = some (13, 0, 1) ∧ busy s = false ∧
    (1#8).toNat ≤ s.cfg.respMax ∧ s.resp.length = s.cfg.respMax ∧ boundsOk s.cfg = true ∧
    (answer 1 []).fits s.cfg 0 = true ∧ (answer 1 []).r1.toNat ≤ 1 ∧ (lateAnswer 0 [7]).fits s.cfg 1 = true ∧
    s.rxq = (answer 1 []).bytes ++ ((lateAnswer 0 [7]).bytes ++ []) :=
  ⟨idleRx ((answer 1 []).bytes ++ ((lateAnswer 0 [7]).bytes ++ [])), by decide⟩

/-- A prefix response of 2, the lowest that ends it; no response in eight polls; and a card that is not ready. -/
theorem witness_AppCommandRejected :
    (∃ s : State, appCommandOf (.sendacmd 41 0 0) = some (41, 0, 0) ∧ busy s = false ∧ (0#8).toNat ≤ s.cfg.respMax ∧
      boundsOk s.cfg = true ∧ (answer 2 []).fits s.cfg 0 = true ∧ 1 < (answer 2 []).r1.toNat ∧
      s.rxq = (answer 2 []).bytes ++ []) ∧
    (∃ s : State, appCommandOf (.acmd13 0) = some (13, 0, 1) ∧ busy s = false ∧ (1#8).toNat ≤ s.cfg.respMax ∧
      boundsOk s.cfg = true ∧ 1 < s.cfg.codeRespTimeout.toNat ∧ (∀ b ∈ [0x00#8], b ≠ 0xFF#8) ∧
      (List.replicate 6 0xFF#8).length = 6 ∧ (List.replicate 8 0x80#8).length = s.cfg.r1Polls ∧
      (∀ b ∈ List.replicate 8 0x80#8, b.getLsbD 7 = true) ∧
      s.rxq = [0x00] ++ 0xFF :: (List.replicate 6 0xFF ++ (List.replicate 8 0x80 ++ []))) ∧
    ∃ s : State, appCommandOf (.acmd41 0) = some (41, 0, 0) ∧ busy s = false ∧ (0#8).toNat ≤ s.cfg.respMax ∧
      boundsOk s.cfg = true ∧ 1 < s.cfg.codeNotReady.toNat ∧ (∀ x ∈ [0x7F#8], x ≠ 0xFF#8) ∧ 0x00#8 ≠ 0xFF#8 ∧
      s.rxq = [0x7F] ++ 0x00 :: [] ∧ s.cfg.waitReadyTicks ≤ 50 :=
  ⟨⟨idleRx ((answer 2 []).bytes ++ []), by decide⟩,
    ⟨idleRx ([0x00] ++ 0xFF :: (List.replicate 6 0xFF ++ (List.replicate 8 0x80 ++ []))), by decide⟩,
    ⟨idleRx [0x7F, 0x00], by decide⟩⟩

/-- A block of two bytes at the top of the buffer, and one of no bytes. -/
theorem witness_ReceiveBlockRun :
    (∃ s : State, busy s = false ∧ boundsOk s.cfg = true ∧ refusedBy s (.recvblk 0xFFFE 2) = false ∧
      (block 2).fits s.cfg (2#16).toNat = true ∧ s.rxq = (block 2).bytes s.cfg ++ []) ∧
    ∃ s : State, busy s = false ∧ boundsOk s.cfg = true ∧ refusedBy s (.recvblk 0xFFFF 0) = false ∧
      (block 0).fits s.cfg (0#16).toNat = true ∧ s.rxq = (block 0).bytes s.cfg ++ [] :=
  ⟨⟨idleRx ((block 2).bytes idle.cfg ++ []), by decide⟩, ⟨idleRx ((block 0).bytes idle.cfg ++ []), by decide⟩⟩

theorem witness_PayloadReadsBack : Memory.wf idle.mem = true ∧
    0xFFFE + ([1, 2] : List Byte).length ≤ 2 ^ idle.cfg.addrWidth ∧ 0xFFFF < 2 ^ idle.cfg.addrWidth := by decide

theorem witness_ReceiveFailsBeforeStoring : ∃ s t : State, phaseOk s.phase = true ∧
    s.phase = .rbTest (.buffer 0) 1 0 :: [] ∧ procOf (.rbTest (.buffer 0) 1 0) = .recvblk ∧ seqStep s = .next t ∧
    t.phase = .ret .recvblk 0#8 :: [] ∧ Pos.rbTest (.buffer 0) 1 0 ≠ .ret .recvblk 0#8 :=
  ⟨running (.rbTest (.buffer 0) 1 0), _, rfl, rfl, rfl, rfl, rfl, nofun⟩

theorem witness_SendBlockRun : ∃ s : State, busy s = false ∧ boundsOk s.cfg = true ∧
    refusedBy s (.sendblk 0xFFFE 2 0xFE) = false ∧ (taken 2).fits s.cfg (2#16).toNat = true ∧
    s.rxq = (taken 2).bytes ++ [] := ⟨idleRx ((taken 2).bytes ++ []), by decide⟩

theorem witness_SendBlockRejected : ∃ s : State, busy s = false ∧ refusedBy s (.sendblk 0 0 0xFE) = false ∧
    ([1, 2, 3] : List Byte).length = (0#16).toNat + 3 ∧ (0x0B#8).extractLsb' 0 4 ≠ s.cfg.dataRespAccepted ∧
    s.rxq = [1, 2, 3] ++ 0x0B :: [] := ⟨idleRx [1, 2, 3, 0x0B], by decide⟩

theorem witness_CardAddressConversion : CardType.sdv1 ≠ .sdv2hc ∧ Params.default.sectorBytes = 512 ∧
    (0x7FFFFF#32).toNat < 2 ^ 23 := by decide

theorem witness_ReadSectorRun : ∃ s : State, busy s = false ∧ refusedBy s (.rdsect 0 1 0xFE00) = false ∧
    boundsOk s.cfg = true ∧ (answer 0 []).fits s.cfg 0 = true ∧ (answer 0 []).r1 = 0#8 ∧
    (block 512).fits s.cfg s.cfg.sectorBytes = true ∧
    s.rxq = (answer 0 []).bytes ++ ((block 512).bytes s.cfg ++ 0xFF :: []) :=
  ⟨idleRx ((answer 0 []).bytes ++ ((block 512).bytes idle.cfg ++ 0xFF :: [])), (idleRx_ready _).1, (idleRx_refuses _).1,
    (idleRx_ready _).2, rfl, rfl, block_fits _ _, rfl⟩

theorem witness_ReadSectorsRun : ∃ s : State, busy s = false ∧ (2#32) ≠ 1 ∧ refusedBy s (.rdsect 0 2 0xFC00) = false ∧
    boundsOk s.cfg = true ∧ (answer 0 []).fits s.cfg 0 = true ∧ (answer 0 []).r1 = 0#8 ∧
    [block 512, block 512].length = (2#32).toNat ∧
    (∀ b ∈ [block 512, block 512], b.fits s.cfg s.cfg.sectorBytes = true) ∧ (answer 5 []).fits s.cfg 0 = true ∧
    (∀ x ∈ ([] : List Byte), x ≠ 0xFF#8) ∧
    s.rxq = (answer 0 []).bytes ++ (([block 512, block 512].map (Block.bytes s.cfg)).flatten ++
      ((answer 5 []).bytes ++ ([] ++ 0xFF :: 0xFF :: []))) :=
  ⟨idleRx ((answer 0 []).bytes ++ (([block 512, block 512].map (Block.bytes idle.cfg)).flatten ++
      ((answer 5 []).bytes ++ ([] ++ 0xFF :: 0xFF :: [])))), (idleRx_ready _).1, nofun, (idleRx_refuses _).2.1,
    (idleRx_ready _).2, rfl, rfl, rfl, fun b hb => by simp at hb; rw [hb]; exact block_fits _ _, rfl, nofun, rfl⟩

theorem witness_WriteSectorRun : ∃ s : State, busy s = false ∧ refusedBy s (.wrsect 0 1 0xFE00) = false ∧
    boundsOk s.cfg = true ∧ (answer 0 []).fits s.cfg 0 = true ∧ (answer 0 []).r1 = 0#8 ∧ (taken 512).fits s.cfg s.cfg.sectorBytes = true ∧
    s.rxq = (answer 0 []).bytes ++ ((taken 512).bytes ++ 0xFF :: []) :=
  ⟨idleRx _, (idleRx_ready _).1, (idleRx_refuses _).2.2.1, (idleRx_ready _).2, rfl, rfl, taken_fits _ _, idleRx_rxq _⟩

theorem witness_WriteSectorsRun : ∃ s : State, busy s = false ∧ (2#32) ≠ 1 ∧ refusedBy s (.wrsect 0 2 0xFC00) = false ∧
    boundsOk s.cfg = true ∧ (answer 0 []).fits s.cfg 0 = true ∧ (answer 0 []).r1 = 0#8 ∧
    [taken 512, taken 512].length = (2#32).toNat ∧ (∀ b ∈ [taken 512, taken 512], b.fits s.cfg s.cfg.sectorBytes = true) ∧
    (∀ y ∈ ([] : List Byte), y ≠ 0xFF#8) ∧
    s.rxq = (answer 0 []).bytes ++ (([taken 512, taken 512].map Taken.bytes).flatten ++
      0x00 :: ([] ++ 0xFF :: 0xFF :: [])) :=
  ⟨idleRx _, (idleRx_ready _).1, nofun, (idleRx_refuses _).2.2.2, (idleRx_ready _).2, rfl, rfl, rfl, fun b hb => by simp at hb; rw [hb]; exact taken_fits _ _, nofun, idleRx_rxq _⟩

theorem witness_TransferLoopRules : (running (.txSingle .read 0 4)).phase = [.txSingle .read 0 4] ∧ (4#8) ≠ 0#8 ∧
    (running (.txMulti .write 2 0 0xFF)).phase = [.txMulti .write 2 0 0xFF] ∧
    (running (.txBlock .read 2 0 0)).phase = [.txBlock .read 2 0 0] ∧
    (running (.txBlock .read 1 0 1)).phase = [.txBlock .read 1 0 1] ∧
    (running (.txBlock .read 2 0 1)).phase = [.txBlock .read 2 0 1] ∧ (2#32) ≠ 1 ∧
    (running (.rdStop 0)).phase = [.rdStop 0] ∧ (running (.rdStopped 0)).phase = [.rdStopped 0] ∧
    (running (.wsStop 0)).phase = [.wsStop 0] ∧ (running (.txRdy .write 0 1)).phase = [.txRdy .write 0 1] := by decide

/-- The script of a card whose registers are all read: OCR, CID, CSD. -/
def configScript : List Byte :=
  (answer 0 [1, 2, 3, 4]).bytes ++ ((answer 0 []).bytes ++ ((block 16).bytes idle.cfg ++ ((answer 0 []).bytes ++
    ((block 16).bytes idle.cfg ++ 0xFF :: []))))

/-- For each of the three types whose RDCONFIG sends no status command; and the failing exits, a command answered 0x01
or not at all, and a block that did not arrive. -/
theorem witness_ReadConfigRun :
    (∀ ty ∈ [CardType.mmc, .sdv1, .unknown], ∃ s : State, busy s = false ∧ s.cardType = ty ∧
      s.cardType ≠ .sdv2sc ∧ s.cardType ≠ .sdv2hc ∧ boundsOk s.cfg = true ∧ 4 ≤ s.cfg.respMax ∧
      s.resp.length = s.cfg.respMax ∧ (answer 0 [1, 2, 3, 4]).fits s.cfg 4 = true ∧ (answer 0 [1, 2, 3, 4]).r1 = 0#8 ∧
      (answer 0 []).fits s.cfg 0 = true ∧ (answer 0 []).r1 = 0#8 ∧ (block 16).fits s.cfg 16 = true ∧
      s.rxq = (answer 0 [1, 2, 3, 4]).bytes ++ ((answer 0 []).bytes ++ ((block 16).bytes s.cfg ++
        ((answer 0 []).bytes ++ ((block 16).bytes s.cfg ++ 0xFF :: []))))) ∧
    ∀ p ∈ [Pos.rcOcr 0x01, .rcCidCmd 0x82, .rcCid 0, .rcCsdCmd 0x04, .rcCsd 0, .rcSdCmd 0x81, .rcSd 0],
      { running p with sel := true }.phase = [p] ∧ configFails p = true ∧ { running p with sel := true }.sel = true := by
  refine ⟨fun ty hty => ⟨{ idleRx configScript with cardType := ty }, rfl, rfl, ?_, ?_, rfl, Nat.le_refl 4, rfl, rfl, rfl,
    rfl, rfl, rfl, rfl⟩, by decide⟩ <;> (revert ty; decide)

theorem witness_ReadConfigFormulas :
    csdStructure ((Vector.replicate 16 (0 : Byte)).set 0 0x40) = 1#2 ∧
      (csdStructure ((Vector.replicate 16 (0 : Byte)).set 5 0x07) ≠ 1#2 ∧
        7 ≤ v1Exponent ((Vector.replicate 16 (0 : Byte)).set 5 0x07)) ∧
      (writeBlLen (((Vector.replicate 16 (0 : Byte)).set 12 0x02).set 13 0x40)).toNat ∈ [9, 10, 11] := by decide

/-- The same, then the SD status: command, first block, and the bytes dropped. -/
theorem witness_ReadConfigStatusRun : ∃ s : State, busy s = false ∧ (s.cardType = .sdv2sc ∨ s.cardType = .sdv2hc) ∧
    boundsOk s.cfg = true ∧ 4 ≤ s.cfg.respMax ∧ s.resp.length = s.cfg.respMax ∧
    (answer 0 [1, 2, 3, 4]).fits s.cfg 4 = true ∧ (answer 0 [1, 2, 3, 4]).r1 = 0#8 ∧ (answer 0 []).fits s.cfg 0 = true ∧
    (answer 0 []).r1 = 0#8 ∧ (block 16).fits s.cfg 16 = true ∧ (answer 1 []).fits s.cfg 0 = true ∧
    (answer 1 []).r1.toNat ≤ 1 ∧ (answer 0 [7]).fits s.cfg 1 = true ∧ (answer 0 [7]).r1 = 0#8 ∧
    (List.replicate 48 0x00#8).length = 48 ∧
    s.rxq = (answer 0 [1, 2, 3, 4]).bytes ++ ((answer 0 []).bytes ++ ((block 16).bytes s.cfg ++ ((answer 0 []).bytes ++
      ((block 16).bytes s.cfg ++ ((answer 1 []).bytes ++ ((answer 0 [7]).bytes ++ ((block 16).bytes s.cfg ++
        (List.replicate 48 0x00#8 ++ 0xFF :: [])))))))) :=
  ⟨{ idle with
      cardType := .sdv2hc
      rxq := (answer 0 [1, 2, 3, 4]).bytes ++ ((answer 0 []).bytes ++ ((block 16).bytes idle.cfg ++
        ((answer 0 []).bytes ++ ((block 16).bytes idle.cfg ++ ((answer 1 []).bytes ++ ((answer 0 [7]).bytes ++
          ((block 16).bytes idle.cfg ++ (List.replicate 48 0x00#8 ++ 0xFF :: [])))))))) },
    rfl, .inr rfl, rfl, by decide, rfl, rfl, rfl, rfl, rfl, rfl, rfl, by decide, rfl, rfl, rfl, rfl⟩

theorem witness_SectorCountFormulas :
    7 ≤ v1Exponent ((Vector.replicate 16 (0 : Byte)).set 5 0x0F) ∧
      (cSizeV2 (((Vector.replicate 16 (0 : Byte)).set 7 0x3F).set 8 0xFF |>.set 9 0xFF)).toNat = 0x3FFFFF := by decide

theorem witness_EraseBlockFormulas :
    (writeBlLen (((Vector.replicate 16 (0 : Byte)).set 12 0x02).set 13 0xC0)).toNat ∈ [9, 10, 11] := by decide

theorem witness_StepRunsPresented : decode Params.default .host [0x03#8] = .ok .waitrdy ∧
    ({ idle with events := [.present [0x03]] }).events = [.present [0x03]] ∧
    ({ idle with events := [.go] }).host.pos = .free ∧ idle.host.calls = [] ∧
    ({ idle with host := { idle.host with prog := [[0x03]] } }).host.prog = [[0x03]] ∧ tablePlace 8 3 = .host ∧
    decode Params.default .host (tableBytes 8 3) = .ok .waitrdy := by decide

theorem witness_StepRunsWireElement : (going (.wrTest 0xFF)).events = [.go] ∧
    (decode Params.default .response [0x05#8] = .ok (.r1Valid 5) ∧ (going (.scPollTest 0 1 0x05)).phase = [.scPollTest 0 1 0x05]) ∧
    (decode Params.default .busy [0xFF#8] = .ok .ready ∧ (going (.wrTest 0xFF)).phase = [.wrTest 0xFF]) ∧
    (going (.sbTest 0xFF)).phase = [.sbTest 0xFF] ∧
    (decode Params.default .dataResponse [0xE5#8] = .ok (.dataResponseAccepted 0xE) ∧ (going (.sbRespTest 0xE5)).phase = [.sbRespTest 0xE5]) ∧
    (decode Params.default .startToken [0xFC#8] = .ok .tokenStartMulti ∧ (going (.sbTok 0 512 0xFC)).phase = [.sbTok 0 512 0xFC]) ∧
    (decode Params.default .tokenWait [0xFE#8] = .ok .tokenStartSingle ∧ (going (.rbTest .cid 16 0xFE)).phase = [.rbTest .cid 16 0xFE]) := by
  decide

/-- A step of a RECVBLK that stores its last byte, inside RDCONFIG. -/
def storing : State :=
  { idle with phase := [.rbData .cid 16 15, .rcWaitCid], sel := true, rxq := [0x77], events := [.go] }

theorem witness_StepInvariants : Memory.wf storing.mem = true ∧ phaseOk storing.phase = true ∧ selOk storing = true ∧
    destOk storing.phase = true ∧ storing.resp.length = storing.cfg.respMax ∧ widthsOk storing = true ∧
    ∃ t, step storing = .next t ∧ t.conf ≠ storing.conf :=
  ⟨rfl, rfl, rfl, rfl, rfl, rfl, _, rfl, by decide⟩

theorem witness_OnlyConfigWritersWrite : phaseOk (going (.stSet 2)).phase = true ∧ destOk (going (.stSet 2)).phase = true ∧
    ∃ t, step (going (.stSet 2)) = .next t ∧ t.cardType ≠ (going (.stSet 2)).cardType := ⟨rfl, rfl, _, rfl, by decide⟩

/-- A host that has just seen RDCONFIG succeed. -/
def configured : State :=
  { hostAt .configRead with res := 1, conf := { CardConfig.zero with sectorSize := 512 }, events := [.go] }

theorem witness_StepKeepsSectorSize : phaseOk configured.phase = true ∧ sizeOk configured ∧
    ∃ t, step configured = .next t ∧ t.host.noinit = false :=
  ⟨rfl, ⟨rfl, fun _ => rfl, fun _ => rfl, fun _ _ => rfl⟩, _, rfl, rfl⟩

theorem witness_OnlyInitializeChangesNoinit : (∃ t, step configured = .next t ∧ t.host.noinit ≠ configured.host.noinit) ∧
    ∃ t, step { calling .init false with events := [.go] } = .next t ∧ t.host.noinit ≠ (calling .init false).host.noinit :=
  ⟨⟨_, rfl, nofun⟩, ⟨_, rfl, nofun⟩⟩

theorem witness_NotReadyShortCircuit : busy (calling .status true) = false ∧ (calling .status true).host.pos = .free ∧
    (calling (.ioctl 0 7) true).host.calls = [.ioctl 0 7] ∧ (calling (.ioctl 0 7) true).host.noinit = true ∧
    callExists idle.cfg (.ioctl 0 7) = true ∧ callExists idle.cfg (.write 0 1 1) = true ∧
    Call.ioctl 0 7 ≠ .status ∧ Call.ioctl 0 7 ≠ .init := by decide

/-- The last ioctl code the adapter knows, and the first it does not; a call that does not exist; and the returns. -/
theorem witness_AdapterCalls : busy (calling (.ioctl 9 0) false) = false ∧
    (calling (.ioctl 9 0) false).host.noinit = false ∧ (calling (.ioctl 8 64) false).host.calls = [.ioctl 8 64] ∧ 8 < 9 ∧
    (calling (.read 0 1 1) false).host.calls = [.read 0 1 1] ∧
    ((calling (.write 0 1 1) false).host.calls = [.write 0 1 1] ∧ idle.cfg.writeSupport = true) ∧
    (calling (.ioctl 0 7) false).host.calls = [.ioctl 0 7] ∧
    { idle with cfg := { Params.default with writeSupport := false } }.cfg.writeSupport = false ∧
    (hostAt .transfer).host.pos = .transfer ∧ (hostAt .syncing).host.pos = .syncing := by
  decide

theorem witness_InitBranches : busy (hostAt .afterReset) = false ∧
    (busy (calling .init false) = false ∧ (calling .init false).host.pos = .free ∧
      (calling .init false).host.calls = .init :: []) ∧
    ((hostAt .afterClear).host.pos = .afterClear ∧ { hostAt .afterClear with sel := true }.sel = true ∧
      (hostAt .afterClear).sel = false) ∧
    ((hostAt (.powerup 9)).host.pos = .powerup 9 ∧ 9 < idle.cfg.powerupBytes ∧ ¬10 < idle.cfg.powerupBytes) ∧
    (hostAt .afterReset).host.pos = .afterReset ∧ (hostAt (.resetRes 1)).host.pos = .resetRes 1 ∧
    (hostAt .afterIfCond).host.pos = .afterIfCond ∧ (hostAt (.ifCondRes 0x81)).host.pos = .ifCondRes 0x81 ∧
    (hostAt (.ifCondResp [0, 0, 1, 0xAA])).host.pos = .ifCondResp [0, 0, 1, 0xAA] ∧
    (hostAt .v2Loaded).host.pos = .v2Loaded ∧ (hostAt .v2Tried).host.pos = .v2Tried ∧
    (hostAt (.v2Res 2)).host.pos = .v2Res 2 ∧ (hostAt (.v2Timer 0)).host.pos = .v2Timer 0 ∧
    (hostAt .v2Ocr).host.pos = .v2Ocr ∧ (hostAt (.v2OcrRes 0)).host.pos = .v2OcrRes 0 ∧
    (hostAt (.v2OcrResp [0x40])).host.pos = .v2OcrResp [0x40] ∧
    (hostAt .probed).host.pos = .probed ∧ (hostAt (.probeRes 5)).host.pos = .probeRes 5 ∧
    (hostAt (.legacyLoaded .mmc)).host.pos = .legacyLoaded .mmc ∧
    (hostAt (.legacyLoaded .sdv1)).host.pos = .legacyLoaded .sdv1 ∧
    (hostAt (.legacyTried .sdv1)).host.pos = .legacyTried .sdv1 ∧
    (hostAt (.legacyRes .mmc 0)).host.pos = .legacyRes .mmc 0 ∧
    (hostAt (.legacyTimer .sdv1 1)).host.pos = .legacyTimer .sdv1 1 ∧
    (hostAt (.afterBlocklen .mmc)).host.pos = .afterBlocklen .mmc ∧
    (hostAt (.blocklenRes .mmc 0)).host.pos = .blocklenRes .mmc 0 ∧
    ((hostAt (.released .mmc)).host.pos = .released .mmc ∧ CardType.mmc ≠ .unknown) ∧
    (hostAt (.released .unknown)).host.pos = .released .unknown ∧ (hostAt .typeSet).host.pos = .typeSet ∧
    (hostAt .configRead).host.pos = .configRead := by decide

/-- 26 bytes of 0xFF, with the default POWERUP_BYTES = 10 and R1_POLLS = 8. -/
theorem witness_SilentCardFailsInit :
    ∃ s : State, busy s = false ∧ s.sel = false ∧ boundsOk s.cfg = true ∧ s.cfg.codeRespTimeout ≠ 0x01#8 ∧
      s.host.pos = .free ∧ s.host.calls = .init :: [] ∧
      s.rxq = List.replicate (s.cfg.powerupBytes + s.cfg.r1Polls + 8) 0xFF#8 ++ [] :=
  ⟨{ calling .init true with rxq := List.replicate 26 0xFF#8 }, by decide, by decide, by decide, by decide, by decide,
    by decide, by decide⟩

end Sys2Proof.Tests
end

section
/-! Every step keeps the parameters, the size of RESP and the register widths (R9, R23, R25, R32, R45): one lemma per way
a step can act, assembled by `step_cases` and `run_cases`. -/

namespace Sys2Proof.Proofs

open Sys2Proof.Machine Sys2Proof.Safety Sys2Proof.Laws

theorem widthsOk_iff (s : State) : widthsOk s = true ↔
    s.t1 < 2 ^ s.cfg.timerWidth ∧ s.t2 < 2 ^ s.cfg.timerWidth ∧ OpsWithin s.cfg s.ops := by
  simp [widthsOk, OpsWithin, and_assoc]

/-- From `s` to `t` the parameters stay, and RESP and the registers stay in the widths they give. -/
def ParametersKept (s t : State) : Prop :=
  t.cfg = s.cfg ∧ (s.resp.length = s.cfg.respMax → t.resp.length = t.cfg.respMax) ∧
    (widthsOk s = true → widthsOk t = true)

/-- Enough: RESP as long as before, and each register of a parameter's width within it if it was. -/
theorem ParametersKept.of_fields {s t : State} (hc : t.cfg = s.cfg) (hr : t.resp.length = s.resp.length)
    (h1 : s.t1 < 2 ^ s.cfg.timerWidth → t.t1 < 2 ^ s.cfg.timerWidth)
    (h2 : s.t2 < 2 ^ s.cfg.timerWidth → t.t2 < 2 ^ s.cfg.timerWidth)
    (ho : OpsWithin s.cfg s.ops → OpsWithin s.cfg t.ops) : ParametersKept s t := by
  refine ⟨hc, fun h => by rw [hr, hc, h], fun h => ?_⟩
  obtain ⟨g1, g2, go⟩ := (widthsOk_iff s).1 h
  rw [widthsOk_iff, hc]
  exact ⟨h1 g1, h2 g2, ho go⟩

theorem countDown_le (n : Nat) : countDown n ≤ n := by
  unfold countDown
  split <;> omega

theorem tick_keepsParameters (s : State) : ParametersKept s (tick s) :=
  .of_fields rfl rfl (lt_of_le_of_lt (countDown_le _)) (lt_of_le_of_lt (countDown_le _)) id

theorem resetBlock_keepsParameters (s : State) : ParametersKept s (resetBlock s) := by
  refine ⟨rfl, fun _ => List.length_replicate, fun _ => ?_⟩
  have hz (w : Nat) : 0 < 2 ^ w := Nat.two_pow_pos w
  exact (widthsOk_iff _).2 ⟨hz _, hz _, hz _, hz _⟩

theorem presented_keepsParameters {s t : State} (h : Presented s t) : ParametersKept s t := by
  obtain ⟨⟨o, r, ph, g, ho, rfl⟩, -⟩ := h
  exact .of_fields rfl rfl id id ho

theorem hostActs_keepsParameters {s t : State} (h : HostActs s t) : ParametersKept s t := by
  obtain ⟨m, -, hp⟩ := h
  exact presented_keepsParameters (s := { s with mem := m }) hp

theorem returnValue_keepsParameters {q : Proc} {v : Byte} {k : List Pos} {s t : State} (hp : s.phase = .ret q v :: k)
    (h : returnValue v s = .next t) : ParametersKept s t := by
  obtain ⟨-, rfl⟩ | ⟨w, k', p, -, -, rfl⟩ := ret_cases hp h <;> exact .of_fields rfl rfl id id id

theorem kept_keepsParameters {p : Pos} {s t : State} (h : Kept p s t) : ParametersKept s t :=
  .of_fields h.cfg h.resp (reloaded_lt h.t1) (reloaded_lt h.t2) (by rw [h.ops]; exact id)

theorem runEvent_keepsParameters {e : Event} {s t : State} (h : runEvent e s = .next t) : ParametersKept s t := by
  obtain ⟨-, rfl⟩ | ⟨-, rfl⟩ | ⟨a, v, -, rfl⟩ | ⟨-, -, hm⟩ | ⟨bs, -, hp, -⟩ | ⟨r, v, -, rfl⟩ |
    ⟨-, q, v, k, hp, hr⟩ | ⟨-, p, k, top, -, -, -, hk⟩ := run_cases h
  · exact tick_keepsParameters s
  · exact resetBlock_keepsParameters s
  · exact .of_fields rfl rfl id id id
  · exact hostActs_keepsParameters hm.acts
  · exact presented_keepsParameters hp
  · exact .of_fields rfl rfl id id id
  · exact returnValue_keepsParameters hp hr
  · exact kept_keepsParameters hk

/-- Settles O53: taking the event off touches no register, and the event keeps the parameters and widths. -/
theorem stepKeepsParameters : Obligations.StepKeepsParameters := by
  intro s t h
  obtain ⟨e, es, d, -, hr⟩ := step_cases h
  exact runEvent_keepsParameters (s := { s with events := es, drawn := d }) hr

end Sys2Proof.Proofs
end

section
/-! Which bytes are the element looked for (R100, R102, R110, R114 to R116, R124), and that a step runs what is
presented to the idle block or met on the wire by the running one (R11, R40, R123). -/

namespace Sys2Proof.Proofs

open Sys2Proof.Machine Sys2Proof.Safety

/-! ### The decoder away from the host port -/

/-- Away from the host port one byte is decoded by its place alone. -/
theorem decode_wireByte {pl : Place} (hpl : pl ≠ .host) (p : Params) (b : Byte) :
    decode p pl [b] = Decode.atWire p pl b := by
  cases pl
  case host => exact absurd rfl hpl
  all_goals rfl

theorem decode_tokenWait (p : Params) (b : Byte) : decode p .tokenWait [b] =
    if b = p.tokenStartSingle then .ok .tokenStartSingle else .error .noMatch :=
  decode_wireByte (pl := .tokenWait) nofun p b

/-- Settles O5: at each place the decoder is one test of the byte, or a chain of them. -/
theorem wireBytesRecognised : Obligations.WireBytesRecognised := by
  intro p b
  refine ⟨?_, ?_, ?_, decode_tokenWait p b, ?_, rfl, rfl, rfl, rfl⟩
  · exact decode_wireByte (pl := .response) nofun p b
  · exact decode_wireByte (pl := .dataResponse) nofun p b
  · exact decode_wireByte (pl := .busy) nofun p b
  · exact decode_wireByte (pl := .result) nofun p b

/-! ### One step under a given event -/

theorem step_of_events {s : State} {e : Event} {es : List Event} (h : s.events = e :: es) :
    step s = runEvent e { s with events := es } := by
  simp [step, nextEvent, h]

theorem presentBytes_of_decode {s : State} {bs : List Byte} {i : Instr} (h : decode s.cfg .host bs = .ok i) :
    presentBytes bs s = exec i s := by
  simp [presentBytes, h]

theorem runEvent_present_idle {s : State} {bs : List Byte} {i : Instr} (hb : busy s = false)
    (h : decode s.cfg .host bs = .ok i) : runEvent (.present bs) s = exec i s := by
  simp [runEvent, hb, presentBytes_of_decode h]

theorem runEvent_go_idle {s : State} (hb : busy s = false) : runEvent .go s = hostStep s := by
  simp [runEvent, hb]

theorem runEvent_go_running {s : State} {p : Pos} {k : List Pos} (hp : s.phase = p :: k) :
    runEvent .go s = seqAt p s := by
  simp [runEvent, busy, seqStep, hp]

/-- The host with no call running and none to make issues the next of its operations. -/
theorem hostStep_prog {s : State} {bs : List Byte} {ps : List (List Byte)} (hf : s.host.pos = .free)
    (hc : s.host.calls = []) (hp : s.host.prog = bs :: ps) :
    hostStep s = presentBytes bs { s with host := { s.host with prog := ps } } := by
  simp [hostStep, hf, hc, hp]

/-- Settles O47: an event, an operation of the host and a placed word all come to `presentBytes` of the idle block. -/
theorem stepRunsPresented : Obligations.StepRunsPresented := by
  intro s bs i hd
  refine ⟨fun es he hb => ?_, fun es ps he hb hf hc hp => ?_, fun nbits w hpl hbs => ?_⟩
  · rw [step_of_events he]
    exact runEvent_present_idle hb hd
  · have hs : hostStep { s with events := es } =
        presentBytes bs { s with events := es, host := { s.host with prog := ps } } := hostStep_prog hf hc hp
    have hg : runEvent .go { s with events := es } = hostStep { s with events := es } := runEvent_go_idle hb
    rw [step_of_events he, hg, hs]
    exact presentBytes_of_decode hd
  · have he : (s.withFetchWord nbits w).events = .present bs :: s.events := by
      simp [State.withFetchWord, placeInstr, hpl, hbs]
    have hs : { s.withFetchWord nbits w with events := s.events } = { s with phase := [] } := by
      simp [State.withFetchWord, placeInstr, hpl]
    rw [step_of_events he, hs]
    exact runEvent_present_idle rfl hd

/-! ### Elements met on the wire -/

theorem lookFor_of_decode {pl : Place} {b : Byte} {otherwise : Result} {s : State} {i : Instr}
    (h : decode s.cfg pl [b] = .ok i) : lookFor pl b otherwise s = exec i s := by
  simp [lookFor, h]

/-- A byte that is the start token does not end the wait under START_TOKEN_STRICT. -/
theorem strictStop_of_decode {s : State} {b : Byte} {i : Instr} (h : decode s.cfg .tokenWait [b] = .ok i) :
    strictStop s b = false := by
  rw [decode_tokenWait] at h
  split at h
  · simp [strictStop, *]
  · cases h

/-- Settles O48: each of the six positions comes to `lookFor` at its place. -/
theorem stepRunsWireElement : Obligations.StepRunsWireElement := by
  intro s es k b i he
  have running {p : Pos} (hp : s.phase = p :: k) : step s = seqAt p { s with events := es } := by
    rw [step_of_events he]
    exact runEvent_go_running hp
  refine ⟨fun rlen j hp hd => ?_, fun hp hd => ?_, fun hp hd => ?_, fun hp hd => ?_, fun buf len hp hd => ?_,
    fun d len hp hd => ?_⟩ <;> rw [running hp, seqAt]
  case _ | _ | _ | _ | _ => exact lookFor_of_decode hd
  · have hs : strictStop { s with events := es } b = false := strictStop_of_decode hd
    rw [hs]
    exact lookFor_of_decode hd

end Sys2Proof.Proofs
end

section
/-! The initialization sequence branch by branch (R210 to R228, R353, R354): each of the host's steps as an equation in
the values of the rules, then the step of the host at each position. -/

namespace Sys2Proof.Proofs

open Sys2Proof.Machine Sys2Proof.Safety

/-! ### The tests of a response, as equations between bytes -/

theorem accepted_iff (r : Byte) : accepted r = true ↔ r = 0x00#8 := beq_iff_eq

theorem inIdle_iff (r : Byte) : inIdle r = true ↔ r = 0x01#8 := beq_iff_eq

theorem expired_iff (n : Nat) : expired n = true ↔ n = 0 := beq_iff_eq

theorem aboveIdle_iff (r : Byte) : aboveIdle r = true ↔ r ≠ 0x00#8 ∧ r ≠ 0x01#8 := by
  simp only [aboveIdle, decide_eq_true_eq]
  bv_omega

theorem echoMatches_iff (arg : BitVec 32) (e : List Byte) : echoMatches arg e = true ↔
    e.getD 2 0 = arg.extractLsb' 8 8 ∧ e.getD 3 0 = arg.extractLsb' 0 8 := by
  simp only [echoMatches, Bool.and_eq_true, beq_iff_eq]

theorem statusByte_eq (s : State) : statusByte s = if s.host.noinit then 1#8 else 0#8 := by
  unfold statusByte
  cases s.host.noinit <;> rfl

/-! ### The host's branches -/

variable (s : State)

theorem initPowerup_eq (k : Nat) : initPowerup k s =
    if k < s.cfg.powerupBytes then exec (.xchg s.cfg.fill) (setHostPos (.powerup (k + 1)) s)
    else exec (.sendcmd s.cfg.idxGoIdle 0 0) (setHostPos .afterReset s) := rfl

theorem initReset_eq (r : Byte) : initReset r s =
    if r = 0x01#8 then exec (.sendcmd s.cfg.idxSendIfCond s.cfg.ifCondArg 4) (setHostPos .afterIfCond s)
    else exec .deselect (setHostPos (.released .unknown) s) := by
  simp only [initReset, inIdle_iff, initRelease, issue]

theorem initIfCond_eq (r : Byte) : initIfCond r s =
    if r.getLsbD 7 then exec .deselect (setHostPos (.released .unknown) s)
    else if r = 0x01#8 then .next (setHostPos (.ifCondResp s.resp) s)
    else exec (.sendcmd s.cfg.idxAppCmd 0 0) (setHostPos .probed s) := by
  simp only [initIfCond, inIdle_iff, initRelease, initProbe, issue, look]

theorem initEcho_eq (e : List Byte) : initEcho e s =
    if e.getD 2 0 = s.cfg.ifCondArg.extractLsb' 8 8 ∧ e.getD 3 0 = s.cfg.ifCondArg.extractLsb' 0 8 then
      exec (.ldt1 s.cfg.negotiationTicks) (setHostPos .v2Loaded s)
    else exec (.sendcmd s.cfg.idxAppCmd 0 0) (setHostPos .probed s) := by
  simp only [initEcho, echoMatches_iff, initProbe, issue]

/-- The three classes of a response in the model's order, above the threshold second, come to those of R220. -/
theorem initV2Tried_eq (r : Byte) : initV2Tried r s =
    if r = 0x00#8 then exec (.sendcmd s.cfg.idxReadOcr 0 4) (setHostPos .v2Ocr s)
    else if r = 0x01#8 then .next (setHostPos (.v2Timer s.t1) s)
    else exec .deselect (setHostPos (.released .unknown) s) := by
  simp only [initV2Tried, accepted_iff, aboveIdle_iff, initRelease, issue, look]
  by_cases h0 : r = 0x00#8
  · simp only [h0, if_true]
  · by_cases h1 : r = 0x01#8 <;> simp [h0, h1]

theorem initV2Timer_eq (n : Nat) : initV2Timer n s =
    if n = 0 then exec .deselect (setHostPos (.released .unknown) s)
    else exec (.sendacmd s.cfg.idxSdSendOpCond 0x40000000#32 0) (setHostPos .v2Tried s) := by
  simp only [initV2Timer, expired_iff, initRelease, initV2Try, issue]

theorem initV2Ocr_eq (r : Byte) : initV2Ocr r s =
    if r = 0x00#8 then .next (setHostPos (.v2OcrResp s.resp) s)
    else exec .deselect (setHostPos (.released .unknown) s) := by
  simp only [initV2Ocr, accepted_iff, initRelease, issue, look]

theorem initV2Class_eq (o : List Byte) : initV2Class o s =
    if (o.getD 0 0).getLsbD 6 then exec .deselect (setHostPos (.released .sdv2hc) s)
    else exec (.sendcmd s.cfg.idxSetBlocklen (BitVec.ofNat 32 s.cfg.sectorBytes) 0)
      (setHostPos (.afterBlocklen .sdv2sc) s) := rfl

/-- Only the types of the legacy path negotiate so. -/
theorem initLegacyTried_eq {t : CardType} (ht : t = .mmc ∨ t = .sdv1) (r : Byte) : initLegacyTried t r s =
    if r = 0x00#8 then exec (.sendcmd s.cfg.idxSetBlocklen (BitVec.ofNat 32 s.cfg.sectorBytes) 0)
      (setHostPos (.afterBlocklen t) s)
    else .next (setHostPos (.legacyTimer t s.t1) s) := by
  obtain rfl | rfl := ht <;> simp only [initLegacyTried, accepted_iff, initBlocklen, issue, look]

theorem initLegacyTimer_eq (t : CardType) (n : Nat) : initLegacyTimer t n s =
    if n = 0 then exec .deselect (setHostPos (.released .unknown) s)
    else if t = .mmc then exec (.sendcmd s.cfg.idxSendOpCond 0 0) (setHostPos (.legacyTried t) s)
    else exec (.sendacmd s.cfg.idxSdSendOpCond 0 0) (setHostPos (.legacyTried t) s) := by
  simp only [initLegacyTimer, expired_iff, initBlocklen, initRelease, initLegacyTry, issue]

/-- A response other than 0x00 to the block-length command gives the type up. -/
theorem initRelease_of_blocklen (t : CardType) (r : Byte) :
    initRelease (if accepted r then t else .unknown) s =
      exec .deselect (setHostPos (.released (if r = 0x00#8 then t else .unknown)) s) := by
  simp only [accepted_iff, initRelease, issue]

theorem initReleased_known {t : CardType} (ht : t ≠ .unknown) : initReleased t s =
    exec (.settype (cardTypeBits t)) (setHostPos .typeSet s) := by
  simp only [initReleased, ht, if_false, issue]

theorem initReleased_unknown : initReleased .unknown s = .next { s with host := { s.host with
    pos := .free, ret := some (.status (if s.host.noinit then 1#8 else 0#8)) } } := by
  simp only [initReleased, if_true, finishStatus, Machine.finish, statusByte_eq]

theorem initConfigRead_eq : initConfigRead s = .next { s with host := { s.host with
    pos := .free, noinit := if s.res = 1#8 then false else s.host.noinit
    ret := some (.status (if s.res = 1#8 then 0#8 else if s.host.noinit then 1#8 else 0#8)) } } := by
  simp only [initConfigRead, finishStatus, Machine.finish, statusByte_eq, Config.ok]
  by_cases hr : s.res = 1#8 <;> simp [hr]

/-! ### The step of the host -/

variable {s}

/-- A host with a call running goes on from its position. -/
theorem hostStep_waiting {q : HostPos} (h : s.host.pos = q) (hq : q ≠ .free) : hostStep s = hostResume q s := by
  subst h
  unfold hostStep
  split
  case h_4 => rfl
  all_goals exact absurd ‹_› hq

/-- A free host begins its next call. -/
theorem hostStep_call {c : Call} {cs : List Call} (hf : s.host.pos = .free) (hc : s.host.calls = c :: cs) :
    hostStep s = startCall c { s with host := { s.host with calls := cs } } := by
  simp only [hostStep, hf, hc]

theorem hostStep_init {cs : List Call} (hf : s.host.pos = .free) (hc : s.host.calls = .init :: cs) : hostStep s =
    exec (.settype 0) { s with host := { s.host with pos := .afterClear, calls := cs, noinit := true } } :=
  hostStep_call hf hc

/-- After SETTYPE 0 with chip-select asserted, DESELECT comes before the idle exchanges. -/
theorem hostStep_afterClear_selected (h : s.host.pos = .afterClear) (hs : s.sel = true) :
    hostStep s = exec .deselect (setHostPos (.powerup 0) s) := by
  simp only [hostStep_waiting h nofun, hostResume, hs, if_true, issue]

/-- The idle exchanges begin after SETTYPE 0 with chip-select released, or go on. -/
theorem hostStep_powerup {k : Nat}
    (h : s.host.pos = .afterClear ∧ s.sel = false ∧ k = 0 ∨ s.host.pos = .powerup k) : hostStep s = initPowerup k s := by
  obtain ⟨h, hs, rfl⟩ | h := h
  · simp [hostStep_waiting h nofun, hostResume, hs]
  · exact hostStep_waiting h nofun

/-- Settles O59: at each position the host's step is the equation of its branch. -/
theorem initBranches : Obligations.InitBranches := by
  intro s _
  exact ⟨
    fun _ => hostStep_init,
    hostStep_afterClear_selected,
    fun k h => (hostStep_powerup h).trans (initPowerup_eq s k),
    fun h => hostStep_waiting h nofun,
    fun r h => (hostStep_waiting h nofun).trans (initReset_eq s r),
    fun h => hostStep_waiting h nofun,
    fun r h => (hostStep_waiting h nofun).trans (initIfCond_eq s r),
    fun e h => (hostStep_waiting h nofun).trans (initEcho_eq s e),
    fun h => hostStep_waiting h nofun,
    fun h => hostStep_waiting h nofun,
    fun r h => (hostStep_waiting h nofun).trans (initV2Tried_eq s r),
    fun n h => (hostStep_waiting h nofun).trans (initV2Timer_eq s n),
    fun h => hostStep_waiting h nofun,
    fun r h => (hostStep_waiting h nofun).trans (initV2Ocr_eq s r),
    fun o h => (hostStep_waiting h nofun).trans (initV2Class_eq s o),
    fun h => hostStep_waiting h nofun,
    fun r h => hostStep_waiting h nofun,
    fun h => hostStep_waiting h nofun,
    fun h => hostStep_waiting h nofun,
    fun t h => hostStep_waiting h nofun,
    fun t r ht h => (hostStep_waiting h nofun).trans (initLegacyTried_eq s ht r),
    fun t n h => (hostStep_waiting h nofun).trans (initLegacyTimer_eq s t n),
    fun t h => hostStep_waiting h nofun,
    fun t r h => (hostStep_waiting h nofun).trans (initRelease_of_blocklen s t r),
    fun t h ht => (hostStep_waiting h nofun).trans (initReleased_known s ht),
    fun h => (hostStep_waiting h nofun).trans (initReleased_unknown s),
    fun h => hostStep_waiting h nofun,
    fun h => (hostStep_waiting h nofun).trans (initConfigRead_eq s)⟩

end Sys2Proof.Proofs
end

section
/-! PHASE stays a stack the pseudocode can produce (R40), and what follows from its shape: the procedures call one another
in one direction only, so a stack has at most four records, and a procedure nobody calls has nothing below it. -/

namespace Sys2Proof.Proofs

open Sys2Proof.Machine Sys2Proof.Safety Sys2Proof.Laws

/-- The longest chain of callers a procedure can have below it: WAITRDY under SENDCMD under SENDACMD under RDCONFIG. -/
def callerDepth : Proc → Nat
  | .waitrdy => 3
  | .sendcmd => 2
  | .sendacmd | .recvblk | .sendblk => 1
  | _ => 0

theorem callerDepth_le (q : Proc) : callerDepth q ≤ 3 := by
  cases q <;> decide

/-- A caller has a shorter chain below it than the procedure it waits for. -/
theorem callerDepth_lt {w : Pos} {q : Proc} (h : waitsFor w = some q) : callerDepth (procOf w) < callerDepth q := by
  cases w
  case txWaitSingle d _ | txWaitOne d | txWaitMulti d _ _ | txWaitBlock d _ _ | txWaitRdy d _ =>
    cases d <;> cases h <;> simp [procOf, dirProc, blockProc, callerDepth]
  all_goals cases h
  all_goals simp [procOf, callerDepth]

theorem callersOk_cons {q : Proc} {w : Pos} {k : List Pos} :
    callersOk q (w :: k) = true ↔ waitsFor w = some q ∧ callersOk (procOf w) k = true := by
  simp [callersOk]

theorem phaseOk_cons {p : Pos} {k : List Pos} :
    phaseOk (p :: k) = true ↔ topOk p = true ∧ callersOk (procOf p) k = true := by
  simp [phaseOk]

theorem length_le_callerDepth {q : Proc} {k : List Pos} (h : callersOk q k = true) : k.length ≤ callerDepth q := by
  induction k generalizing q with
  | nil => exact Nat.zero_le _
  | cons w k ih =>
    obtain ⟨hw, hk⟩ := callersOk_cons.1 h
    exact lt_of_le_of_lt (ih hk) (callerDepth_lt hw)

theorem phaseOk_length {ph : List Pos} (h : phaseOk ph = true) : ph.length ≤ 4 := by
  cases ph with
  | nil => exact Nat.zero_le _
  | cons p k =>
    have hk := length_le_callerDepth (phaseOk_cons.1 h).2
    exact Nat.succ_le_succ (hk.trans (callerDepth_le _))

/-- Nothing stands below a procedure that nobody calls. -/
theorem callersOk_uncalled {q : Proc} {k : List Pos} (h : callersOk q k = true) (hq : callerDepth q = 0) : k = [] :=
  List.length_eq_zero_iff.1 (Nat.le_zero.1 (hq ▸ length_le_callerDepth h))

theorem callerDepth_of_releases {q : Proc} (h : releases q = true) : callerDepth q = 0 := by
  cases q <;> first | rfl | cases h

/-! ### A step that leads on -/

theorem resume_phaseOk {q : Proc} {v : Byte} {w p : Pos} {k : List Pos} (h : phaseOk (.ret q v :: w :: k) = true)
    (hr : resume v w = some p) : phaseOk (p :: k) = true := by
  obtain ⟨hw, hk⟩ := callersOk_cons.1 (phaseOk_cons.1 h).2
  obtain ⟨hp, hproc⟩ := resume_ok hw hr
  exact phaseOk_cons.2 ⟨hp, hproc ▸ hk⟩

theorem succ_phaseOk {p : Pos} {top k : List Pos} (h : phaseOk (p :: k) = true) (hs : Succ p top) :
    phaseOk (top ++ k) = true := by
  obtain ⟨hp, hk⟩ := phaseOk_cons.1 h
  obtain ⟨q, rfl, hq, hproc⟩ | ⟨c, w, rfl, hc, hw, hproc⟩ := succ_ok hs hp
  · exact phaseOk_cons.2 ⟨hq, hproc ▸ hk⟩
  · exact phaseOk_cons.2 ⟨hc, callersOk_cons.2 ⟨hw, hproc ▸ hk⟩⟩

theorem runEvent_phaseOk {e : Event} {s t : State} (h : phaseOk s.phase = true) (hr : runEvent e s = .next t) :
    phaseOk t.phase = true := by
  obtain ⟨-, rfl⟩ | ⟨-, rfl⟩ | ⟨a, v, -, rfl⟩ | ⟨-, -, hm⟩ | ⟨bs, -, hp, -⟩ | ⟨r, v, -, rfl⟩ |
    ⟨-, q, v, k, hp, hv⟩ | ⟨-, p, k, top, hp, hs, ht, -⟩ := run_cases hr
  · exact h
  · rfl
  · exact h
  · exact after_ok h hm.acts.phase
  · exact after_ok h hp.2
  · exact h
  · obtain ⟨-, rfl⟩ | ⟨w, k', p, rfl, hw, rfl⟩ := ret_cases hp hv
    · rfl
    · exact resume_phaseOk (hp ▸ h) hw
  · rw [ht]
    exact succ_phaseOk (hp ▸ h) hs

/-! ### A step that does not fault -/

theorem runEvent_no_fault {e : Event} {s : State} {f : Fault} (h : phaseOk s.phase = true) :
    runEvent e s ≠ .fault f := by
  cases e
  case go =>
    cases hp : s.phase with
    | nil => rw [runEvent_go_idle (by simp [busy, hp])]; exact hostStep_no_fault s f
    | cons p k => rw [runEvent_go_running hp]; exact seqAt_no_fault hp (hp ▸ h)
  case present bs =>
    cases hb : busy s
    · simpa [runEvent, hb] using presentBytes_no_fault bs s f
    · simp [runEvent, hb]
  all_goals nofun

/-- Taking the event off leaves PHASE. -/
theorem nextEvent_phase (s : State) : (nextEvent s).2.phase = s.phase := by
  unfold nextEvent
  split <;> rfl

/-- Settles O50: the depth by the order of calls, no fault by the shape of the stack, and the shape by the ways a step
can act. -/
theorem stepKeepsPhase : Obligations.StepKeepsPhase := by
  intro s h
  have hn : phaseOk (nextEvent s).2.phase = true := by rwa [nextEvent_phase]
  exact ⟨phaseOk_length h, fun f => runEvent_no_fault hn, fun t ht => runEvent_phaseOk hn ht⟩

end Sys2Proof.Proofs
end

section
/-! Chip-select stands as PHASE says (R44, R172, R184, R245, R306, R387): the records that assert it hold it asserted down
to the release, and only a procedure with nothing below it releases it. -/

namespace Sys2Proof.Proofs

open Sys2Proof.Machine Sys2Proof.Safety Sys2Proof.Laws

/-- `SelStands ph b`: with the stack `ph`, chip-select at level `b` stands as PHASE says. -/
def SelStands (ph : List Pos) (b : Bool) : Prop :=
  (ph.any asserted = true → b = true) ∧ (ph.head?.any releasedAt = true → b = false)

theorem selOk_iff (s : State) : selOk s = true ↔ SelStands s.phase s.sel := by
  unfold selOk SelStands
  cases s.phase.any asserted <;> cases s.phase.head?.any releasedAt <;> cases s.sel <;> simp

theorem selStands_cons {p : Pos} {k : List Pos} {b : Bool} : SelStands (p :: k) b ↔
    (asserted p = true → b = true) ∧ (k.any asserted = true → b = true) ∧ (releasedAt p = true → b = false) := by
  simp only [SelStands, List.any_cons, Bool.or_eq_true, or_imp, List.head?_cons, Option.any_some, and_assoc]

theorem selStands_idle (b : Bool) : SelStands [] b := ⟨nofun, nofun⟩

/-! ### Where an operation begins -/

/-- What is presented to the block leaves chip-select and the registers of the card. -/
theorem presented_card {s t : State} (h : Presented s t) :
    t.sel = s.sel ∧ t.conf = s.conf ∧ t.cardType = s.cardType := by
  obtain ⟨⟨o, r, ph, g, -, rfl⟩, -⟩ := h
  exact ⟨rfl, rfl, rfl⟩

theorem hostActs_card {s t : State} (h : HostActs s t) :
    t.sel = s.sel ∧ t.conf = s.conf ∧ t.cardType = s.cardType := by
  obtain ⟨m, -, hp⟩ := h
  exact presented_card (s := { s with mem := m }) hp

/-- The first position of an operation asks nothing of chip-select. -/
theorem starts_selStands {p : Pos} (h : Starts p) (b : Bool) : SelStands [p] b := by
  cases h <;> exact selStands_cons.2 ⟨nofun, nofun, nofun⟩

theorem after_selStands {s t : State} (h : SelStands s.phase s.sel) (ht : t.sel = s.sel) (hp : PhaseAfter s t) :
    SelStands t.phase t.sel := by
  obtain hp | ⟨-, p, hs, hp⟩ := hp <;> rw [hp, ht]
  · exact h
  · exact starts_selStands hs _

/-! ### A return -/

theorem resume_not_released {v : Byte} {w p : Pos} (h : resume v w = some p) : releasedAt p = false := by
  cases w <;> cases h <;> rfl

/-- Where the record goes on asserted, it waited asserted, or a command has just returned to it. -/
theorem resume_asserted {q : Proc} {v : Byte} {w p : Pos} (hw : waitsFor w = some q) (h : resume v w = some p)
    (hp : asserted p = true) : asserted w = true ∨ asserted (.ret q v) = true := by
  cases w <;> cases h <;> first | exact .inl rfl | (cases hw; exact .inr rfl)

theorem resume_selStands {q : Proc} {v : Byte} {w p : Pos} {k : List Pos} {b : Bool} (hw : waitsFor w = some q)
    (hr : resume v w = some p) (h : SelStands (.ret q v :: w :: k) b) : SelStands (p :: k) b := by
  obtain ⟨hret, hwk, -⟩ := selStands_cons.1 h
  simp only [List.any_cons, Bool.or_eq_true, or_imp] at hwk
  obtain ⟨hwait, hk⟩ := hwk
  exact selStands_cons.2 ⟨fun hp => (resume_asserted hw hr hp).elim hwait hret, hk,
    fun hp => absurd hp (by simp [resume_not_released hr])⟩

/-! ### A move -/

theorem ret_not_asserted {q : Proc} {v : Byte} (h : releases q = true) : asserted (.ret q v) = false := by
  cases q <;> first | rfl | cases h

/-- A record that comes to stand asserted stood so before, or the step asserted chip-select. -/
theorem succ_asserted {p : Pos} {top : List Pos} {b : Bool} (h : Succ p top) (hp : topOk p = true)
    (hb : asserted p = true → b = true) (ht : top.any asserted = true) : selAfter p b = true := by
  cases h
  case selAssert | scSelect | syStart => rfl
  case csOff => cases ht
  case csDummy q v => simp [ret_not_asserted hp] at ht
  all_goals first | exact hb rfl | cases ht

/-- The dummy byte comes after the level change, and the return of a procedure that releases after the dummy byte. -/
theorem succ_released {p : Pos} {top : List Pos} {b : Bool} (h : Succ p top) (hb : releasedAt p = true → b = false)
    (ht : top.head?.any releasedAt = true) : selAfter p b = false := by
  cases h
  case csOff => rfl
  case csDummy => exact hb rfl
  case txSingle d _ _ | txMulti d _ _ _ | txBlock d _ _ _ _ _ | txLoopEnd d _ _ _ _ => cases d <;> cases ht
  all_goals cases ht

/-- Only a procedure with nothing below it releases chip-select. -/
theorem uncalled_of_csOff {q : Proc} {v : Byte} {k : List Pos} (h : phaseOk (.csOff q v :: k) = true) : k = [] := by
  obtain ⟨hq, hk⟩ := phaseOk_cons.1 h
  exact callersOk_uncalled hk (callerDepth_of_releases hq)

/-- A caller's chip-select stays asserted while what it called runs. -/
theorem callers_selAfter {p : Pos} {k : List Pos} {b : Bool} (h : phaseOk (p :: k) = true)
    (hb : k.any asserted = true → b = true) (hk : k.any asserted = true) : selAfter p b = true := by
  cases p
  case csOff q v =>
    rw [uncalled_of_csOff h] at hk
    cases hk
  case selAssert | scSelect | syStart => rfl
  all_goals exact hb hk

theorem succ_selStands {p : Pos} {top k : List Pos} {b : Bool} (hok : phaseOk (p :: k) = true) (hs : Succ p top)
    (h : SelStands (p :: k) b) : SelStands (top ++ k) (selAfter p b) := by
  obtain ⟨hp, hk, hrel⟩ := selStands_cons.1 h
  have hrun : topOk p = true := (phaseOk_cons.1 hok).1
  refine ⟨fun ha => ?_, fun hr => ?_⟩
  · rw [List.any_append, Bool.or_eq_true] at ha
    exact ha.elim (succ_asserted hs hrun hp) (callers_selAfter hok hk)
  · have hne : (top ++ k).head? = top.head? := by cases hs <;> rfl
    exact succ_released hs hrel (hne ▸ hr)

/-! ### The step -/

theorem runEvent_selStands {e : Event} {s t : State} (hok : phaseOk s.phase = true) (h : SelStands s.phase s.sel)
    (hr : runEvent e s = .next t) : SelStands t.phase t.sel := by
  obtain ⟨-, rfl⟩ | ⟨-, rfl⟩ | ⟨a, v, -, rfl⟩ | ⟨-, -, hm⟩ | ⟨bs, -, hp, -⟩ | ⟨r, v, -, rfl⟩ |
    ⟨-, q, v, k, hp, hv⟩ | ⟨-, p, k, top, hp, hs, ht, hk⟩ := run_cases hr
  · exact h
  · exact selStands_idle _
  · exact h
  · exact after_selStands h (hostActs_card hm.acts).1 hm.acts.phase
  · exact after_selStands h (presented_card hp).1 hp.2
  · exact h
  · obtain ⟨-, rfl⟩ | ⟨w, k', p, rfl, hw, rfl⟩ := ret_cases hp hv
    · exact selStands_idle _
    · rw [hp] at h hok
      exact resume_selStands (callersOk_cons.1 (phaseOk_cons.1 hok).2).1 hw h
  · rw [hp] at h hok
    rw [ht, hk.sel]
    exact succ_selStands hok hs h

/-- Taking the event off leaves chip-select. -/
theorem nextEvent_sel (s : State) : (nextEvent s).2.sel = s.sel := by
  unfold nextEvent
  split <;> rfl

/-- Settles O51: an event acts by a return, by a move of the running block, or without touching chip-select. -/
theorem stepKeepsChipSelect : Obligations.StepKeepsChipSelect := by
  intro s t hok h hst
  rw [selOk_iff] at h ⊢
  rw [← nextEvent_phase] at hok
  rw [← nextEvent_phase, ← nextEvent_sel] at h
  exact runEvent_selStands hok h hst

end Sys2Proof.Proofs
end

section
/-! Who writes the card configuration and CARD_TYPE (R46, R54, R274): the records that may, and that each of them runs
in RDCONFIG or in SETTYPE. -/

namespace Sys2Proof.Proofs

open Sys2Proof.Machine Sys2Proof.Safety Sys2Proof.Laws

/-! ### Register destinations -/

theorem destOk_of_none {p : Pos} {k : List Pos} (h : destOf p = none) : destOk (p :: k) = true := by
  simp [destOk, h]

theorem after_destOk {s t : State} (h : destOk s.phase = true) (hp : PhaseAfter s t) : destOk t.phase = true := by
  obtain hp | ⟨-, p, hs, hp⟩ := hp <;> rw [hp]
  · exact h
  · cases hs <;> rfl

theorem resume_destOf {v : Byte} {w p : Pos} (h : resume v w = some p) : destOf p = none := by
  cases w <;> cases h <;> rfl

/-- Inside RECVBLK the destination stays; RECVBLK called for a register stands on the record that waits for it. -/
theorem succ_destOk {p : Pos} {top k : List Pos} (hs : Succ p top) (h : destOk (p :: k) = true) :
    destOk (top ++ k) = true := by
  cases hs
  case rbLoad | rbXchg | rbToken | rbAgain | rbData => exact h
  case rcCidCmd | rcCsdCmd | rcSdCmd => exact beq_self_eq_true _
  case txSingle d _ _ | txMulti d _ _ _ | txBlock d _ _ _ _ _ | txLoopEnd d _ _ _ _ => cases d <;> rfl
  all_goals rfl

theorem runEvent_destOk {e : Event} {s t : State} (h : destOk s.phase = true) (hr : runEvent e s = .next t) :
    destOk t.phase = true := by
  obtain ⟨-, rfl⟩ | ⟨-, rfl⟩ | ⟨a, v, -, rfl⟩ | ⟨-, -, hm⟩ | ⟨bs, -, hp, -⟩ | ⟨r, v, -, rfl⟩ |
    ⟨-, q, v, k, hp, hv⟩ | ⟨-, p, k, top, hp, hs, ht, -⟩ := run_cases hr
  · exact h
  · rfl
  · exact h
  · exact after_destOk h hm.acts.phase
  · exact after_destOk h hp.2
  · exact h
  · obtain ⟨-, rfl⟩ | ⟨w, k', p, -, hw, rfl⟩ := ret_cases hp hv
    · rfl
    · exact destOk_of_none (resume_destOf hw)
  · rw [ht]
    exact succ_destOk hs (hp ▸ h)

/-! ### The running operation of a record that writes -/

/-- A procedure that nobody calls is the running operation wherever one of its records stands. -/
theorem operation_of_uncalled {s : State} {pre : List Pos} {p : Pos} {k : List Pos} (hs : s.phase = pre ++ p :: k)
    (hk : callersOk (procOf p) k = true) (hp : callerDepth (procOf p) = 0) : operation s = some (procOf p) := by
  rw [callersOk_uncalled hk hp] at hs
  simp [operation, hs]

/-- Where RECVBLK stores into a register, it stands on a record of RDCONFIG. -/
theorem caller_of_storesRegister {p : Pos} {k : List Pos} (hd : destOk (p :: k) = true) (hst : storesRegister p = true) :
    ∃ w k', k = w :: k' ∧ procOf w = .rdconfig := by
  have hw : ∃ w, k.head? = some w ∧ procOf w = .rdconfig := by
    cases p
    case rbData d len j =>
      cases d
      case buffer => cases hst
      all_goals exact ⟨_, eq_of_beq hd, rfl⟩
    all_goals cases hst
  obtain ⟨w, hk, hw⟩ := hw
  obtain ⟨k', rfl⟩ := List.head?_eq_some_iff.1 hk
  exact ⟨w, k', rfl, hw⟩

theorem operation_of_storesRegister {s : State} {p : Pos} {k : List Pos} (hp : s.phase = p :: k)
    (hok : phaseOk s.phase = true) (hd : destOk s.phase = true) (hst : storesRegister p = true) :
    operation s = some .rdconfig := by
  rw [hp] at hok hd
  obtain ⟨w, k', rfl, hw⟩ := caller_of_storesRegister hd hst
  have hc : callersOk (procOf w) k' = true := (callersOk_cons.1 (phaseOk_cons.1 hok).2).2
  rw [← hw]
  exact operation_of_uncalled (pre := [p]) hp hc (by rw [hw]; rfl)

/-! ### The step -/

/-- What an event may write of the card's registers, PHASE being `ph` before it. -/
theorem runEvent_writers {e : Event} {s t : State} (hok : phaseOk s.phase = true) (hd : destOk s.phase = true)
    (hr : runEvent e s = .next t) :
    (t.conf ≠ s.conf → operation s = some .rdconfig ∨ e = .reset) ∧
      (t.cardType ≠ s.cardType → operation s = some .settype ∨ e = .reset) := by
  obtain ⟨-, rfl⟩ | ⟨he, -⟩ | ⟨a, v, -, rfl⟩ | ⟨-, -, hm⟩ | ⟨bs, -, hp, -⟩ | ⟨r, v, -, rfl⟩ |
    ⟨-, q, v, k, hp, hv⟩ | ⟨-, p, k, top, hp, -, -, hk⟩ := run_cases hr
  · exact ⟨fun h => absurd rfl h, fun h => absurd rfl h⟩
  · exact ⟨fun _ => .inr he, fun _ => .inr he⟩
  · exact ⟨fun h => absurd rfl h, fun h => absurd rfl h⟩
  · obtain ⟨-, hc, ht⟩ := hostActs_card hm.acts
    exact ⟨fun h => absurd hc h, fun h => absurd ht h⟩
  · obtain ⟨-, hc, ht⟩ := presented_card hp
    exact ⟨fun h => absurd hc h, fun h => absurd ht h⟩
  · exact ⟨fun h => absurd rfl h, fun h => absurd rfl h⟩
  · obtain ⟨-, rfl⟩ | ⟨w, k', p, -, -, rfl⟩ := ret_cases hp hv <;>
      exact ⟨fun h => absurd rfl h, fun h => absurd rfl h⟩
  · have hc : callersOk (procOf p) k = true := (phaseOk_cons.1 (hp ▸ hok)).2
    refine ⟨fun h => .inl ?_, fun h => .inl ?_⟩
    · cases hst : storesRegister p
      · have hpr : procOf p = .rdconfig := by_contra fun hne => h (hk.conf hne hst)
        rw [← hpr]
        exact operation_of_uncalled (pre := []) hp hc (by rw [hpr]; rfl)
      · exact operation_of_storesRegister hp hok hd hst
    · obtain ⟨ty, rfl⟩ : ∃ ty, p = .stSet ty := by
        by_contra hne
        exact h (hk.cardType fun ty hty => hne ⟨ty, hty⟩)
      exact operation_of_uncalled (pre := []) hp hc rfl

/-- Taking the event off leaves the card's registers. -/
theorem nextEvent_card (s : State) :
    (nextEvent s).2.conf = s.conf ∧ (nextEvent s).2.cardType = s.cardType ∧ operation (nextEvent s).2 = operation s := by
  unfold operation
  rw [nextEvent_phase]
  unfold nextEvent
  split <;> exact ⟨rfl, rfl, rfl⟩

/-- Settles O52: only records of RDCONFIG, or of RECVBLK under them, write the configuration, and only SETTYPE's the
type; nobody calls these two procedures, so each is the running operation. -/
theorem onlyConfigWritersWrite : Obligations.OnlyConfigWritersWrite := by
  intro s t hok hd hst
  rw [← nextEvent_phase] at hok hd
  obtain ⟨hconf, htype, hop⟩ := nextEvent_card s
  have hw := runEvent_writers hok hd hst
  rw [hconf, htype, hop] at hw
  exact ⟨runEvent_destOk hd hst, hw⟩

end Sys2Proof.Proofs
end

section
/-! What an instruction at the host port and what a one-byte element may change (R59, R113, R123, R124, R140, R143), and
the acceptance of an operation by the idle block (R20, R120, R123). -/

namespace Sys2Proof.Proofs

open Sys2Proof.Machine Sys2Proof.Safety Sys2Proof.Laws

variable {s : State}

/-! ### The refusal tests are those of R124 -/

theorem bufOperand_le (s : State) (buf : Nat) : buf % 2 ^ s.cfg.addrWidth ≤ 2 ^ s.cfg.addrWidth :=
  (bufOperand_lt s buf).le

/-- A block of no bytes does not wrap by its sum either. -/
theorem bufWraps_operand (s : State) (buf n : Nat) :
    bufWraps s (bufOperand s buf) n = decide (2 ^ s.cfg.addrWidth < buf % 2 ^ s.cfg.addrWidth + n) := by
  cases n with
  | zero => simp [bufWraps, bufOperand_le]
  | succ n => simp [bufWraps, bufOperand, bufAddr]

theorem sectorRefused_eq (s : State) (cnt : BitVec 32) (buf : Nat) : sectorRefused s cnt buf =
    (cnt == 0 || decide (2 ^ s.cfg.addrWidth < buf % 2 ^ s.cfg.addrWidth + s.cfg.sectorBytes * cnt.toNat)) := by
  rw [sectorRefused, bufWraps_operand]

/-- So R124 may ask for LEN ≠ 0 beside the wrap or not. -/
theorem bufWraps_len (s : State) (buf : Nat) (len : BitVec 16) : bufWraps s (bufOperand s buf) len.toNat =
    (len != 0 && decide (2 ^ s.cfg.addrWidth < buf % 2 ^ s.cfg.addrWidth + len.toNat)) := by
  rw [bufWraps_operand]
  by_cases hl : len = 0
  · subst hl
    exact decide_eq_false (bufOperand_le s buf).not_gt
  · rw [bne_iff_ne.2 hl, Bool.true_and]

theorem cardTypeOf_isNone (ty : BitVec 3) : (cardTypeOf ty).isNone = decide (4 < ty.toNat) := by
  revert ty
  decide

/-! ### Acceptance -/

/-- An instruction at the host port is one operation presented to the block, refused as R124 says; IDLECLK, which is
several, apart. -/
theorem exec_eq_accept {i : Instr} (hi : place i = .host) (hk : ∀ k, i ≠ .idleclk k) (s : State) :
    ∃ op l p, exec i s = .next (accept op l (refusedBy s i) p s) := by
  cases i
  case idleclk k => exact absurd rfl (hk k)
  case recvblk buf len => exact ⟨_, _, _, by rw [refusedBy, ← bufWraps_len]; rfl⟩
  case sendblk buf len tok => exact ⟨_, _, _, by rw [refusedBy, ← bufWraps_len]; rfl⟩
  case rdsect sect cnt buf => exact ⟨_, _, _, by rw [refusedBy, ← sectorRefused_eq]; rfl⟩
  case wrsect sect cnt buf => exact ⟨_, _, _, by rw [refusedBy, Bool.or_assoc, ← sectorRefused_eq]; rfl⟩
  case settype ty => exact ⟨_, _, _, by rw [refusedBy, ← cardTypeOf_isNone]; rfl⟩
  case tokenStartSingle | tokenStartMulti | tokenStopTran | dataResponseAccepted | r1Valid | codeNotReady
    | codeRespTimeout | codeRefused | ready => cases hi
  all_goals exact ⟨_, _, _, rfl⟩

/-- Only a refusal writes RES. -/
theorem accept_res (op : BitVec 4) (l : Operands → Operands) (r : Bool) (p : Pos) (s : State) :
    (accept op l r p s).res = s.res ∨ (accept op l r p s).res = 0xFF#8 ∧ r = true := by
  unfold accept
  split
  · exact .inl rfl
  · split
    · exact .inr ⟨rfl, ‹_›⟩
    · exact .inl rfl

theorem accept_idle {op : BitVec 4} {l : Operands → Operands} {r : Bool} {p : Pos} (hb : busy s = false)
    (hr : r = false) : (.next (accept op l r p s) : Result) =
      .next { s with ops := l { s.ops with op := op }, phase := [p] } := by
  simp [accept, hb, hr]

/-- Settles O6: each of these operations is `accept`, and the idle block accepts what it does not refuse. -/
theorem operationsAccepted : Obligations.OperationsAccepted := by
  intro s hb
  refine ⟨accept_idle hb rfl, accept_idle hb rfl, fun b => accept_idle hb rfl, accept_idle hb rfl,
    fun buf len hr => accept_idle hb ?_, fun buf len tok hr => accept_idle hb ?_,
    fun sect cnt buf hr => accept_idle hb ?_, fun sect cnt buf hr => accept_idle hb ?_, accept_idle hb rfl,
    fun ty hr => accept_idle hb ?_, accept_idle hb rfl, fun v => accept_idle hb rfl⟩
  · rwa [bufWraps_len]
  · rwa [bufWraps_len]
  · rwa [sectorRefused_eq]
  · rwa [sectorRefused_eq, ← Bool.or_assoc]
  · rwa [cardTypeOf_isNone]

/-! ### RES after an instruction at the host port -/

theorem exec_idleclk_res {k : Nat} {t : State} (h : exec (.idleclk k) s = .next t) : t.res = s.res := by
  cases k with
  | zero => exact congrArg State.res (Host.Outcome.next.inj h).symm
  | succ k =>
    simp only [exec, execIdleclk] at h
    split at h <;> rw [← Host.Outcome.next.inj h]
    exact (accept_res _ _ _ _ _).resolve_right nofun

theorem exec_host_res {i : Instr} {t : State} (hi : place i = .host) (h : exec i s = .next t) :
    t.res = s.res ∨ t.res = 0xFF#8 ∧ refusedBy s i = true := by
  by_cases hk : ∃ k, i = .idleclk k
  · obtain ⟨k, rfl⟩ := hk
    exact .inl (exec_idleclk_res h)
  · obtain ⟨op, l, p, ha⟩ := exec_eq_accept hi (fun k hik => hk ⟨k, hik⟩) s
    rw [← Host.Outcome.next.inj (ha.symm.trans h)]
    exact accept_res _ _ _ _ _

/-! ### A one-byte element -/

/-- What a one-byte element does: it moves PHASE, it is the refused code written to RES, or it is a token exchanged. -/
inductive WireActs (i : Instr) (s t : State) : Prop
  | moves (ph : List Pos) (ht : t = { s with phase := ph })
  | refuses (hi : i = .codeRefused) (ht : t = refuse s)
  | sends (tok : Byte) (ph : List Pos) (hi : sentToken s.cfg i = some tok) (ht : t = { (xchg tok s).2 with phase := ph })

theorem exec_wire {i : Instr} {t : State} (hi : place i ≠ .host) (h : exec i s = .next t) : WireActs i s t := by
  cases i
  case tokenStartSingle =>
    simp only [exec, execTokenStartSingle] at h
    split at h
    · exact .moves _ (Host.Outcome.next.inj h).symm
    · exact .sends _ _ rfl (Host.Outcome.next.inj h).symm
    · exact .moves s.phase (Host.Outcome.next.inj h).symm
  case tokenStartMulti =>
    simp only [exec, execTokenStartMulti] at h
    split at h
    · exact .sends _ _ rfl (Host.Outcome.next.inj h).symm
    · exact .moves s.phase (Host.Outcome.next.inj h).symm
  case tokenStopTran =>
    simp only [exec, execTokenStopTran] at h
    split at h
    · exact .sends _ _ rfl (Host.Outcome.next.inj h).symm
    · exact .moves s.phase (Host.Outcome.next.inj h).symm
  case codeRefused =>
    simp only [exec, execCodeRefused] at h
    split at h
    · exact .moves s.phase (Host.Outcome.next.inj h).symm
    · exact .refuses rfl (Host.Outcome.next.inj h).symm
  case dataResponseAccepted | r1Valid | codeNotReady | codeRespTimeout | ready =>
    simp only [exec, execDataResponseAccepted, execR1Valid, execCodeNotReady, execCodeRespTimeout, execReady] at h
    split at h <;> exact .moves _ (Host.Outcome.next.inj h).symm
  all_goals exact absurd rfl hi

/-! ### The frame -/

/-- What no instruction touches: the buffer, the parameters, RESP, chip-select, the timers, the card's registers, the
events to come, and all of the host but its list of operations. -/
structure Untouched (s t : State) : Prop where
  mem : t.mem = s.mem
  cfg : t.cfg = s.cfg
  resp : t.resp = s.resp
  sel : t.sel = s.sel
  t1 : t.t1 = s.t1
  t2 : t.t2 = s.t2
  cardType : t.cardType = s.cardType
  conf : t.conf = s.conf
  events : t.events = s.events
  host : ∃ ps, t.host = { s.host with prog := ps }

theorem presented_untouched {t : State} (h : Presented s t) (hh : ∃ ps, t.host = { s.host with prog := ps }) :
    Untouched s t := by
  obtain ⟨⟨o, r, ph, g, -, rfl⟩, -⟩ := h
  exact ⟨rfl, rfl, rfl, rfl, rfl, rfl, rfl, rfl, rfl, hh⟩

theorem WireActs.untouched {i : Instr} {t : State} (h : WireActs i s t) : Untouched s t := by
  obtain ⟨ph, rfl⟩ | ⟨-, rfl⟩ | ⟨tok, ph, -, rfl⟩ := h
  · exact ⟨rfl, rfl, rfl, rfl, rfl, rfl, rfl, rfl, rfl, _, rfl⟩
  · exact ⟨rfl, rfl, rfl, rfl, rfl, rfl, rfl, rfl, rfl, _, rfl⟩
  · exact ⟨xchg_mem s tok, xchg_cfg s tok, xchg_resp s tok, xchg_sel s tok, xchg_t1 s tok, xchg_t2 s tok,
      xchg_cardType s tok, xchg_conf s tok, xchg_events s tok, _, xchg_host s tok⟩

theorem exec_untouched {i : Instr} {t : State} (h : exec i s = .next t) : Untouched s t := by
  by_cases hi : place i = .host
  · obtain ⟨hp, hh⟩ := exec_presented hi h
    exact presented_untouched hp hh
  · exact (exec_wire hi h).untouched

theorem memRead_congr {t : State} (hm : t.mem = s.mem) (hc : t.cfg = s.cfg) (a : Nat) : memRead t a = memRead s a := by
  simp only [memRead, bufAddr, hm, hc]

theorem presented_wire {t : State} (h : Presented s t) : t.trace = s.trace ∧ t.rxq = s.rxq ∧ t.drawn = s.drawn := by
  obtain ⟨⟨o, r, ph, g, -, rfl⟩, -⟩ := h
  exact ⟨rfl, rfl, rfl⟩

/-- Beside PHASE a one-byte element touches RES, of the refused code, or the wire, of a token sent. -/
theorem WireActs.frame {i : Instr} {t : State} (h : WireActs i s t) :
    t.ops = s.ops ∧ t.host = s.host ∧ (i ≠ .codeRefused → t.res = s.res) ∧
      (t.trace = s.trace ∧ t.rxq = s.rxq ∧ t.drawn = s.drawn ∨
        ∃ tok, sentToken s.cfg i = some tok ∧ t.trace = (xchg tok s).2.trace ∧ t.rxq = (xchg tok s).2.rxq ∧
          t.drawn = (xchg tok s).2.drawn) := by
  obtain ⟨ph, rfl⟩ | ⟨hi, rfl⟩ | ⟨tok, ph, hi, rfl⟩ := h
  · exact ⟨rfl, rfl, fun _ => rfl, .inl ⟨rfl, rfl, rfl⟩⟩
  · exact ⟨rfl, rfl, fun hne => absurd hi hne, .inl ⟨rfl, rfl, rfl⟩⟩
  · exact ⟨xchg_ops s tok, xchg_host s tok, fun _ => xchg_res s tok, .inr ⟨tok, hi, rfl, rfl, rfl⟩⟩

/-- Settles O11: the frame common to all instructions, then that of the host port and that of the one-byte elements. -/
theorem instructionFrame : Obligations.InstructionFrame := by
  intro i s t h
  obtain ⟨hmem, hcfg, hresp, hsel, ht1, ht2, htype, hconf, hev, ps, hhost⟩ := exec_untouched h
  refine ⟨memRead_congr hmem hcfg, hcfg, hresp, hsel, ht1, ht2, htype, hconf, hev, by rw [hhost], by rw [hhost],
    by rw [hhost], by rw [hhost], by rw [hhost], fun hi => ?_, fun hi => (exec_wire hi h).frame⟩
  obtain ⟨htrace, hrxq, hdrawn⟩ := presented_wire (exec_presented hi h).1
  exact ⟨htrace, hrxq, hdrawn, exec_host_res hi h⟩

end Sys2Proof.Proofs
end

section
/-! The reset state: the values of R57, and that it meets the invariants. -/

namespace Sys2Proof.Proofs

open Sys2Proof.Machine Sys2Proof.Safety Sys2Proof.Laws

/-- Settles O15: the table of R57 read off the reset state. -/
theorem resetValues : Obligations.ResetValues := by
  refine ⟨rfl, rfl, rfl, rfl, rfl, rfl, rfl, rfl, rfl, rfl, rfl, ?_, ?_, ?_, ?_, rfl⟩
  all_goals exact Vector.toList_replicate

theorem reset_widthsOk : widthsOk State.reset = true := by
  have hz (w : Nat) : 0 < 2 ^ w := Nat.two_pow_pos w
  exact (widthsOk_iff _).2 ⟨hz _, hz _, hz _, hz _⟩

/-- At reset NOINIT is set, nothing runs and the host does not wait for RDCONFIG, so nothing is asked of SECTOR_SIZE. -/
theorem reset_sizeOk : sizeOk State.reset := ⟨rfl, nofun, nofun, nofun⟩

/-- Settles O56: nothing runs at reset and every register is 0, so each invariant asks nothing or holds of 0. -/
theorem resetMeetsInvariants : Obligations.ResetMeetsInvariants :=
  ⟨wf_reset, rfl, rfl, rfl, List.length_replicate, reset_sizeOk, reset_widthsOk⟩

end Sys2Proof.Proofs
end

section
/-! The adapter's calls (R350, R352, R357 to R360) and a register read by itself (R11, R30, R43, R45, R74). -/

namespace Sys2Proof.Proofs

open Sys2Proof.Machine Sys2Proof.Safety Sys2Proof.Laws

variable {s : State} {cs : List Call} {b : Nat}

/-! ### A call begins, NOINIT clear -/

theorem hostStep_read {n m : BitVec 32} (hf : s.host.pos = .free) (hc : s.host.calls = .read b n m :: cs)
    (hn : s.host.noinit = false) : hostStep s =
      exec (.rdsect n m b) { s with host := { s.host with calls := cs, pos := .transfer } } := by
  rw [hostStep_call hf hc]
  simp [startCall, hn, issue, setHostPos]

theorem hostStep_write {n m : BitVec 32} (hf : s.host.pos = .free) (hc : s.host.calls = .write b n m :: cs)
    (hn : s.host.noinit = false) (hw : s.cfg.writeSupport = true) : hostStep s =
      exec (.wrsect n m b) { s with host := { s.host with calls := cs, pos := .transfer } } := by
  rw [hostStep_call hf hc]
  simp [startCall, hn, hw, issue, setHostPos]

theorem hostStep_write_unsupported {n m : BitVec 32} (hf : s.host.pos = .free)
    (hc : s.host.calls = .write b n m :: cs) (hw : s.cfg.writeSupport = false) :
    hostStep s = .refused .noSuchCall := by
  rw [hostStep_call hf hc]
  simp [startCall, hw]

theorem hostStep_sync (hf : s.host.pos = .free) (hc : s.host.calls = .ioctl 0 b :: cs)
    (hn : s.host.noinit = false) : hostStep s =
      exec .sync { s with host := { s.host with calls := cs, pos := .syncing } } := by
  rw [hostStep_call hf hc]
  simp [startCall, hn, issue, setHostPos]

/-- The buffer takes a payload whatever the host holds. -/
theorem storePayload_host (a k : Nat) (bs : List Byte) (s : State) (g : HostAgent) :
    storePayload (.buffer a) k bs { s with host := g } = { storePayload (.buffer a) k bs s with host := g } := by
  induction bs generalizing k s with
  | nil => rfl
  | cons x bs ih => exact ih (k + 1) (storeByte (.buffer a) k x s)

theorem startCall_ioctl {code : Nat} {v : CallRet} {bs : List Byte} (hn : s.host.noinit = false) (hcode : code ≠ 0)
    (ha : ioctlAnswer code s = (v, bs)) :
    startCall (.ioctl code b) s = Machine.finish v (storePayload (.buffer b) 0 bs s) := by
  simp only [startCall, hn, Bool.false_eq_true, if_false, hcode, ha, ← memWriteList_eq, Nat.add_zero]

/-- An ioctl that answers lays the bytes in the caller's buffer as RECVBLK lays a payload, and returns. -/
theorem hostStep_ioctl {code : Nat} {v : CallRet} {bs : List Byte} (hf : s.host.pos = .free)
    (hc : s.host.calls = .ioctl code b :: cs) (hn : s.host.noinit = false) (hcode : code ≠ 0)
    (ha : ioctlAnswer code s = (v, bs)) : hostStep s =
      .next { storePayload (.buffer b) 0 bs s with host := { s.host with calls := cs, ret := some v } } := by
  calc
    hostStep s = Machine.finish v (storePayload (.buffer b) 0 bs { s with host := { s.host with calls := cs } }) :=
      (hostStep_call hf hc).trans (startCall_ioctl hn hcode ha)
    _ = Machine.finish v { storePayload (.buffer b) 0 bs s with host := { s.host with calls := cs } } := by
      rw [storePayload_host]
    _ = _ := by simp only [Machine.finish, hf]

theorem cardTypeBits_byte (ty : CardType) : (cardTypeBits ty).setWidth 8 = 0#5 ++ cardTypeBits ty := by
  cases ty <;> rfl

theorem ioctlAnswer_cardType (s : State) :
    ioctlAnswer 4 s = (.number (cardTypeBits s.cardType).toNat, [0#5 ++ cardTypeBits s.cardType]) := by
  rw [← cardTypeBits_byte]
  rfl

/-- The eight codes that hand a register over (R358, R360). -/
theorem ioctlAnswer_known {code : Nat} {v : CallRet} {bs : List Byte} (h : (code, v, bs) ∈ [
      (1, CallRet.number s.conf.sectorCount.toNat, numberLayout 4 s.conf.sectorCount.toNat),
      (2, .number s.conf.sectorSize.toNat, numberLayout 2 s.conf.sectorSize.toNat),
      (3, .number s.conf.eraseBlock.toNat, numberLayout 4 s.conf.eraseBlock.toNat),
      (4, .number (cardTypeBits s.cardType).toNat, [0#5 ++ cardTypeBits s.cardType]),
      (5, .bytes s.conf.csd.toList, s.conf.csd.toList), (6, .bytes s.conf.cid.toList, s.conf.cid.toList),
      (7, .bytes s.conf.ocr.toList, s.conf.ocr.toList),
      (8, .bytes s.conf.sdstatus.toList, s.conf.sdstatus.toList)]) :
    code ≠ 0 ∧ ioctlAnswer code s = (v, bs) := by
  simp only [List.mem_cons, Prod.mk.injEq, List.not_mem_nil, or_false] at h
  obtain ⟨rfl, rfl, rfl⟩ | ⟨rfl, rfl, rfl⟩ | ⟨rfl, rfl, rfl⟩ | ⟨rfl, rfl, rfl⟩ | ⟨rfl, rfl, rfl⟩ | ⟨rfl, rfl, rfl⟩ |
    ⟨rfl, rfl, rfl⟩ | ⟨rfl, rfl, rfl⟩ := h
  case _ | _ | _ => exact ⟨by decide, rfl⟩
  · exact ⟨by decide, ioctlAnswer_cardType s⟩
  all_goals exact ⟨by decide, rfl⟩

theorem ioctlAnswer_unknown {code : Nat} (h : 8 < code) (s : State) :
    ioctlAnswer code s = (.code .parameterError, []) := by
  unfold ioctlAnswer
  split
  case h_9 => rfl
  all_goals omega

/-! ### A call returns -/

theorem hostStep_transfer (h : s.host.pos = .transfer) : hostStep s = .next { s with host := { s.host with
    pos := .free
    ret := some (.code (if s.res = 0xFF#8 then .parameterError else if s.res = 1#8 then .okay else .error)) } } :=
  hostStep_waiting h nofun

theorem hostStep_syncing (h : s.host.pos = .syncing) : hostStep s = .next { s with host := { s.host with
    pos := .free, ret := some (.code (if s.res = 1#8 then .okay else .notReady)) } } :=
  hostStep_waiting h nofun

/-! ### A register read -/

theorem readRegister_busyflag (s : State) :
    readRegister .busyflag s = .number (if s.phase = [] then 0 else 1) := by
  unfold readRegister busy
  cases s.phase <;> rfl

/-- Settles O58: each call as the host's step begins or ends it, and each register as a read gives it. -/
theorem adapterCalls : Obligations.AdapterCalls := by
  refine ⟨fun s cs c _ hf hc hn => ⟨?_, ?_, ?_, ?_, ?_⟩, fun s cs b n m _ hf hc hw => hostStep_write_unsupported hf hc hw,
    fun s _ => ⟨hostStep_transfer, hostStep_syncing⟩, fun s r => ⟨readRegister r s, rfl, ?_⟩⟩
  · rintro b n m rfl
    exact hostStep_read hf hc hn
  · rintro b n m rfl hw
    exact hostStep_write hf hc hn hw
  · rintro b rfl
    exact hostStep_sync hf hc hn
  · rintro n v bs b hmem rfl
    obtain ⟨hcode, ha⟩ := ioctlAnswer_known hmem
    exact hostStep_ioctl hf hc hn hcode ha
  · rintro n b hn8 rfl
    exact hostStep_ioctl hf hc hn (by omega) (ioctlAnswer_unknown hn8 s)
  · refine ⟨?_, ?_, ?_, ?_, ?_, ?_, ?_, ?_, ?_, ?_, ?_, ?_, ?_⟩ <;> rintro rfl
    case _ | _ => rfl
    · exact readRegister_busyflag s
    all_goals rfl

end Sys2Proof.Proofs
end

section
/-! The data buffer (R60, R67, R70, R271): every step keeps its list canonical, and a stored payload reads back. -/

namespace Sys2Proof.Proofs

open Sys2Proof.Machine Sys2Proof.Safety Sys2Proof.Laws

/-! ### The canonical form -/

theorem hostActs_memory {s t : State} (hw : Memory.wf s.mem = true) (h : HostActs s t) : Memory.wf t.mem = true := by
  obtain ⟨m, hm, ⟨o, r, ph, g, -, rfl⟩, -⟩ := h
  exact hm hw

theorem kept_memory {p : Pos} {s t : State} (hw : Memory.wf s.mem = true) (h : Kept p s t) :
    Memory.wf t.mem = true := by
  obtain hm | ⟨a, v, hm⟩ := h.mem <;> rw [hm]
  · exact hw
  · exact wf_memWrite s a v hw

/-- Three things write the buffer: the host's own write, a step of the host, and a step of the running block. -/
theorem runEvent_memory {e : Event} {s t : State} (hw : Memory.wf s.mem = true) (hr : runEvent e s = .next t) :
    Memory.wf t.mem = true := by
  obtain ⟨-, rfl⟩ | ⟨-, rfl⟩ | ⟨a, v, -, rfl⟩ | ⟨-, -, hm⟩ | ⟨bs, -, hp, -⟩ | ⟨r, v, -, rfl⟩ |
    ⟨-, q, v, k, hp, hv⟩ | ⟨-, p, k, top, -, -, -, hk⟩ := run_cases hr
  · exact hw
  · exact hw
  · exact wf_memWrite s a v hw
  · exact hostActs_memory hw hm.acts
  · exact hostActs_memory hw hp.acts
  · exact hw
  · obtain ⟨-, rfl⟩ | ⟨w, k', p, -, -, rfl⟩ := ret_cases hp hv <;> exact hw
  · exact kept_memory hw hk

/-- Settles O49: taking the event off leaves the buffer, and whatever the event writes there keeps it canonical. -/
theorem stepKeepsMemoryCanonical : Obligations.StepKeepsMemoryCanonical := by
  intro s t hw h
  obtain ⟨e, es, d, -, hr⟩ := step_cases h
  exact runEvent_memory (s := { s with events := es, drawn := d }) hw hr

/-! ### A payload stored in the buffer -/

theorem storePayload_buffer_frame (buf : Nat) (bs : List Byte) (s : State) :
    storePayload (.buffer buf) 0 bs s = { s with mem := (storePayload (.buffer buf) 0 bs s).mem } := by
  rw [← memWriteList_eq]
  exact memWriteList_frame _ bs s

/-- Settles O33: a payload is stored byte by byte into the buffer alone, and no byte lands on another. -/
theorem payloadReadsBack : Obligations.PayloadReadsBack := by
  intro buf bs s hw hfit
  exact ⟨storePayload_buffer_frame buf bs s, memRead_storePayload buf 0 bs s hw hfit⟩

end Sys2Proof.Proofs
end

section
/-! The command frame (R66, R90 to R95): its bytes as one number, and its trailer. -/

namespace Sys2Proof.Proofs

open Sys2Proof.Machine Sys2Proof.Safety Sys2Proof.Laws

/-- A bit string followed by another, as numbers. -/
theorem toNat_append_eq_add {m n : Nat} (x : BitVec m) (y : BitVec n) :
    (x ++ y).toNat = x.toNat * 2 ^ n + y.toNat := by
  rw [BitVec.toNat_append, ← Nat.shiftLeft_add_eq_or_of_lt y.isLt, Nat.shiftLeft_eq]

theorem numberOf_concat (bs : List Byte) (b : Byte) : numberOf (bs ++ [b]) = numberOf bs * 256 + b.toNat := by
  simp [numberOf]

/-- The argument stands big-endian behind the command byte (R66). -/
theorem numberOf_cons_bytes32 (b : Byte) (w : BitVec 32) :
    numberOf (b :: bytes32 w) = b.toNat * 2 ^ 32 + w.toNat := by
  have hw := w.isLt
  simp only [numberOf, bytes32, List.foldl_cons, List.foldl_nil, extract_byte]
  omega

theorem numberOf_buildFrame (p : Params) (idx : BitVec 6) (arg : BitVec 32) : numberOf (buildFrame p idx arg) =
    (p.cmdPrefix ++ idx ++ arg ++ selectCrc p idx arg ++ 1#1 : BitVec 48).toNat := by
  calc
    numberOf (buildFrame p idx arg)
      = numberOf (frameHead p.cmdPrefix idx arg) * 256 + (trailerByte (selectCrc p idx arg)).toNat :=
        numberOf_concat _ _
    _ = ((p.cmdPrefix ++ idx : BitVec 8).toNat * 2 ^ 32 + arg.toNat) * 256 +
          ((selectCrc p idx arg).toNat * 2 ^ 1 + (1#1).toNat) := by
        rw [frameHead, numberOf_cons_bytes32, trailerByte, toNat_append_eq_add (selectCrc p idx arg)]
    _ = _ := by
        simp only [toNat_append_eq_add]
        omega

/-- The trailer is the CRC of the five bytes before it for the two CRC indices, the filler for every other (R94). -/
theorem buildFrame_getLast? (p : Params) (idx : BitVec 6) (arg : BitVec 32) : (buildFrame p idx arg).getLast? =
    some (if idx = p.idxGoIdle ∨ idx = p.idxSendIfCond then crc7 ((buildFrame p idx arg).take 5) ++ 1#1
      else p.dummyCrc7 ++ 1#1) := by
  have htake : (buildFrame p idx arg).take 5 = frameHead p.cmdPrefix idx arg := rfl
  rw [htake, buildFrame, List.getLast?_concat, trailerByte, selectCrc]
  split <;> rfl

/-- Settles O3: the frame read as one number byte by byte, its last byte by the selector, and the three worked frames. -/
theorem frameLayout : Obligations.FrameLayout := by
  refine ⟨fun p idx arg => ⟨buildFrame_length p idx arg, numberOf_buildFrame p idx arg, buildFrame_getLast? p idx arg⟩,
    ?_, ?_, ?_⟩ <;> decide +kernel

end Sys2Proof.Proofs
end

section
/-! Refused operations (R70, R124): what a refusal writes, and that the idle block accepts every other operation. -/

namespace Sys2Proof.Proofs

open Sys2Proof.Machine Sys2Proof.Safety

variable {s : State}

theorem accept_refused {op : BitVec 4} {l : Operands → Operands} {r : Bool} {p : Pos} (hb : busy s = false)
    (hr : r = true) : accept op l r p s = { s with ops := l { s.ops with op := op }, res := 0xFF#8 } := by
  simp [accept, hb, hr, refuse, Config.codeRefused]

/-- What IDLECLK presents, XCHG, is never refused. -/
theorem exec_idleclk_accepted (k : Nat) (hb : busy s = false) :
    ∃ t, exec (.idleclk (k + 1)) s = .next t ∧ busy t = true ∧ t.res = s.res := by
  refine ⟨{ s with
    ops := { s.ops with op := 0x2, txb := 0xFF }, phase := [.xcXchg 0xFF]
    host := { s.host with prog := List.replicate k [0x02#8, 0xFF#8] ++ s.host.prog } }, ?_, rfl, rfl⟩
  simp only [exec, execIdleclk, hb, Bool.false_eq_true, if_false]
  exact accept_idle hb rfl

/-- Settles O8: an instruction of the host port is one `accept` under the tests of R124, IDLECLK apart. -/
theorem refusedOperations : Obligations.RefusedOperations := by
  intro i s hi hb
  by_cases hk : ∃ k, i = .idleclk k
  · obtain ⟨k, rfl⟩ := hk
    refine ⟨nofun, fun _ h0 => ?_⟩
    obtain ⟨j, rfl⟩ := Nat.exists_eq_succ_of_ne_zero (n := k) fun hz => h0 (hz ▸ rfl)
    exact exec_idleclk_accepted j hb
  · obtain ⟨op, l, p, ha⟩ := exec_eq_accept hi (fun k hik => hk ⟨k, hik⟩) s
    rw [ha]
    refine ⟨fun hr => ⟨l { s.ops with op := op }, ?_⟩, fun hr _ => ⟨_, accept_idle hb hr, rfl, rfl⟩⟩
    rw [accept_refused hb hr]

end Sys2Proof.Proofs
end

section
/-! Sector transfers: the card address of a sector (R63, R64, R71), and a read of several sectors (R241 to R246). -/

namespace Sys2Proof.Proofs

open Sys2Proof.Machine Sys2Proof.Safety Sys2Proof.Laws

/-! ### The card address -/

theorem cardAddress_toNat {p : Params} {t : CardType} (ht : t ≠ .sdv2hc) (sect : BitVec 32) :
    (cardAddress p t sect).toNat = sect.toNat * p.sectorBytes % 2 ^ 32 := by
  simp [cardAddress, ht]

theorem cardAddress_eq_shift {p : Params} {t : CardType} (ht : t ≠ .sdv2hc) (hp : p.sectorBytes = 512)
    (sect : BitVec 32) : cardAddress p t sect = sect <<< 9 := by
  apply BitVec.eq_of_toNat_eq
  rw [cardAddress_toNat ht, hp, BitVec.toNat_shiftLeft, Nat.shiftLeft_eq]

/-- Settles O37: the product modulo 2^32 is the shift where a sector has 512 bytes, and the product itself where that
fits. -/
theorem cardAddressConversion : Obligations.CardAddressConversion := by
  intro p t sect
  refine ⟨fun ht => if_pos ht, fun ht => cardAddress_toNat ht sect,
    fun ht hp => ⟨cardAddress_eq_shift ht hp sect, fun hs => ?_⟩⟩
  rw [cardAddress_toNat ht, hp]
  omega

/-! ### Several sectors stored -/

theorem storeBlocks_buffer_frame (p : Nat) (bs : List Block) (s : State) :
    storeBlocks p bs s = { s with mem := (storeBlocks p bs s).mem } := by
  induction bs generalizing p s with
  | nil => rfl
  | cons b bs ih =>
    rw [storeBlocks, ih, storePayload_buffer_frame]

/-- What stored sectors leave in the buffer does not depend on the operands, PHASE, chip-select, the timers or the
wire. -/
theorem storeBlocks_update_mem (p : Nat) (bs : List Block) (s : State) (o : Operands) (ph : List Pos) (b : Bool)
    (m n : Nat) (q : List Byte) (tr : List BusEvent) : (storeBlocks p bs { s with
      ops := o, phase := ph, sel := b, t1 := m, t2 := n, rxq := q, trace := tr }).mem = (storeBlocks p bs s).mem := by
  refine (storeBlocks_congr p bs s _ ?_ ?_ ?_).1 <;> rfl

/-! ### A read of several sectors -/

theorem answer_extra_nil {p : Params} {c : Answer} (h : c.fits p 0 = true) : c.extra = [] := by
  obtain ⟨-, -, -, -, -, hl⟩ := answer_fits h
  exact List.length_eq_zero_iff.1 hl

/-- The command of a read of several sectors accepted: the first block is called for (R241). -/
theorem read_opened (c : Answer) (rest : List Byte) {sect cnt : BitVec 32} (buf : Nat) (k : List Pos) (s : State)
    (hp : s.phase = .txStart .read sect cnt buf :: k) (hr : s.rxq = c.bytes ++ rest) (h1 : ¬cnt = 1#32)
    (hc : c.fits s.cfg 0 = true) (hv : c.r1 = 0#8) (ht : boundsOk s.cfg = true) :
    Reaches s { s with
      phase := .rbLoad (.buffer buf) s.cfg.sectorBytes :: .txWaitBlock .read cnt buf :: k
      sel := true, t2 := s.cfg.waitReadyTicks, rxq := rest
      trace := c.trace s.cfg s.cfg.idxReadMulti (cardAddress s.cfg s.cardType sect) (selected s) } := by
  have hx : c.extra = [] := answer_extra_nil hc
  refine reaches_step hp
    (t := { s with
      phase := .scSelect s.cfg.idxReadMulti (cardAddress s.cfg s.cardType sect) 0 :: .txWaitMulti .read cnt buf :: k })
    (by simp [seqAt, transferStart, transferIndex, h1, callSub, hp]) ?_
  refine reaches_trans (sendcmd_answered c rest _ _ _ _ _ rfl hr hc ht (Nat.zero_le _)) ?_
  refine reaches_trans (returned rfl rfl) ?_
  refine reaches_step (p := .txMulti .read cnt buf c.r1) rfl
    (by simp only [seqAt, hv, accepted, beq_self_eq_true, if_true, callSub, blockCall]; rfl) ?_
  simpa [hx, selected] using reaches_refl _

/-- Where the read goes on after a block stored: `rem` blocks were left before it, the next is stored at `next` (R241,
R246 e). -/
def afterBlock (c : Params) (rem : BitVec 32) (next : Nat) : List Pos :=
  if rem = 1 then [.rdStop 0] else [.rbLoad (.buffer next) c.sectorBytes, .txWaitBlock .read (rem - 1) next]

/-- One block of the loop arrives and is stored (R241, R271). -/
theorem block_received (b : Block) (rest : List Byte) (p : Nat) (rem : BitVec 32) (k : List Pos) (s : State)
    (hp : s.phase = .rbLoad (.buffer p) s.cfg.sectorBytes :: .txWaitBlock .read rem p :: k)
    (hr : s.rxq = b.bytes s.cfg ++ rest) (hb : b.fits s.cfg s.cfg.sectorBytes = true) (ht : boundsOk s.cfg = true) :
    Reaches s { s with
      mem := (storePayload (.buffer p) 0 b.payload s).mem
      phase := afterBlock s.cfg rem (bufAddr s (p + s.cfg.sectorBytes)) ++ k
      t1 := s.cfg.recvTokenTicks, rxq := rest, trace := exchanged s.cfg.fill (b.bytes s.cfg) s.trace } := by
  refine reaches_trans (recvblk_received b rest (.buffer p) _ _ s hp hr hb ht) ?_
  rw [storePayload_buffer_frame]
  refine reaches_trans (returned rfl rfl) ?_
  refine reaches_step (p := .txBlock .read rem p Config.ok) rfl ?_ (reaches_refl _)
  have hz : rem - 1 = 0 ↔ rem = 1 := sub_eq_zero
  simp only [seqAt, transferBlock, hz, afterBlock]
  rw [if_neg (by decide)]
  split <;> rfl

/-- The count of blocks left, taken down by one (R241). -/
theorem counted_block {n : Nat} {rem : BitVec 32} (hn : n + 1 = rem.toNat) :
    (rem = 1 ↔ n = 0) ∧ n = (rem - 1).toNat := by
  bv_omega

/-- The blocks of the loop arrive and are stored one after another, and the stop command is next (R241, R67). -/
theorem blocks_received (bs : List Block) (rest : List Byte) (p : Nat) (rem : BitVec 32) (k : List Pos) (s : State)
    (hp : s.phase = .rbLoad (.buffer p) s.cfg.sectorBytes :: .txWaitBlock .read rem p :: k)
    (hr : s.rxq = (bs.map (Block.bytes s.cfg)).flatten ++ rest) (hn : bs.length = rem.toNat) (h0 : bs ≠ [])
    (hb : ∀ b ∈ bs, b.fits s.cfg s.cfg.sectorBytes = true) (ht : boundsOk s.cfg = true) :
    Reaches s { s with
      mem := (storeBlocks p bs s).mem, phase := .rdStop 0 :: k, t1 := s.cfg.recvTokenTicks, rxq := rest
      trace := exchanged s.cfg.fill (bs.map (Block.bytes s.cfg)).flatten s.trace } := by
  induction bs generalizing p rem s with
  | nil => exact absurd rfl h0
  | cons b bs ih =>
    simp only [List.map_cons, List.flatten_cons, List.append_assoc] at hr
    refine reaches_trans (block_received b _ p rem k s hp hr (hb b List.mem_cons_self) ht) ?_
    obtain ⟨hlast, hn'⟩ := counted_block hn
    obtain rfl | hne := eq_or_ne bs []
    · simpa [afterBlock, hlast.2 rfl, storeBlocks] using reaches_refl _
    · have h1 : rem ≠ 1 := fun h => hne (List.length_eq_zero_iff.1 (hlast.1 h))
      rw [afterBlock, if_neg h1]
      have h := ih (bufAddr s (p + s.cfg.sectorBytes)) (rem - 1) { s with
          mem := (storePayload (.buffer p) 0 b.payload s).mem
          phase := .rbLoad (.buffer (bufAddr s (p + s.cfg.sectorBytes))) s.cfg.sectorBytes ::
            .txWaitBlock .read (rem - 1) (bufAddr s (p + s.cfg.sectorBytes)) :: k
          t1 := s.cfg.recvTokenTicks, rxq := (bs.map (Block.bytes s.cfg)).flatten ++ rest
          trace := exchanged s.cfg.fill (b.bytes s.cfg) s.trace }
        rfl rfl hn' hne (fun x hx => hb x (List.mem_cons_of_mem b hx)) ht
      rw [storeBlocks_update_mem _ _ { s with mem := (storePayload (.buffer p) 0 b.payload s).mem }] at h
      rw [storeBlocks, storePayload_buffer_frame]
      simpa [exchanged] using h

/-- The stop command whatever its response, the readiness polls, CS(release), and the return (R241, R243, R244). -/
theorem read_closed (e : Answer) (bb rest : List Byte) (d : Byte) (k : List Pos) (s : State)
    (hp : s.phase = .rdStop 0 :: k) (hr : s.rxq = e.bytes ++ (bb ++ 0xFF#8 :: d :: rest)) (hs : s.sel = true)
    (he : e.fits s.cfg 0 = true) (hb : ∀ x ∈ bb, x ≠ 0xFF#8) (ht : boundsOk s.cfg = true) :
    Reaches s { s with
      phase := .ret .rdsect Config.ok :: k, sel := false, t2 := s.cfg.waitReadyTicks, rxq := rest
      trace := .exchange s.cfg.fill d :: .csOff :: exchanged s.cfg.fill (bb ++ [0xFF#8])
        (e.trace s.cfg s.cfg.idxStopTransmission 0 s.trace) } := by
  have hx : e.extra = [] := answer_extra_nil he
  refine reaches_step hp
    (t := { s with phase := .scSelect s.cfg.idxStopTransmission 0 0 :: .rdWaitStop 0 :: k })
    (by simp only [seqAt, callSub, hp, List.tail_cons]) ?_
  refine reaches_trans (sendcmd_answered e _ _ _ _ _ _ rfl hr he ht (Nat.zero_le _)) ?_
  refine reaches_trans (returned rfl rfl) ?_
  refine reaches_step (p := .rdStopped 0) rfl rfl ?_
  refine reaches_trans (waitrdy_ready bb (d :: rest) _ _ rfl rfl hb ht) ?_
  refine reaches_trans (returned rfl rfl) ?_
  refine reaches_step (p := .txRdy .read 0 Config.ok) rfl rfl ?_
  refine reaches_trans (released rfl rfl rfl) ?_
  simpa [hx, hs, selected, dirProc, resultOf] using reaches_refl _

/-- Settles O39: accepted, RDSECT sends its command, receives its blocks, and ends at the stop command's wait. -/
theorem readSectorsRun : Obligations.ReadSectorsRun := by
  intro sect cnt buf c e bs bb d rest s hbusy h1 hrf ht hc hv hn hb he hbb hr
  have h0 : cnt ≠ 0 := by
    rintro rfl
    simp [refusedBy] at hrf
  have hne : bs ≠ [] := by
    rintro rfl
    exact h0 (BitVec.eq_of_toNat_eq hn.symm)
  refine ⟨_, accept_idle hbusy (by rwa [sectorRefused_eq]), ?_⟩
  refine reaches_trans (read_opened c _ (bufAddr s buf) [] _ rfl hr h1 hc hv ht) ?_
  refine reaches_trans (blocks_received bs _ (bufAddr s buf) cnt [] _ rfl rfl hn hne hb ht) ?_
  refine reaches_trans (read_closed e bb rest d [] _ rfl rfl rfl he hbb ht) ?_
  refine reaches_trans (completed rfl) ?_
  have hph : s.phase = [] := by simpa [busy] using hbusy
  rw [storeBlocks_buffer_frame _ _ s, hph]
  simp only [storeBlocks_update_mem]
  exact reaches_refl _

end Sys2Proof.Proofs
end

section
/-! Every encoding decoded again, with its operands, whatever follows it (R91, R97, R100, R102, R110 to R115, R120, R121,
R124), and words written out from the tables. -/

namespace Sys2Proof.Proofs

open Sys2Proof.Machine Sys2Proof.Safety Sys2Proof.Laws

variable (p : Params) (rest : List Byte)

/-! ### Operations -/

theorem decode_command_sendcmd (idx : BitVec 6) (arg : BitVec 32) (rlen : Byte) :
    decode p .host (Encode.command 0x4#4 idx arg rlen ++ rest) = .ok (.sendcmd idx arg rlen) :=
  (decode_operation p _ _).trans (command_operands .sendcmd idx arg rlen rest)

theorem decode_command_sendacmd (idx : BitVec 6) (arg : BitVec 32) (rlen : Byte) :
    decode p .host (Encode.command 0x5#4 idx arg rlen ++ rest) = .ok (.sendacmd idx arg rlen) :=
  (decode_operation p _ _).trans (command_operands .sendacmd idx arg rlen rest)

theorem recv_operands (buf : Nat) (len : BitVec 16) :
    Decode.recvOperands (Decode.numberBytes buf ++ Decode.bytes16 len ++ rest) = .ok (.recvblk buf len) := by
  rw [List.append_assoc, Decode.recvOperands, takeNumber_bytes]
  simp only [Decode.bytes16, List.cons_append, word16_bytes]

theorem send_operands (buf : Nat) (len : BitVec 16) (tok : Byte) :
    Decode.sendOperands (Decode.numberBytes buf ++ Decode.bytes16 len ++ [tok] ++ rest) =
      .ok (.sendblk buf len tok) := by
  rw [List.append_assoc, List.append_assoc, Decode.sendOperands, takeNumber_bytes]
  simp only [Decode.bytes16, List.cons_append, List.nil_append, word16_bytes]

theorem settype_operands (ty : BitVec 3) :
    Decode.settypeOperands ((0#5 ++ ty : BitVec 8) :: rest) = .ok (.settype ty) := by
  have hspare : (0#5 ++ ty : BitVec 8).extractLsb' 3 5 = 0#5 := by revert ty; decide
  have hty : (0#5 ++ ty : BitVec 8).extractLsb' 0 3 = ty := by revert ty; decide
  rw [Decode.settypeOperands, if_pos hspare, hty]

theorem ldt1_operands (tval : Nat) : Decode.ldt1Operands (Decode.numberBytes tval ++ rest) = .ok (.ldt1 tval) := by
  rw [Decode.ldt1Operands, takeNumber_bytes]

/-! ### Frames -/

/-- An index with no row of its own, its trailer the filler, is read as the general frame (R97). -/
theorem frameOf_untabled {idx : BitVec 6} (arg : BitVec 32) (h : idx ∉ tabledIndices) :
    Decode.frameOf idx arg 0#7 = .frameAny idx arg 0#7 := by
  have hne : ∀ t ∈ tabledIndices, idx ≠ t := fun t ht => (ne_of_mem_of_not_mem ht h).symm
  rw [Decode.frameOf, if_neg (hne 0#6 (by decide)), if_neg (hne 8#6 (by decide)), if_pos rfl, Decode.dummyFrame]
  simp only [tabledIndices, List.mem_cons, List.not_mem_nil, or_false, not_or] at h
  split
  case h_14 => rfl
  all_goals
    exfalso
    bv_omega

/-! ### One-byte elements -/

/-- Away from the host port what follows the first byte is not read. -/
theorem decode_wire_cons {pl : Place} (hpl : pl ≠ .host) (b : Byte) : decode p pl (b :: rest) = decode p pl [b] := by
  cases pl
  case host => exact absurd rfl hpl
  all_goals rfl

theorem distinctBytes_iff : distinctBytes p = true ↔ p.tokenStartSingle ≠ p.tokenStartMulti ∧
    p.codeNotReady ≠ p.codeRespTimeout ∧ p.codeNotReady ≠ Config.codeRefused ∧
    p.codeRespTimeout ≠ Config.codeRefused := by
  simp [distinctBytes, and_assoc]

theorem dataResponse_nibbles (high low : BitVec 4) :
    (high ++ low : BitVec 8).extractLsb' 0 4 = low ∧ (high ++ low : BitVec 8).extractLsb' 4 4 = high := by
  revert high low
  decide

theorem decode_encode_wire {p : Params} {i : Instr} (hd : distinctBytes p = true) (hi : place i ≠ .host) :
    decode p (place i) (encode p i ++ rest) = .ok i := by
  obtain ⟨hmulti, htimeout, hrefused, hrefused'⟩ := (distinctBytes_iff p).1 hd
  have read {pl : Place} {b : Byte} (hpl : pl ≠ .host) (h : Decode.atWire p pl b = .ok i) :
      decode p pl (b :: rest) = .ok i := by
    rw [decode_wire_cons p rest hpl, decode_wireByte hpl, h]
  cases i
  case tokenStartSingle | tokenStopTran | codeNotReady => exact read nofun (if_pos rfl)
  case ready => exact read (pl := .busy) (b := Config.readyByte) nofun rfl
  case tokenStartMulti => exact read nofun ((if_neg hmulti.symm).trans (if_pos rfl))
  case codeRespTimeout => exact read nofun ((if_neg htimeout.symm).trans (if_pos rfl))
  case codeRefused => exact read nofun ((if_neg hrefused.symm).trans ((if_neg hrefused'.symm).trans (if_pos rfl)))
  case r1Valid flags =>
    obtain ⟨hclear, hflags⟩ := last_group flags
    refine read (pl := .response) nofun ?_
    rw [Decode.atWire, hclear, hflags]
    rfl
  case dataResponseAccepted high =>
    obtain ⟨hlow, hhigh⟩ := dataResponse_nibbles high p.dataRespAccepted
    refine read (pl := .dataResponse) nofun ?_
    rw [Decode.atWire, if_pos hlow, hhigh]
  all_goals exact absurd rfl hi

/-! ### The round trip -/

theorem decode_encode_host {i : Instr} (hi : place i = .host) (hw : i.wellFormed = true) (hp : i.pseudo = false) :
    decode p .host (encode p i ++ rest) = .ok i := by
  cases i
  case select | deselect | waitrdy | rdconfig | sync | reservedE | reservedF | xchg => exact decode_operation p _ _
  case sendcmd idx arg rlen => exact decode_command_sendcmd p rest idx arg rlen
  case sendacmd idx arg rlen => exact decode_command_sendacmd p rest idx arg rlen
  case recvblk buf len => exact (decode_operation p _ _).trans (recv_operands rest buf len)
  case sendblk buf len tok => exact (decode_operation p _ _).trans (send_operands rest buf len tok)
  case rdsect sect cnt buf => exact (decode_operation p _ _).trans (sector_operands .rdsect sect cnt buf rest)
  case wrsect sect cnt buf => exact (decode_operation p _ _).trans (sector_operands .wrsect sect cnt buf rest)
  case settype ty => exact (decode_operation p _ _).trans (settype_operands rest ty)
  case ldt1 tval => exact (decode_operation p _ _).trans (ldt1_operands rest tval)
  case cmdN | acmdN | idleclk => cases hp
  case frameAny idx arg trailer =>
    obtain ⟨rfl, hidx⟩ : trailer = 0#7 ∧ idx ∉ tabledIndices := by simpa [Instr.wellFormed] using hw
    exact (decode_frame p idx arg 0#7 rest).trans (congrArg _ (frameOf_untabled arg hidx))
  case tokenStartSingle | tokenStartMulti | tokenStopTran | dataResponseAccepted | r1Valid | codeNotReady
    | codeRespTimeout | codeRefused | ready => cases hi
  all_goals exact decode_frame p _ _ _ rest

/-- Settles O1: an instruction of the host port is an operation or a frame; every other is one byte at its place. -/
theorem decodeEncodeRoundTrip : Obligations.DecodeEncodeRoundTrip := by
  intro p i rest hd hw hp
  by_cases hi : place i = .host
  · rw [hi]
    exact decode_encode_host p rest hi hw hp
  · exact decode_encode_wire rest hd hi

/-- Settles O2, by decoding each of the written-out words. -/
theorem sampleWordsDecode : Obligations.SampleWordsDecode := by
  unfold Obligations.SampleWordsDecode
  decide

end Sys2Proof.Proofs
end

section
/-! The CRC-7 (R93): the register of the bit-serial update as a polynomial over GF(2), and each step of it as a
multiplication by x modulo the generator. -/

namespace Sys2Proof.Proofs

open Sys2Proof.Machine Sys2Proof.Safety
open scoped Polynomial
open Polynomial (X C)

/-- The generator x^7 + x^3 + 1 (R93). -/
noncomputable def crcGenerator : (ZMod 2)[X] := X ^ 7 + X ^ 3 + 1

/-- The polynomial over GF(2) whose coefficients are the bits of `c`, bit `k` that of x^k. -/
noncomputable def bitsPoly (c : BitVec 7) : (ZMod 2)[X] :=
  ∑ k ∈ Finset.range 7, if c.getLsbD k then X ^ k else 0

/-- A message polynomial with one more bit behind it. -/
noncomputable def appendBit (q : (ZMod 2)[X]) (b : Bool) : (ZMod 2)[X] := q * X + C (if b then 1 else 0)

theorem crcGenerator_degree : crcGenerator.degree = 7 := by
  unfold crcGenerator
  compute_degree!

theorem crcGenerator_monic : crcGenerator.Monic := by
  unfold crcGenerator
  monicity!

theorem bitsPoly_zero : bitsPoly 0#7 = 0 := by
  simp [bitsPoly]

theorem bitsPoly_degree_lt (c : BitVec 7) : (bitsPoly c).degree < 7 := by
  refine (Polynomial.degree_sum_le _ _).trans_lt ((Finset.sup_lt_iff (by decide)).2 fun k hk => ?_)
  split
  · rw [Polynomial.degree_X_pow]
    exact_mod_cast Finset.mem_range.1 hk
  · rw [Polynomial.degree_zero]
    decide

theorem bitsPoly_xor (c d : BitVec 7) : bitsPoly (c ^^^ d) = bitsPoly c + bitsPoly d := by
  rw [bitsPoly, bitsPoly, bitsPoly, ← Finset.sum_add_distrib]
  refine Finset.sum_congr rfl fun k _ => ?_
  rw [BitVec.getLsbD_xor]
  cases c.getLsbD k <;> cases d.getLsbD k <;> simp [CharTwo.add_self_eq_zero]

/-- A shift is a multiplication by x, the bit shifted out apart. -/
theorem bitsPoly_shiftLeft (c : BitVec 7) :
    X * bitsPoly c = bitsPoly (c <<< 1) + if c.getLsbD 6 then X ^ 7 else 0 := by
  have hshift : ∀ k ∈ Finset.range 6, (if (c <<< 1).getLsbD (k + 1) then (X : (ZMod 2)[X]) ^ (k + 1) else 0) =
      X * if c.getLsbD k then X ^ k else 0 := by
    intro k hk
    have hk : k + 1 < 7 := Nat.succ_lt_succ (Finset.mem_range.1 hk)
    have hbit : (c <<< 1).getLsbD (k + 1) = c.getLsbD k := by
      simp [hk, Nat.lt_of_succ_lt hk]
    rw [hbit, pow_succ', mul_ite, mul_zero]
  rw [bitsPoly, bitsPoly, Finset.sum_range_succ, Finset.sum_range_succ' _ 6, Finset.sum_congr rfl hshift, mul_add,
    Finset.mul_sum]
  simp [pow_succ']

theorem bitsPoly_feedback : bitsPoly 0b0001001#7 = X ^ 3 + 1 := by
  simp [bitsPoly, Finset.sum_range_succ, add_comm]

/-- One step of the register: it is multiplied by x, the bit enters at x^7, and the generator is taken off where the bit
that leaves is set. -/
theorem bitsPoly_crc7Bit (c : BitVec 7) (b : Bool) :
    bitsPoly (crc7Bit c b) + (if (c.getLsbD 6).xor b then crcGenerator else 0) =
      X * bitsPoly c + C (if b then 1 else 0) * X ^ 7 := by
  have hout : (if c.getLsbD 6 then (X : (ZMod 2)[X]) ^ 7 else 0) + C (if b then 1 else 0) * X ^ 7 =
      if (c.getLsbD 6).xor b then X ^ 7 else 0 := by
    cases c.getLsbD 6 <;> cases b <;> simp [CharTwo.add_self_eq_zero]
  rw [bitsPoly_shiftLeft, add_assoc, hout, crc7Bit]
  split
  · rw [bitsPoly_xor, bitsPoly_feedback, crcGenerator]
    linear_combination CharTwo.add_self_eq_zero (X ^ 3 + 1 : (ZMod 2)[X])
  · rfl

/-- Every step keeps the register congruent to the message so far times x^7. -/
theorem crc_congruent (bits : List Bool) (c : BitVec 7) (q : (ZMod 2)[X]) (h : crcGenerator ∣ q * X ^ 7 - bitsPoly c) :
    crcGenerator ∣ bits.foldl appendBit q * X ^ 7 - bitsPoly (bits.foldl crc7Bit c) := by
  induction bits generalizing c q with
  | nil => exact h
  | cons b bits ih =>
    refine ih _ _ ?_
    have step : appendBit q b * X ^ 7 - bitsPoly (crc7Bit c b) = X * (q * X ^ 7 - bitsPoly c) +
        if (c.getLsbD 6).xor b then crcGenerator else 0 := by
      rw [appendBit]
      linear_combination -(bitsPoly_crc7Bit c b)
    rw [step]
    refine dvd_add (h.mul_left X) ?_
    split
    · exact dvd_rfl
    · exact dvd_zero _

/-- The bits of a byte sequence go through the register one by one (R93). -/
theorem crc7_eq_foldl_bits (bs : List Byte) : crc7 bs = (bitsOf bs).foldl crc7Bit 0#7 := by
  rw [bitsOf, List.foldl_flatMap]
  rfl

theorem bitsPoly_crc7 (bs : List Byte) :
    bitsPoly (crc7 bs) = ((bitsOf bs).foldl appendBit 0 * X ^ 7) %ₘ crcGenerator := by
  have hdvd : crcGenerator ∣ (bitsOf bs).foldl appendBit 0 * X ^ 7 - bitsPoly (crc7 bs) := by
    rw [crc7_eq_foldl_bits]
    exact crc_congruent _ _ _ (by simp [bitsPoly_zero])
  obtain ⟨q, hq⟩ := hdvd
  have hdeg : (bitsPoly (crc7 bs)).degree < crcGenerator.degree :=
    crcGenerator_degree ▸ bitsPoly_degree_lt _
  exact (Polynomial.div_modByMonic_unique q _ crcGenerator_monic ⟨by rw [← hq, add_sub_cancel], hdeg⟩).2.symm

/-- Settles O4: the register is congruent to the message times x^7 and of degree below 7, so it is the remainder; the two
worked values are computed. -/
theorem crcIsPolynomialRemainder : Obligations.CrcIsPolynomialRemainder :=
  ⟨bitsPoly_crc7, by decide +kernel, by decide +kernel⟩

end Sys2Proof.Proofs
end

section
/-! What is presented to the block: a command, whatever its row, to the idle block, anything to the busy one, and the
pseudo-operations (R96, R97, R120, R122, R123). -/

namespace Sys2Proof.Proofs

open Sys2Proof.Machine Sys2Proof.Safety Sys2Proof.Laws

variable {s : State}

/-! ### Commands -/

/-- An instruction that stands for a SENDCMD presents it, refused for its RLEN alone (R124 c). -/
theorem exec_command {i : Instr} {c : BitVec 6 × BitVec 32 × Byte} (h : commandOf i = some c) (s : State) :
    exec i s = .next (presentCommand c.1 c.2.1 c.2.2 s) ∧ refusedBy s i = rlenTooLong s c.2.2 := by
  cases i <;> cases h <;> exact ⟨rfl, rfl⟩

/-- An instruction that stands for a SENDACMD presents it, refused for its RLEN alone (R124 c). -/
theorem exec_appCommand {i : Instr} {c : BitVec 6 × BitVec 32 × Byte} (h : appCommandOf i = some c) (s : State) :
    exec i s = .next (presentAppCommand c.1 c.2.1 c.2.2 s) ∧ refusedBy s i = rlenTooLong s c.2.2 := by
  cases i <;> cases h <;> exact ⟨rfl, rfl⟩

/-- Settles O7: the idle block accepts the command the instruction presents. -/
theorem commandsAccepted : Obligations.CommandsAccepted := by
  intro i s c hb hr
  refine ⟨fun hc => ?_, fun hc => ?_⟩
  · obtain ⟨hexec, href⟩ := exec_command hc s
    exact hexec.trans (accept_idle hb (href.symm.trans hr))
  · obtain ⟨hexec, href⟩ := exec_appCommand hc s
    exact hexec.trans (accept_idle hb (href.symm.trans hr))

/-! ### The busy block -/

theorem accept_busy {op : BitVec 4} {l : Operands → Operands} {r : Bool} {p : Pos} (hb : busy s = true) :
    accept op l r p s = s :=
  if_pos hb

theorem exec_idleclk_busy (k : Nat) (hb : busy s = true) : exec (.idleclk k) s = .next s := by
  cases k with
  | zero => rfl
  | succ k => exact if_pos hb

/-- Settles O9: what is presented is one `accept`, which a busy block ignores, or IDLECLK. -/
theorem busyIgnoresOperations : Obligations.BusyIgnoresOperations := by
  intro i s hi hb
  by_cases hk : ∃ k, i = .idleclk k
  · obtain ⟨k, rfl⟩ := hk
    exact exec_idleclk_busy k hb
  · obtain ⟨op, l, p, ha⟩ := exec_eq_accept hi (fun k hik => hk ⟨k, hik⟩) s
    rw [ha, accept_busy hb]

/-! ### The elements met on the wire -/

/-- Settles O10: at the position that meets it an element's meaning is one branch of its definition. -/
theorem wireElementsAct : Obligations.WireElementsAct := by
  intro s k
  refine ⟨fun d len rx hp => ?_, fun buf len tok hp => ⟨?_, ?_⟩, fun rem hp => ?_, fun rx high hp => ?_,
    fun rlen i r flags hp => ⟨?_, ?_⟩, fun idx arg rlen rdy hp => ?_, fun hp => ?_, fun rx hp => ?_, fun rx hp => ?_⟩
  · simp only [exec, execTokenStartSingle, hp]
  · simp only [exec, execTokenStartSingle, hp, sendToken]
  · simp only [exec, execTokenStartMulti, hp, sendToken]
  · simp only [exec, execTokenStopTran, hp]
  · simp only [exec, execDataResponseAccepted, hp]
  · simp only [exec, execR1Valid, hp]
  · simp only [exec, execCodeRespTimeout, hp]
  · simp only [exec, execCodeNotReady, hp]
  · exact if_neg (by simp [busy, hp])
  · simp only [exec, execReady, hp, Config.ok]
  · simp only [exec, execReady, hp, Config.ok]

/-! ### The pseudo-operations -/

/-- The host going on with the idle block, then a run. -/
theorem reaches_host {t u : State} (hb : busy s = false) (h : hostStep s = .next t) (g : Reaches t u) :
    Reaches s u :=
  reaches_trans ⟨1, by simp [runEvents, stepOn_eq, runEvent_go_idle hb, h]⟩ g

/-- XCHG from its first position to its completion (R150). -/
theorem exchange_completed {tx rx : Byte} {rest : List Byte} (hp : s.phase = [.xcXchg tx]) (hr : s.rxq = rx :: rest) :
    Reaches s { s with phase := [], res := rx, rxq := rest, trace := .exchange tx rx :: s.trace } := by
  refine reaches_step hp
    (t := { s with phase := [.ret .xchg rx], rxq := rest, trace := .exchange tx rx :: s.trace }) ?_ (completed rfl)
  simp only [seqAt, xchg_cons tx hr, goTo, hp, List.tail_cons]

/-- The bytes the host holds for a further exchange of IDLECLK. -/
theorem decode_exchange (p : Params) : decode p .host [0x02#8, 0xFF#8] = .ok (.xchg 0xFF#8) :=
  decode_encode_host p [] (i := .xchg 0xFF#8) rfl rfl rfl

/-- XCHG 0xFF accepted, with the operations `ps` still to be issued by the host. -/
def idleClocking (ps : List (List Byte)) (s : State) : State :=
  { s with
    ops := { s.ops with op := 0x2, txb := 0xFF#8 }, phase := [.xcXchg 0xFF#8], host := { s.host with prog := ps } }

/-- The exchanges that received `rxs` completed, with the operations `ps` still to be issued by the host. -/
def idleClocked (ps : List (List Byte)) (rxs rest : List Byte) (s : State) : State :=
  { s with
    ops := { s.ops with op := 0x2, txb := 0xFF#8 }, phase := [], res := rxs.getLastD s.res, rxq := rest
    trace := exchanged 0xFF#8 rxs s.trace, host := { s.host with prog := ps } }

/-- The first exchange is accepted and the host holds the others (log entry 17). -/
theorem exec_idleclk_succ (k : Nat) (hb : busy s = false) (hq : s.host.prog = []) :
    exec (.idleclk (k + 1)) s = .next (idleClocking (List.replicate k [0x02#8, 0xFF#8]) s) := by
  simp only [exec, execIdleclk, hb, hq, List.append_nil, Bool.false_eq_true, if_false]
  exact accept_idle hb rfl

/-- The idle host issues the next of the exchanges it holds. -/
theorem hostStep_exchange {ps : List (List Byte)} (hb : busy s = false) (hf : s.host.pos = .free)
    (hc : s.host.calls = []) (hq : s.host.prog = [0x02#8, 0xFF#8] :: ps) :
    hostStep s = .next (idleClocking ps s) := by
  rw [hostStep_prog hf hc hq, presentBytes_of_decode (decode_exchange _)]
  exact accept_idle hb rfl

theorem idleClocked_cons (ps qs : List (List Byte)) (rx rx' : Byte) (rxs rest q : List Byte) (s : State) :
    idleClocked qs (rx' :: rxs) rest (idleClocked ps [rx] q s) = idleClocked qs (rx :: rx' :: rxs) rest s := by
  simp [idleClocked, exchanged, List.getLast?_cons]

/-- The exchange accepted and those the host holds are completed one after another (log entry 17). -/
theorem idle_exchanges (rx : Byte) (rxs rest : List Byte) (s : State) (hf : s.host.pos = .free)
    (hc : s.host.calls = []) (hr : s.rxq = rx :: (rxs ++ rest)) :
    Reaches (idleClocking (List.replicate rxs.length [0x02#8, 0xFF#8]) s) (idleClocked [] (rx :: rxs) rest s) := by
  induction rxs generalizing rx s with
  | nil => exact exchange_completed rfl hr
  | cons rx' rxs ih =>
    have hfirst := exchange_completed (s := idleClocking (List.replicate (rxs.length + 1) [0x02#8, 0xFF#8]) s) rfl hr
    refine reaches_trans hfirst (reaches_host rfl (hostStep_exchange rfl hf hc rfl) ?_)
    rw [← idleClocked_cons (List.replicate (rxs.length + 1) [0x02#8, 0xFF#8]) [] rx rx' rxs rest (rx' :: (rxs ++ rest))]
    exact ih rx' _ hf hc rfl

/-- Settles O21: CMDn and ACMDn present what they stand for, in the same bytes; and IDLECLK's exchanges, if any, are
completed one by one. -/
theorem pseudoOperations : Obligations.PseudoOperations := by
  refine ⟨fun n a l s => ⟨rfl, rfl, ?_, ?_⟩, fun k rxs rest s hb hf hc hq hr hk => ?_⟩
  · rw [← List.append_nil (encode _ _)]
    exact decode_command_sendcmd s.cfg [] n a l
  · rw [← List.append_nil (encode _ _)]
    exact decode_command_sendacmd s.cfg [] n a l
  subst hk
  cases rxs with
  | nil =>
    obtain rfl : s.rxq = rest := hr
    exact ⟨s, rfl, reaches_refl s⟩
  | cons rx rxs =>
    refine ⟨_, exec_idleclk_succ rxs.length hb hq, ?_⟩
    have hp : s.phase = [] := by simpa [busy] using hb
    have hrun := idle_exchanges rx rxs rest s hf hc hr
    rw [idleClocked, ← hq, ← hp] at hrun
    exact hrun

end Sys2Proof.Proofs
end

section
/-! The timed polls (R152, R272, R386, R433): what each does with the byte it has received, and a readiness wait that its
timer ends (R146, R151), step by step. -/

namespace Sys2Proof.Proofs

open Sys2Proof.Machine Sys2Proof.Safety Sys2Proof.Laws

variable {s : State} {k : List Pos}

/-! ### The byte before the timer -/

theorem decode_busy (p : Params) (b : Byte) :
    decode p .busy [b] = if b = 0xFF#8 then .ok .ready else .error .noMatch :=
  decode_wireByte (pl := .busy) nofun p b

/-- Where a place's decoder is one test of the byte, so is the search for its element. -/
theorem lookFor_of_test {pl : Place} {b : Byte} {i : Instr} {c : Prop} [Decidable c] (otherwise : Result)
    (h : decode s.cfg pl [b] = if c then .ok i else .error .noMatch) :
    lookFor pl b otherwise s = if c then exec i s else otherwise := by
  by_cases hc : c <;> simp [lookFor, h, hc]

theorem pollAgain_eq {q : Pos} (hp : s.phase = q :: k) (t : Nat) (again : Pos) (p : Proc) :
    pollAgain t again p s = .next { s with phase := (if t = 0 then .ret p 0#8 else again) :: k } := by
  simp [pollAgain, goTo, hp, expired, Config.fail]

/-- A poll that looks for 0xFF, `again` being its next exchange: the byte is tested first, and the timer `t` after it. -/
theorem lookFor_busy_eq {q again : Pos} {p : Proc} {rx : Byte} (t : Nat) (hp : s.phase = q :: k)
    (hready : exec .ready s = .next { s with phase := .ret p 1#8 :: k }) :
    lookFor .busy rx (pollAgain t again p s) s = .next { s with
      phase := (if rx = 0xFF#8 then .ret p 1#8 else if t = 0 then .ret p 0#8 else again) :: k } := by
  rw [lookFor_of_test _ (decode_busy _ _), hready, pollAgain_eq hp]
  split <;> rfl

theorem seqStep_running {p : Pos} (hp : s.phase = p :: k) : seqStep s = seqAt p s := by
  simp only [seqStep, hp]

theorem seqAt_wrTest {rx : Byte} (hp : s.phase = .wrTest rx :: k) : seqAt (.wrTest rx) s = .next { s with
    phase := (if rx = 0xFF#8 then .ret .waitrdy 1#8 else if s.t2 = 0 then .ret .waitrdy 0#8 else .wrXchg) :: k } := by
  obtain ⟨-, -, -, -, -, -, -, hready, -⟩ := wireElementsAct s k
  exact lookFor_busy_eq s.t2 hp (hready rx hp)

theorem seqAt_sbTest {rx : Byte} (hp : s.phase = .sbTest rx :: k) : seqAt (.sbTest rx) s = .next { s with
    phase := (if rx = 0xFF#8 then .ret .sendblk 1#8 else if s.t1 = 0 then .ret .sendblk 0#8 else .sbXchg) :: k } := by
  obtain ⟨-, -, -, -, -, -, -, -, hready⟩ := wireElementsAct s k
  exact lookFor_busy_eq s.t1 hp (hready rx hp)

theorem strictStop_iff (s : State) (rx : Byte) : strictStop s rx = true ↔
    s.cfg.startTokenStrict = true ∧ rx ≠ 0xFF#8 ∧ rx ≠ s.cfg.tokenStartSingle := by
  simp [strictStop, and_assoc]

/-- The strict test comes first in the model, and passes over the start token. -/
theorem seqAt_rbTest {d : Dest} {len : Nat} {rx : Byte} (hp : s.phase = .rbTest d len rx :: k) :
    seqAt (.rbTest d len rx) s = .next { s with
      phase := (if rx = s.cfg.tokenStartSingle then .rbData d len 0
        else if s.cfg.startTokenStrict ∧ rx ≠ 0xFF#8 then .ret .recvblk 0#8
        else if s.t1 = 0 then .ret .recvblk 0#8 else .rbXchg d len) :: k } := by
  obtain ⟨htoken, -⟩ := wireElementsAct s k
  rw [seqAt, lookFor_of_test _ (decode_tokenWait _ _), htoken d len rx hp, pollAgain_eq hp]
  simp only [strictStop_iff]
  by_cases htok : rx = s.cfg.tokenStartSingle
  · rw [if_neg fun h => h.2.2 htok, if_pos htok, if_pos htok]
  · rw [if_neg htok, if_neg htok]
    by_cases hstrict : s.cfg.startTokenStrict = true ∧ rx ≠ 0xFF#8
    · rw [if_pos ⟨hstrict.1, hstrict.2, htok⟩, if_pos hstrict, goTo, hp]
      rfl
    · rw [if_neg fun h => hstrict ⟨h.1, h.2.1⟩, if_neg hstrict]

/-- Settles O25: at each of the three tests the step is one chain, the byte before the timer. -/
theorem polledByteBeforeTimer : Obligations.PolledByteBeforeTimer := by
  intro s k rx
  refine ⟨fun hp => ?_, fun hp => ?_, fun d len hp => ?_⟩ <;> rw [seqStep_running hp]
  · exact seqAt_wrTest hp
  · exact seqAt_sbTest hp
  · exact seqAt_rbTest hp

/-! ### Runs that take ticks -/

theorem runEvents_tick (es : List Event) (s : State) : runEvents (.tick :: es) s = runEvents es (tick s) := rfl

theorem countDown_eq (t : Nat) : countDown t = t - 1 := by
  unfold countDown
  split <;> omega

/-- A run that begins with ticks. -/
theorem runEvents_ticks (n : Nat) (es : List Event) (s : State) :
    runEvents (List.replicate n .tick ++ es) s = runEvents es { s with t1 := s.t1 - n, t2 := s.t2 - n } := by
  induction n generalizing s with
  | zero => rfl
  | succ n ih =>
    rw [List.replicate_succ, List.cons_append, runEvents_tick, ih]
    simp only [tick, countDown_eq, Nat.sub_sub, Nat.add_comm 1 n]

/-- Settles O12: the ticks one by one, and nothing after them. -/
theorem ticksCountDown : Obligations.TicksCountDown := by
  intro n s
  rw [← List.append_nil (List.replicate n _), runEvents_ticks]
  rfl

/-- A run that begins with a step of the running block. -/
theorem runEvents_go {p : Pos} {t : State} (es : List Event) (hp : s.phase = p :: k) (h : seqAt p s = .next t) :
    runEvents (.go :: es) s = runEvents es t :=
  runEvents_append [.go] es s t (runs_go hp h)

/-! ### A readiness wait that its timer ends -/

theorem seqAt_wrXchg {rx : Byte} {rest : List Byte} (hp : s.phase = .wrXchg :: k) (hr : s.rxq = rx :: rest) :
    seqAt .wrXchg s = .next { s with
      phase := .wrTest rx :: k, rxq := rest, trace := .exchange s.cfg.fill rx :: s.trace } := by
  simp only [seqAt, xchgKeep, xchgFill_cons hr, goTo, hp, List.tail_cons]

/-- Each byte that is not 0xFF takes an exchange and a test, and the wait goes on while T2 is not zero (R152). -/
theorem waitrdy_goes_on (bb rest : List Byte) (es : List Event) (s : State) (hp : s.phase = .wrXchg :: k)
    (hr : s.rxq = bb ++ rest) (hb : ∀ b ∈ bb, b ≠ 0xFF#8) (ht : s.t2 ≠ 0) :
    runEvents (List.replicate (2 * bb.length) .go ++ es) s =
      runEvents es { s with rxq := rest, trace := exchanged s.cfg.fill bb s.trace } := by
  induction bb generalizing s with
  | nil =>
    obtain rfl : s.rxq = rest := hr
    rfl
  | cons b bb ih =>
    have htest := seqAt_wrTest (rx := b) (k := k) (s := { s with
      phase := .wrTest b :: k, rxq := bb ++ rest, trace := .exchange s.cfg.fill b :: s.trace }) rfl
    simp only [hb b List.mem_cons_self, ht, if_false] at htest
    refine (runEvents_go _ hp (seqAt_wrXchg hp hr)).trans (Eq.trans (runEvents_go _ rfl htest) ?_)
    refine Eq.trans (ih _ rfl rfl (fun x hx => hb x (List.mem_cons_of_mem b hx)) ht) ?_
    simp [exchanged, hp]

/-- WAITRDY, the ticks after the last of the bytes bringing T2 to zero before its test (R151, R152). -/
theorem waitrdy_expired (bb rest : List Byte) (b : Byte) {m : Nat} (es : List Event) (hp : s.phase = .wrLoad :: k)
    (ht : boundsOk s.cfg = true) (hb : ∀ x ∈ bb, x ≠ 0xFF#8) (hlast : b ≠ 0xFF#8) (hr : s.rxq = bb ++ b :: rest)
    (hm : s.cfg.waitReadyTicks ≤ m) :
    runEvents (List.replicate (2 + 2 * bb.length) .go ++ (List.replicate m .tick ++ .go :: es)) s =
      runEvents es { s with
        phase := .ret .waitrdy 0#8 :: k, t1 := s.t1 - m, t2 := 0, rxq := rest
        trace := exchanged s.cfg.fill (bb ++ [b]) s.trace } := by
  obtain ⟨⟨hload, hne⟩, -⟩ := bounds_loaded ht
  have hcount : List.replicate (2 + 2 * bb.length) Event.go =
      .go :: (List.replicate (2 * bb.length) .go ++ [.go]) := by
    rw [← List.replicate_succ', ← List.replicate_succ, Nat.add_comm]
  have hstart : seqAt .wrLoad s = .next { s with phase := .wrXchg :: k, t2 := s.cfg.waitReadyTicks } := by
    simp only [seqAt, hload, goTo, hp, List.tail_cons]
  rw [hcount, List.cons_append, runEvents_go _ hp hstart, List.append_assoc, List.singleton_append]
  refine Eq.trans (waitrdy_goes_on bb _ _ _ rfl hr hb hne) ?_
  refine Eq.trans (runEvents_go _ rfl (seqAt_wrXchg rfl rfl)) ?_
  refine Eq.trans (runEvents_ticks m _ _) ?_
  refine Eq.trans (runEvents_go _ rfl (seqAt_wrTest rfl)) ?_
  simp [hlast, Nat.sub_eq_zero_of_le hm, exchanged]

end Sys2Proof.Proofs
end

section
/-! The exchange and the small operations, each from acceptance to completion (40 R141 to R143, R147 to R151, R158,
R159). -/

namespace Sys2Proof.Proofs

open Sys2Proof.Machine Sys2Proof.Safety Sys2Proof.Laws

variable {s : State} {k : List Pos} {p : Proc} {v : Byte}

/-! ### One exchange -/

/-- The byte an exchange yields: the script's next one, or a free value past its end (log entry 5). -/
def received (s : State) : Byte := s.rxq.headD (Config.freeByte s.drawn)

theorem xchg_nil (tx : Byte) (h : s.rxq = []) : xchg tx s = (Config.freeByte s.drawn,
    { s with drawn := s.drawn + 1, trace := .exchange tx (Config.freeByte s.drawn) :: s.trace }) := by
  simp only [xchg, h]

/-- An exchange as one update, script or not. -/
theorem xchg_eq (tx : Byte) (s : State) : xchg tx s = (received s, { s with
    rxq := s.rxq.tail, drawn := if s.rxq = [] then s.drawn + 1 else s.drawn
    trace := .exchange tx (received s) :: s.trace }) := by
  cases hq : s.rxq with
  | nil => simp [xchg_nil tx hq, received, hq]
  | cons rx rest => simp [xchg_cons tx hq, received, hq]

/-- Settles O13: the event and SEL whatever the script holds, then the byte with a script and without. -/
theorem exchangeEvent : Obligations.ExchangeEvent := by
  intro tx s
  refine ⟨xchg_trace s tx, xchg_sel s tx, fun rx rest hr => xchg_cons tx hr, fun hr => ?_⟩
  rw [xchg_nil tx hr]
  exact ⟨rfl, rfl⟩

/-! ### Returns -/

/-- A return to the record that waits for it. -/
theorem seqAt_ret {w q : Pos} (hp : s.phase = .ret p v :: w :: k) (hw : resume v w = some q) :
    seqAt (.ret p v) s = .next { s with phase := q :: k } := by
  simp only [seqAt, returnValue, hp, hw]

theorem phase_of_idle (hb : busy s = false) : s.phase = [] := by simpa [busy] using hb

/-- The return that makes the block as idle as it was in `s`, where the operation was accepted. -/
theorem runEvents_completed {t : State} (hb : busy s = false) (hp : t.phase = [.ret p v]) :
    runEvents [.go] t = .next { t with phase := s.phase, res := v } :=
  runs_go hp (by simp only [seqAt, returnValue, hp, phase_of_idle hb])

theorem completed_idle {t : State} (hb : busy s = false) (hp : t.phase = [.ret p v]) :
    Reaches t { t with phase := s.phase, res := v } :=
  ⟨1, runEvents_completed hb hp⟩

/-! ### Chip-select -/

/-- Settles O16: CS(assert), then the return. -/
theorem selectRun : Obligations.SelectRun := by
  intro s hb
  refine ⟨_, accept_idle hb rfl, ?_⟩
  refine reaches_step (p := .selAssert) rfl (by simp only [seqAt, csAssert_eq, goTo]; rfl) ?_
  exact completed_idle hb rfl

theorem csLevelOff_eq (s : State) : csLevelOff s = { s with
    sel := false, trace := if s.sel then .csOff :: s.trace else s.trace } := by
  cases s
  simp only [csLevelOff]
  split <;> simp_all

theorem seqAt_csOff (hp : s.phase = .csOff p v :: k) : seqAt (.csOff p v) s = .next { s with
    phase := .csDummy p v :: k, sel := false, trace := if s.sel then .csOff :: s.trace else s.trace } := by
  simp only [seqAt, csLevelOff_eq, goTo, hp, List.tail_cons]

theorem seqAt_csDummy (hp : s.phase = .csDummy p v :: k) : seqAt (.csDummy p v) s = .next {
    (xchg s.cfg.fill s).2 with phase := .ret p v :: k } := by
  simp only [seqAt, xchgDrop, xchgFill, goTo, xchg_phase, hp, List.tail_cons]

/-- CS(release) from either level: the dummy byte is clocked in both cases (R142). -/
theorem released_either_level (hp : s.phase = .csOff p v :: k) :
    Reaches s { (xchg s.cfg.fill { s with trace := if s.sel then .csOff :: s.trace else s.trace }).2 with
      phase := .ret p v :: k, sel := false } := by
  refine reaches_step hp (seqAt_csOff hp) (reaches_step rfl (seqAt_csDummy rfl) ?_)
  simp only [xchg_eq]
  exact reaches_refl _

/-- Settles O17: CS(release), then the return. -/
theorem deselectRun : Obligations.DeselectRun := by
  intro s hb
  refine ⟨_, accept_idle hb rfl, reaches_trans (released_either_level rfl) ?_⟩
  simp only [xchg_eq]
  exact completed_idle hb rfl

/-! ### XCHG, LDT1, SETTYPE -/

/-- Settles O18: the exchange, then the return of its byte. -/
theorem xchgRun : Obligations.XchgRun := by
  intro txb s hb
  refine ⟨_, accept_idle hb rfl, ?_⟩
  refine reaches_step (p := .xcXchg txb) rfl (by simp only [seqAt, xchg_eq, goTo]; rfl) ?_
  rw [xchg_eq]
  exact completed_idle hb rfl

/-- Settles O19: neither the latch nor the load cuts a value of TIMER_WIDTH bits. -/
theorem loadTimerRun : Obligations.LoadTimerRun := by
  intro tval s hb hw
  have hfits : timerValue s.cfg tval = tval := Nat.mod_eq_of_lt hw
  refine ⟨_, accept_idle hb rfl, ?_⟩
  simp only [tvalOperand, hfits]
  refine reaches_step (p := .ldLoad tval) rfl (by simp only [seqAt, hfits, goTo]; rfl) ?_
  exact completed_idle hb rfl

theorem cardTypeOf_map_bits : ∀ ty : BitVec 3, ty.toNat ≤ 4 → (cardTypeOf ty).map cardTypeBits = some ty := by
  decide

/-- Settles O20: a type that is one is written by the next step; any other is refused at once. -/
theorem setTypeRun : Obligations.SetTypeRun := by
  intro ty s hb
  obtain hty | hty := le_or_gt ty.toNat 4
  · obtain ⟨c, hof, hbits⟩ := Option.map_eq_some_iff.1 (cardTypeOf_map_bits ty hty)
    refine ⟨_, accept_idle hb (by rw [hof]; rfl), fun _ => ⟨c, hbits, ?_⟩, fun h => absurd h hty.not_gt⟩
    refine reaches_step (p := .stSet ty) rfl (by simp only [seqAt, hof, goTo]; rfl) ?_
    exact completed_idle hb rfl
  · have hrefused : (cardTypeOf ty).isNone = true := by simpa [cardTypeOf_isNone] using hty
    exact ⟨_, congrArg Host.Outcome.next (accept_refused hb hrefused), fun h => absurd h hty.not_ge, fun _ => rfl⟩

/-! ### WAITRDY -/

/-- Settles O22: the wait that the ready byte ends, then the return. -/
theorem waitReadyRun : Obligations.WaitReadyRun := by
  intro bb rest s hb ht hbb hr
  refine ⟨_, accept_idle hb rfl, reaches_trans (waitrdy_ready bb rest [] _ rfl hr hbb ht) ?_⟩
  exact completed_idle hb rfl

/-- Settles O23: the wait that its timer ends, then the return. -/
theorem waitReadyTimeout : Obligations.WaitReadyTimeout := by
  intro bb rest b m s hb ht hbb hlast hr hm
  refine ⟨_, accept_idle hb rfl, ?_⟩
  refine Eq.trans (waitrdy_expired bb rest b [.go] rfl ht hbb hlast hr hm) ?_
  exact runEvents_completed hb rfl

/-! ### SYNC -/

/-- SYNC asserts chip-select and calls WAITRDY (R159). -/
theorem seqAt_syStart (hp : s.phase = [.syStart]) :
    seqAt .syStart s = .next { s with phase := [.wrLoad, .syWait], sel := true, trace := selected s } := by
  simp only [seqAt, csAssert_eq, callSub, hp, List.tail_cons]

/-- Whatever the wait returned, SYNC releases chip-select and returns it, in four steps (R159). -/
theorem sync_closed {d : Byte} {rest : List Byte} {t : State} (hb : busy s = false)
    (hp : t.phase = [.ret .waitrdy v, .syWait]) (hr : t.rxq = d :: rest) (hs : t.sel = true) :
    runEvents (List.replicate 4 .go) t = .next { t with
      phase := s.phase, res := v, sel := false, rxq := rest
      trace := .exchange t.cfg.fill d :: .csOff :: t.trace } := by
  refine (runEvents_go _ hp (seqAt_ret hp rfl)).trans (Eq.trans (runEvents_go _ rfl (seqAt_csOff rfl)) ?_)
  refine Eq.trans (runEvents_go _ rfl (seqAt_csDummy rfl)) ?_
  simp only [xchg_eq, received, hr, hs]
  exact runEvents_completed hb rfl

/-- Settles O24: chip-select asserted, the wait that the ready byte or its timer ends, and the same close after both. -/
theorem syncRun : Obligations.SyncRun := by
  refine ⟨fun bb rest d s hb ht hbb hr => ?_, fun bb rest b d m s hb ht hbb hlast hr hm => ?_⟩ <;>
    refine ⟨_, accept_idle hb rfl, ?_⟩
  · refine reaches_step (p := .syStart) rfl (seqAt_syStart rfl) ?_
    refine reaches_trans (waitrdy_ready bb (d :: rest) [.syWait] _ rfl hr hbb ht) ?_
    exact ⟨4, sync_closed hb rfl rfl rfl⟩
  · rw [show 3 + 2 * bb.length = 2 + 2 * bb.length + 1 by omega]
    refine Eq.trans (runEvents_go _ rfl (seqAt_syStart rfl)) ?_
    refine Eq.trans (waitrdy_expired bb (d :: rest) b (List.replicate 4 .go) rfl ht hbb hlast hr hm) ?_
    exact sync_closed hb rfl rfl rfl

end Sys2Proof.Proofs
end

section
/-! The command operations from acceptance to completion: the commands answered and not answered, the card that never
reads ready, and the application command whose APP_CMD is rejected (R172 to R176, R180, R182, R183, R201, R202). -/

namespace Sys2Proof.Proofs

open Sys2Proof.Machine Sys2Proof.Safety Sys2Proof.Laws

variable {s : State} {k : List Pos} {i : Instr} {idx : BitVec 6} {arg : BitVec 32} {rlen : Byte}

/-! ### Acceptance -/

theorem rlenTooLong_eq_false (hl : rlen.toNat ≤ s.cfg.respMax) : rlenTooLong s rlen = false :=
  decide_eq_false hl.not_gt

theorem exec_command_accepted (hi : commandOf i = some (idx, arg, rlen)) (hb : busy s = false)
    (hl : rlen.toNat ≤ s.cfg.respMax) :
    exec i s = .next { s with ops := withCommand 0x4 (idx, arg, rlen) s.ops, phase := [.scSelect idx arg rlen] } :=
  (exec_command hi s).1.trans (accept_idle hb (rlenTooLong_eq_false hl))

theorem exec_appCommand_accepted (hi : appCommandOf i = some (idx, arg, rlen)) (hb : busy s = false)
    (hl : rlen.toNat ≤ s.cfg.respMax) :
    exec i s = .next { s with ops := withCommand 0x5 (idx, arg, rlen) s.ops, phase := [.saStart idx arg rlen] } :=
  (exec_appCommand hi s).1.trans (accept_idle hb (rlenTooLong_eq_false hl))

/-! ### SENDCMD -/

/-- Settles O27: the command that `sendcmd_answered` runs, then the return of its R1. -/
theorem commandAnswered : Obligations.CommandAnswered := by
  intro i idx arg rlen c rest s hi hb hl hresp ht hc hr
  refine ⟨_, exec_command_accepted hi hb hl, ?_⟩
  refine reaches_trans (sendcmd_answered c rest idx arg rlen [] _ rfl hr hc ht (hl.trans_eq hresp.symm)) ?_
  exact completed_idle hb rfl

/-- Settles O28: the command that `sendcmd_unanswered` runs, then the return of the code. -/
theorem commandUnanswered : Obligations.CommandUnanswered := by
  intro i idx arg rlen bb dd nn rest s hi hb hl ht hbb hdd hnn hset hr
  refine ⟨_, exec_command_accepted hi hb hl, ?_⟩
  refine reaches_trans (sendcmd_unanswered bb dd nn rest idx arg rlen [] _ rfl hr hbb hdd hnn hset ht) ?_
  exact completed_idle hb rfl

/-- SENDCMD asserts chip-select and calls WAITRDY (R172, R173). -/
theorem seqAt_scSelect (hp : s.phase = .scSelect idx arg rlen :: k) : seqAt (.scSelect idx arg rlen) s = .next { s with
    phase := .wrLoad :: .scWaitRdy idx arg rlen :: k, sel := true, trace := selected s } := by
  simp only [seqAt, csAssert_eq, callSub, hp, List.tail_cons]

/-- A readiness wait that failed ends SENDCMD with the code, before any frame byte (R173). -/
theorem seqAt_scReady_fail (hp : s.phase = .scReady idx arg rlen 0#8 :: k) :
    seqAt (.scReady idx arg rlen 0#8) s = .next { s with phase := .ret .sendcmd s.cfg.codeNotReady :: k } := by
  obtain ⟨-, -, -, -, -, hcode, -⟩ := wireElementsAct s k
  simp only [seqAt, Config.fail, if_true, hcode idx arg rlen 0#8 hp]

/-- SENDCMD on a card that reads no 0xFF until the ticks have brought T2 to zero (R173, R182). -/
theorem sendcmd_not_ready (bb rest : List Byte) (b : Byte) {m : Nat} (es : List Event)
    (hp : s.phase = .scSelect idx arg rlen :: k) (ht : boundsOk s.cfg = true) (hbb : ∀ x ∈ bb, x ≠ 0xFF#8)
    (hlast : b ≠ 0xFF#8) (hr : s.rxq = bb ++ b :: rest) (hm : s.cfg.waitReadyTicks ≤ m) :
    runEvents (List.replicate (3 + 2 * bb.length) .go ++ (List.replicate m .tick ++ .go :: .go :: .go :: es)) s =
      runEvents es { s with
        phase := .ret .sendcmd s.cfg.codeNotReady :: k, sel := true, t1 := s.t1 - m, t2 := 0, rxq := rest
        trace := exchanged s.cfg.fill (bb ++ [b]) (selected s) } := by
  rw [show 3 + 2 * bb.length = 2 + 2 * bb.length + 1 by omega]
  refine Eq.trans (runEvents_go _ hp (seqAt_scSelect hp)) ?_
  refine Eq.trans (waitrdy_expired bb rest b (.go :: .go :: es) rfl ht hbb hlast hr hm) ?_
  refine Eq.trans (runEvents_go _ rfl (seqAt_ret rfl rfl)) ?_
  exact runEvents_go _ rfl (seqAt_scReady_fail rfl)

/-- Settles O29: the command that never sends its frame, then the return of the code. -/
theorem commandNotReady : Obligations.CommandNotReady := by
  intro i idx arg rlen bb rest b m s hi hb hl ht hbb hlast hr hm
  refine ⟨_, exec_command_accepted hi hb hl, ?_⟩
  refine Eq.trans (sendcmd_not_ready bb rest b [.go] rfl ht hbb hlast hr hm) ?_
  exact runEvents_completed hb rfl

/-! ### SENDACMD -/

/-- SENDACMD sends APP_CMD first (R201). -/
theorem seqAt_saStart (hp : s.phase = .saStart idx arg rlen :: k) : seqAt (.saStart idx arg rlen) s = .next { s with
    phase := .scSelect s.cfg.idxAppCmd 0 0 :: .saWaitPrefix idx arg rlen :: k } := by
  simp only [seqAt, callSub, hp, List.tail_cons]

/-- A result of APP_CMD above 1 is the result of SENDACMD (R202 b, c). -/
theorem seqAt_saPrefix_above {r : Byte} (hp : s.phase = .saPrefix idx arg rlen r :: k) (hv : 1 < r.toNat) :
    seqAt (.saPrefix idx arg rlen r) s = .next { s with phase := .ret .sendacmd r :: k } := by
  have habove : aboveIdle r = true := decide_eq_true hv
  simp only [seqAt, habove, if_true, goTo, hp, List.tail_cons]

/-- Whatever APP_CMD returned above 1, R1 or code, SENDACMD returns it in three steps, no byte exchanged (R202). -/
theorem sendacmd_appCmd_rejected {r : Byte} {t : State} (hb : busy s = false)
    (hp : t.phase = [.ret .sendcmd r, .saWaitPrefix idx arg rlen]) (hv : 1 < r.toNat) :
    runEvents (List.replicate 3 .go) t = .next { t with phase := s.phase, res := r } := by
  refine (runEvents_go _ hp (seqAt_ret hp rfl)).trans ?_
  refine Eq.trans (runEvents_go _ rfl (seqAt_saPrefix_above rfl hv)) ?_
  exact runEvents_completed hb rfl

/-- Settles O31: APP_CMD sent as a command that is answered, not answered, or never begun, and the same rejection of
its result. -/
theorem appCommandRejected : Obligations.AppCommandRejected := by
  intro i idx arg rlen s hi hb hl ht
  refine ⟨fun c rest hc hv hr => ?_, fun bb dd nn rest hv hbb hdd hnn hset hr => ?_,
    fun bb rest b m hv hbb hlast hr hm => ?_⟩ <;>
    refine ⟨_, exec_appCommand_accepted hi hb hl, ?_⟩
  · refine reaches_trans (sendacmd_rejected c rest idx arg rlen [] _ rfl hr hc hv ht) ?_
    exact completed_idle hb rfl
  · refine reaches_step (p := .saStart idx arg rlen) rfl (seqAt_saStart rfl) ?_
    refine reaches_trans (sendcmd_unanswered bb dd nn rest _ _ _ _ _ rfl hr hbb hdd hnn hset ht) ?_
    exact ⟨3, sendacmd_appCmd_rejected hb rfl hv⟩
  · rw [show 4 + 2 * bb.length = 3 + 2 * bb.length + 1 by omega]
    refine Eq.trans (runEvents_go _ rfl (seqAt_saStart rfl)) ?_
    refine Eq.trans (sendcmd_not_ready bb rest b (List.replicate 3 .go) rfl ht hbb hlast hr hm) ?_
    exact sendacmd_appCmd_rejected hb rfl hv

end Sys2Proof.Proofs
end

section
/-! The application command whose APP_CMD is accepted, from acceptance to completion (R201, R202 a). -/

namespace Sys2Proof.Proofs

open Sys2Proof.Machine Sys2Proof.Safety Sys2Proof.Laws

/-- The responses to APP_CMD that go on to the command (R202 a). -/
theorem eq_zero_or_one_of_toNat_le_one {r : Byte} (h : r.toNat ≤ 1) : r = 0x00#8 ∨ r = 0x01#8 :=
  (Nat.le_one_iff_eq_zero_or_eq_one.mp h).imp BitVec.eq_of_toNat_eq BitVec.eq_of_toNat_eq

/-- Settles O30: APP_CMD and the command that `sendacmd_answered` runs, then the return of the command's R1. -/
theorem appCommandAnswered : Obligations.AppCommandAnswered := by
  intro i idx arg rlen c d rest s hi hb hl hresp ht hc hv hd hr
  have hprefix : c.r1 = 0x00#8 ∨ c.r1 = 0x01#8 := eq_zero_or_one_of_toNat_le_one hv
  refine ⟨_, exec_appCommand_accepted hi hb hl, ?_⟩
  refine reaches_trans
    (sendacmd_answered c d rest idx arg rlen [] _ rfl hr hc hd hprefix ht (hl.trans_eq hresp.symm)) ?_
  exact completed_idle hb rfl

end Sys2Proof.Proofs
end

section
/-! `initialize()` on a card that always reads 0xFF: the idle exchanges, the reset command that no byte answers, and the
release that ends the call (R210 to R212, R227, R230, R353). -/

namespace Sys2Proof.Proofs

open Sys2Proof.Machine Sys2Proof.Safety Sys2Proof.Laws

variable {s : State} {rest : List Byte}

/-! ### One operation of the host -/

/-- The idle block accepts the operation the host issues, and runs it. -/
theorem reaches_issued {i : Instr} {u t : State} (hb : busy s = false) (h : hostStep s = exec i u)
    (hrun : ∃ a, exec i u = .next a ∧ Reaches a t) : Reaches s t := by
  obtain ⟨a, ha, hat⟩ := hrun
  exact reaches_host hb (h.trans ha) hat

theorem eq_unknown_of_cardTypeBits : ∀ {c : CardType}, cardTypeBits c = 0 → c = .unknown
  | .unknown, _ => rfl

/-- The call begun: the card type cleared and NOINIT set, the calls `cs` still to be made (R210, R353). -/
def initCleared (cs : List Call) (s : State) : State :=
  { s with
    ops := { s.ops with op := 0xB, typein := 0 }, res := 1#8, cardType := .unknown
    host := { s.host with pos := .afterClear, calls := cs, noinit := true } }

theorem reaches_initCleared {cs : List Call} (hb : busy s = false) (hf : s.host.pos = .free)
    (hc : s.host.calls = .init :: cs) : Reaches s (initCleared cs s) := by
  obtain ⟨a, ha, hset, -⟩ := setTypeRun 0
    { s with host := { s.host with pos := .afterClear, calls := cs, noinit := true } } hb
  obtain ⟨c, hbits, hrun⟩ := hset (by decide)
  obtain rfl := eq_unknown_of_cardTypeBits hbits
  exact reaches_issued hb (hostStep_init hf hc) ⟨a, ha, hrun⟩

/-! ### The idle exchanges -/

/-- The host is ready for the idle exchange after `k` of them, chip-select released if that is the first (R211). -/
def AtIdleExchange (k : Nat) (s : State) : Prop :=
  s.host.pos = .afterClear ∧ s.sel = false ∧ k = 0 ∨ s.host.pos = .powerup k

/-- One idle exchange (R211). -/
theorem idleExchange_completed {k : Nat} {rx : Byte} (hb : busy s = false) (hk : AtIdleExchange k s)
    (hlt : k < s.cfg.powerupBytes) (hr : s.rxq = rx :: rest) : Reaches s { s with
      ops := { s.ops with op := 0x2, txb := s.cfg.fill }, res := rx, rxq := rest
      trace := .exchange s.cfg.fill rx :: s.trace, host := { s.host with pos := .powerup (k + 1) } } := by
  have hstep : hostStep s = exec (.xchg s.cfg.fill) (setHostPos (.powerup (k + 1)) s) := by
    rw [hostStep_powerup hk, initPowerup_eq, if_pos hlt]
  have hrun := xchgRun s.cfg.fill (setHostPos (.powerup (k + 1)) s) hb
  rw [xchg_cons s.cfg.fill (s := setHostPos (.powerup (k + 1)) s) hr] at hrun
  exact reaches_issued hb hstep hrun

/-- The idle exchanges still to come are made one after another; `RES`, the operands and the host's position are left
as the last of them leaves them (R211). -/
theorem idleExchanges_completed (rxs : List Byte) {k : Nat} (s : State) (hb : busy s = false) (hk : AtIdleExchange k s)
    (hn : k + rxs.length = s.cfg.powerupBytes) (hr : s.rxq = rxs ++ rest) : ∃ t o r q,
      t = { s with
        ops := o, res := r, rxq := rest, trace := exchanged s.cfg.fill rxs s.trace
        host := { s.host with pos := q } } ∧
      AtIdleExchange s.cfg.powerupBytes t ∧ Reaches s t := by
  induction rxs generalizing k s with
  | nil =>
    obtain rfl : k = s.cfg.powerupBytes := hn
    obtain rfl : s.rxq = rest := hr
    exact ⟨s, s.ops, s.res, s.host.pos, rfl, hk, reaches_refl s⟩
  | cons rx rxs ih =>
    rw [List.length_cons] at hn
    obtain ⟨t, o, r, q, rfl, hq, hrest⟩ := ih (k := k + 1) { s with
      ops := { s.ops with op := 0x2, txb := s.cfg.fill }, res := rx, rxq := rxs ++ rest
      trace := .exchange s.cfg.fill rx :: s.trace, host := { s.host with pos := .powerup (k + 1) } }
      hb (.inr rfl) (by simp only; omega) rfl
    refine ⟨_, o, r, q, ?_, hq, reaches_trans (idleExchange_completed hb hk (by omega) hr) hrest⟩
    simp [exchanged]

/-! ### The reset command -/

/-- The reset command follows the last idle exchange (R211, R212). -/
theorem hostStep_reset (hk : AtIdleExchange s.cfg.powerupBytes s) :
    hostStep s = exec (.sendcmd s.cfg.idxGoIdle 0 0) (setHostPos .afterReset s) := by
  rw [hostStep_powerup hk, initPowerup_eq, if_neg (lt_irrefl _)]

/-- The reset command on a card that reads 0xFF throughout gives the timeout code (R176, R180, R212). -/
theorem reset_unanswered (hb : busy s = false) (hk : AtIdleExchange s.cfg.powerupBytes s) (hs : s.sel = false)
    (ht : boundsOk s.cfg = true) (hr : s.rxq = List.replicate (s.cfg.r1Polls + 7) 0xFF#8 ++ rest) : Reaches s { s with
      ops := withCommand 0x4 (s.cfg.idxGoIdle, 0, 0) s.ops, res := s.cfg.codeRespTimeout, sel := true
      t2 := s.cfg.waitReadyTicks, rxq := rest, host := { s.host with pos := .afterReset }
      trace := exchanged s.cfg.fill (List.replicate s.cfg.r1Polls 0xFF#8)
        (sent (buildFrame s.cfg s.cfg.idxGoIdle 0) (List.replicate 6 0xFF#8)
          (exchanged s.cfg.fill (List.replicate 1 0xFF#8) (.csOn :: s.trace))) } := by
  have hbytes : s.rxq = [] ++ 0xFF#8 :: (List.replicate 6 0xFF#8 ++ (List.replicate s.cfg.r1Polls 0xFF#8 ++ rest)) := by
    rw [hr, Nat.add_comm, List.replicate_add, List.append_assoc]
    rfl
  have hset : ∀ b ∈ List.replicate s.cfg.r1Polls 0xFF#8, b.getLsbD 7 = true := fun b hmem => by
    rw [List.eq_of_mem_replicate hmem]
    rfl
  have hrun := commandUnanswered (.sendcmd s.cfg.idxGoIdle 0 0) s.cfg.idxGoIdle 0 0 [] _ _ rest
    (setHostPos .afterReset s) rfl hb (Nat.zero_le _) ht (by simp) List.length_replicate List.length_replicate hset
    hbytes
  rw [show selected (setHostPos .afterReset s) = .csOn :: s.trace by simp [selected, hs]] at hrun
  exact reaches_issued hb (hostStep_reset hk) hrun

/-! ### The end of the call -/

/-- DESELECT with chip-select asserted, from acceptance to completion (R142, R149). -/
theorem deselect_selected {rx : Byte} (hb : busy s = false) (hs : s.sel = true) (hr : s.rxq = rx :: rest) :
    ∃ a, exec .deselect s = .next a ∧ Reaches a { s with
      ops := { s.ops with op := 0x1 }, res := 1#8, sel := false, rxq := rest
      trace := .exchange s.cfg.fill rx :: .csOff :: s.trace } :=
  ⟨_, accept_idle hb rfl, reaches_trans (released rfl hr hs) (completed_idle hb rfl)⟩

/-- Any response to the reset command but in-idle-state ends the call: the card is released, and the status byte is
returned with NOINIT as it stands (R212, R227, R353). -/
theorem init_ends_unless_idle {rx : Byte} (hb : busy s = false) (hpos : s.host.pos = .afterReset)
    (hres : s.res ≠ 0x01#8) (hs : s.sel = true) (hr : s.rxq = rx :: rest) : Reaches s { s with
      ops := { s.ops with op := 0x1 }, res := 1#8, sel := false, rxq := rest
      trace := .exchange s.cfg.fill rx :: .csOff :: s.trace
      host := { s.host with pos := .free, ret := some (.status (if s.host.noinit then 1#8 else 0#8)) } } := by
  have hread : hostStep s = .next (setHostPos (.resetRes s.res) s) := hostStep_waiting hpos nofun
  have hrelease : hostStep (setHostPos (.resetRes s.res) s) = exec .deselect (setHostPos (.released .unknown) s) := by
    rw [hostStep_waiting (q := .resetRes s.res) rfl nofun, hostResume, initReset_eq, if_neg hres]
    rfl
  have hrun := deselect_selected (s := setHostPos (.released .unknown) s) hb hs hr
  refine reaches_host hb hread (reaches_trans (reaches_issued hb hrelease hrun) (reaches_host hb ?_ (reaches_refl _)))
  exact (hostStep_waiting (q := .released .unknown) rfl nofun).trans (initReleased_unknown _)

/-- Settles O60: the idle exchanges, the reset command unanswered, and the end of the call, each from the state the one
before leaves. -/
theorem silentCardFailsInit : Obligations.SilentCardFailsInit := by
  intro rest cs s hb hs ht hcode hf hc hr
  have hbytes : s.rxq = List.replicate s.cfg.powerupBytes 0xFF#8 ++
      (List.replicate (s.cfg.r1Polls + 7) 0xFF#8 ++ 0xFF#8 :: rest) := by
    rw [hr, Nat.add_assoc, List.replicate_add, List.append_assoc, List.replicate_succ', List.append_assoc]
    rfl
  have hclear := reaches_initCleared hb hf hc
  obtain ⟨t, o, r, q, rfl, hq, hidle⟩ := idleExchanges_completed (List.replicate s.cfg.powerupBytes 0xFF#8)
    (initCleared cs s) hb (.inl ⟨rfl, hs, rfl⟩) (by simp [initCleared]) hbytes
  refine ⟨_, reaches_trans hclear (reaches_trans hidle (reaches_trans
    (reset_unanswered hb hq hs ht rfl) (init_ends_unless_idle hb rfl hcode rfl rfl))), ?_⟩
  exact ⟨phase_of_idle hb, rfl, rfl, rfl, by rw [← hf]; rfl, rfl, rfl, rfl, rfl⟩

end Sys2Proof.Proofs
end

section
/-! Sector transfers, either direction, step by step (R241 to R247, R251, R252), and the runs of a single-sector read
and of a write of one sector or several (R241, R242, R245, R251 to R253). -/

namespace Sys2Proof.Proofs

open Sys2Proof.Machine Sys2Proof.Safety Sys2Proof.Laws

variable {s : State} {k : List Pos} {dir : Dir} {sect cnt rem : BitVec 32} {buf p : Nat} {r v : Byte}

/-! ### The steps of a transfer -/

theorem seqAt_txStart (hp : s.phase = .txStart dir sect cnt buf :: k) :
    seqAt (.txStart dir sect cnt buf) s = .next { s with
      phase := .scSelect (transferIndex s.cfg dir cnt) (cardAddress s.cfg s.cardType sect) 0 ::
        (if cnt = 1 then .txWaitSingle dir buf else .txWaitMulti dir cnt buf) :: k } := by
  simp only [seqAt, transferStart, callSub, hp, List.tail_cons]

/-- The one block is called for only where the command was answered 0x00 (R242, R251). -/
theorem seqAt_txSingle (hp : s.phase = .txSingle dir buf r :: k) : seqAt (.txSingle dir buf r) s = .next { s with
    phase := if r = 0#8 then blockCall s.cfg dir false buf :: .txWaitOne dir :: k
      else .csOff (dirProc dir) 0#8 :: k } := by
  simp only [seqAt, accepted_iff, callSub, goTo, hp, List.tail_cons, Config.fail]
  split <;> rfl

/-- The loop begins only where the command was answered 0x00 (R242, R251). -/
theorem seqAt_txMulti (hp : s.phase = .txMulti dir cnt buf r :: k) :
    seqAt (.txMulti dir cnt buf r) s = .next { s with
      phase := if r = 0#8 then blockCall s.cfg dir true buf :: .txWaitBlock dir cnt buf :: k
        else .csOff (dirProc dir) 0#8 :: k } := by
  simp only [seqAt, accepted_iff, callSub, goTo, hp, List.tail_cons, Config.fail]
  split <;> rfl

/-- A failed block leaves the loop with its sector still counted (R243, R252 d). -/
theorem seqAt_txBlock_failed (hp : s.phase = .txBlock dir rem p 0#8 :: k) :
    seqAt (.txBlock dir rem p 0#8) s = .next { s with phase := loopEnd dir rem :: k } := by
  simp only [seqAt, transferBlock, Config.fail, if_true, goTo, hp, List.tail_cons]

/-- The last block done, the loop ends with no sector left (R241, R251). -/
theorem seqAt_txBlock_last (hp : s.phase = .txBlock dir 1 p 1#8 :: k) :
    seqAt (.txBlock dir 1 p 1#8) s = .next { s with phase := loopEnd dir 0 :: k } := by
  have hgood : 1#8 ≠ Config.fail := by decide
  simp only [seqAt, transferBlock, if_neg hgood, sub_self, if_true, goTo, hp, List.tail_cons]

/-- An earlier block done, the next is called for a sector further on (R241, R246 e, R251). -/
theorem seqAt_txBlock_next (hp : s.phase = .txBlock dir rem p 1#8 :: k) (h1 : rem ≠ 1) :
    seqAt (.txBlock dir rem p 1#8) s = .next { s with
      phase := blockCall s.cfg dir true (bufAddr s (p + s.cfg.sectorBytes)) ::
        .txWaitBlock dir (rem - 1) (bufAddr s (p + s.cfg.sectorBytes)) :: k } := by
  have hgood : 1#8 ≠ Config.fail := by decide
  have hmore : rem - 1 ≠ 0 := sub_ne_zero.2 h1
  simp only [seqAt, transferBlock, if_neg hgood, if_neg hmore, callSub, hp, List.tail_cons]

theorem seqAt_rdStop (hp : s.phase = .rdStop rem :: k) : seqAt (.rdStop rem) s = .next { s with
    phase := .scSelect s.cfg.idxStopTransmission 0 0 :: .rdWaitStop rem :: k } := by
  simp only [seqAt, callSub, hp, List.tail_cons]

theorem seqAt_rdStopped (hp : s.phase = .rdStopped rem :: k) : seqAt (.rdStopped rem) s = .next { s with
    phase := .wrLoad :: .txWaitRdy .read rem :: k } := by
  simp only [seqAt, callSub, hp, List.tail_cons]

theorem seqAt_wsStop (hp : s.phase = .wsStop rem :: k) : seqAt (.wsStop rem) s = .next {
    (xchg s.cfg.tokenStopTran s).2 with phase := .wrLoad :: .txWaitRdy .write rem :: k } := by
  obtain ⟨-, -, hstop, -⟩ := wireElementsAct s k
  exact hstop rem hp

/-- The result is ok where the wait was and no sector is left (R246 c, R252 e). -/
theorem seqAt_txRdy (hp : s.phase = .txRdy dir rem v :: k) : seqAt (.txRdy dir rem v) s = .next { s with
    phase := .csOff (dirProc dir) (if v = 1#8 ∧ rem = 0 then 1#8 else 0#8) :: k } := by
  simp only [seqAt, goTo, resultOf, hp, List.tail_cons, Config.ok, Config.fail, Bool.and_eq_true, beq_iff_eq]

/-- Settles O42: each clause is the step of its record, with the tested value the clause names. -/
theorem transferLoopRules : Obligations.TransferLoopRules := by
  intro s k dir cnt rem q r v
  refine ⟨fun hp hr => ?_, fun hp hr => ?_, fun hp => ?_, fun hp => ?_, fun hp h1 => ⟨_, rfl, ?_⟩, fun hp => ?_,
    fun hp => ?_, fun hp => ?_, fun hp => ?_⟩ <;> rw [seqStep_running hp]
  · rw [seqAt_txSingle hp, if_neg hr]
  · rw [seqAt_txMulti hp, if_neg hr]
  · exact seqAt_txBlock_failed hp
  · exact seqAt_txBlock_last hp
  · exact seqAt_txBlock_next hp h1
  · exact seqAt_rdStop hp
  · exact seqAt_rdStopped hp
  · exact seqAt_wsStop hp
  · exact seqAt_txRdy hp

/-! ### The beginning and the end of a transfer -/

/-- The command of a transfer answered 0x00 (R241, R251). -/
theorem transfer_accepted (c : Answer) (rest : List Byte) (hp : s.phase = .txStart dir sect cnt buf :: k)
    (hr : s.rxq = c.bytes ++ rest) (hc : c.fits s.cfg 0 = true) (hv : c.r1 = 0#8) (ht : boundsOk s.cfg = true) :
    Reaches s { s with
      phase := (if cnt = 1 then .txSingle dir buf 0#8 else .txMulti dir cnt buf 0#8) :: k
      sel := true, t2 := s.cfg.waitReadyTicks, rxq := rest
      trace := c.trace s.cfg (transferIndex s.cfg dir cnt) (cardAddress s.cfg s.cardType sect) (selected s) } := by
  have hresume : resume c.r1 (if cnt = 1 then .txWaitSingle dir buf else .txWaitMulti dir cnt buf) =
      some (if cnt = 1 then .txSingle dir buf 0#8 else .txMulti dir cnt buf 0#8) := by
    rw [hv]
    split <;> rfl
  refine reaches_step hp (seqAt_txStart hp) ?_
  refine reaches_trans (sendcmd_answered c rest _ _ _ _ _ rfl hr hc ht (Nat.zero_le _)) ?_
  refine reaches_trans (returned rfl hresume) ?_
  simpa [answer_extra_nil hc, selected] using reaches_refl _

/-- CS(release) at the end of a transfer, then the return that leaves the block as idle as `s` was (R245). -/
theorem transfer_closed {t : State} {d : Byte} {rest : List Byte} (hb : busy s = false)
    (hp : t.phase = [.csOff (dirProc dir) v]) (hr : t.rxq = d :: rest) (hs : t.sel = true) :
    Reaches t { t with
      phase := s.phase, res := v, sel := false, rxq := rest
      trace := .exchange t.cfg.fill d :: .csOff :: t.trace } :=
  reaches_trans (released hp hr hs) (completed_idle hb rfl)

/-! ### One sector -/

/-- Settles O38: accepted, RDSECT sends its command, receives its block, and returns that block's result. -/
theorem readSectorRun : Obligations.ReadSectorRun := by
  intro sect buf c b d rest s hb hrf ht hc hv hfit hr
  refine ⟨_, accept_idle hb (by rwa [sectorRefused_eq]), ?_⟩
  refine reaches_trans (transfer_accepted c _ rfl hr hc hv ht) ?_
  refine reaches_step (p := .txSingle .read (bufAddr s buf) 0#8) rfl (seqAt_txSingle rfl) ?_
  refine reaches_trans (recvblk_received b (d :: rest) (.buffer (bufAddr s buf)) _ _ _ rfl rfl hfit ht) ?_
  refine reaches_trans (returned rfl rfl) ?_
  rw [storePayload_buffer_frame, storePayload_buffer_frame _ _ s, (storePayload_congr _ _ _ s _ ?_ ?_ ?_).1]
  · exact transfer_closed hb rfl rfl rfl
  all_goals rfl

/-- Settles O40: accepted, WRSECT sends its command and its block, and returns that block's result. -/
theorem writeSectorRun : Obligations.WriteSectorRun := by
  intro sect buf c b d rest s hb hrf ht hc hv hfit hr
  refine ⟨_, accept_idle hb (by rwa [sectorRefused_eq, ← Bool.or_assoc]), ?_⟩
  refine reaches_trans (transfer_accepted c _ rfl hr hc hv ht) ?_
  refine reaches_step (p := .txSingle .write (bufAddr s buf) 0#8) rfl (seqAt_txSingle rfl) ?_
  refine reaches_trans (sendblk_taken b (d :: rest) (bufAddr s buf) _ _ _ _ rfl rfl hfit ht) ?_
  refine reaches_trans (returned rfl rfl) ?_
  exact transfer_closed hb rfl rfl rfl

/-! ### A write of several sectors -/

/-- One block of the loop is sent and accepted (R251, R281). -/
theorem block_taken (b : Taken) (rest : List Byte)
    (hp : s.phase = blockCall s.cfg .write true p :: .txWaitBlock .write rem p :: k) (hr : s.rxq = b.bytes ++ rest)
    (hb : b.fits s.cfg s.cfg.sectorBytes = true) (ht : boundsOk s.cfg = true) : Reaches s { s with
      phase := .txBlock .write rem p 1#8 :: k, t1 := s.cfg.sendBusyTicks, rxq := rest
      trace := b.trace s p s.cfg.sectorBytes s.cfg.tokenStartMulti s.trace } :=
  reaches_trans (sendblk_taken b rest p _ _ _ s hp hr hb ht) (returned rfl rfl)

/-- The blocks of the loop are sent from ascending addresses, and the stop token is next (R67, R251). -/
theorem blocks_taken (bs : List Taken) (rest : List Byte) (p : Nat) (rem : BitVec 32) (s : State)
    (hp : s.phase = blockCall s.cfg .write true p :: .txWaitBlock .write rem p :: k)
    (hr : s.rxq = (bs.map Taken.bytes).flatten ++ rest) (hn : bs.length = rem.toNat) (h0 : bs ≠ [])
    (hb : ∀ b ∈ bs, b.fits s.cfg s.cfg.sectorBytes = true) (ht : boundsOk s.cfg = true) :
    Reaches s { s with
      phase := .wsStop 0 :: k, t1 := s.cfg.sendBusyTicks, rxq := rest, trace := takenTrace s p bs s.trace } := by
  induction bs generalizing p rem s with
  | nil => exact absurd rfl h0
  | cons b bs ih =>
    simp only [List.map_cons, List.flatten_cons, List.append_assoc] at hr
    refine reaches_trans (block_taken b _ hp hr (hb b List.mem_cons_self) ht) ?_
    obtain ⟨hlast, hn'⟩ := counted_block hn
    obtain rfl | hne := eq_or_ne bs []
    · obtain rfl : rem = 1 := hlast.2 rfl
      exact reaches_step rfl (seqAt_txBlock_last rfl) (reaches_refl _)
    · have h1 : rem ≠ 1 := fun h => hne (List.length_eq_zero_iff.1 (hlast.1 h))
      refine reaches_step rfl (seqAt_txBlock_next rfl h1) ?_
      refine reaches_trans (ih _ (rem - 1) _ rfl rfl hn' hne (fun x hx => hb x (List.mem_cons_of_mem b hx)) ht) ?_
      rw [takenTrace_congr s]
      · exact reaches_refl _
      all_goals rfl

/-- The stop token and the readiness polls, every sector sent (R251, R252 e). -/
theorem write_stopped (x : Byte) (bb rest : List Byte) (hp : s.phase = .wsStop 0 :: k)
    (hr : s.rxq = x :: (bb ++ 0xFF#8 :: rest)) (hbb : ∀ y ∈ bb, y ≠ 0xFF#8) (ht : boundsOk s.cfg = true) :
    Reaches s { s with
      phase := .csOff (dirProc .write) 1#8 :: k, t2 := s.cfg.waitReadyTicks, rxq := rest
      trace := exchanged s.cfg.fill (bb ++ [0xFF#8]) (.exchange s.cfg.tokenStopTran x :: s.trace) } := by
  have hstop := seqAt_wsStop hp
  rw [xchg_cons _ hr] at hstop
  refine reaches_step hp hstop ?_
  refine reaches_trans (waitrdy_ready bb rest _ _ rfl rfl hbb ht) ?_
  refine reaches_trans (returned rfl rfl) ?_
  exact reaches_step rfl (seqAt_txRdy rfl) (reaches_refl _)

/-- Settles O41: accepted, WRSECT sends its command, its blocks and the stop token, and ends at the wait after it. -/
theorem writeSectorsRun : Obligations.WriteSectorsRun := by
  intro sect cnt buf c bs x bb d rest s hb h1 hrf ht hc hv hn hfit hbb hr
  have hne : bs ≠ [] := by
    rintro rfl
    obtain rfl : cnt = 0 := BitVec.eq_of_toNat_eq hn.symm
    simp [refusedBy] at hrf
  refine ⟨_, accept_idle hb (by rwa [sectorRefused_eq, ← Bool.or_assoc]), ?_⟩
  refine reaches_trans (transfer_accepted c _ rfl hr hc hv ht) ?_
  rw [transferIndex, if_neg h1, if_neg h1]
  refine reaches_step (p := .txMulti .write cnt (bufAddr s buf) 0#8) rfl (seqAt_txMulti rfl) ?_
  refine reaches_trans (blocks_taken bs _ (bufAddr s buf) cnt _ rfl rfl hn hne hfit ht) ?_
  refine reaches_trans (write_stopped x bb (d :: rest) rfl rfl hbb ht) ?_
  rw [takenTrace_congr s]
  · exact transfer_closed hb rfl rfl rfl
  all_goals rfl

end Sys2Proof.Proofs
end

section
/-! RECVBLK and SENDBLK from acceptance to completion (R270, R271, R280 to R282), and the positions at which RECVBLK
stores and fails (R273). -/

namespace Sys2Proof.Proofs

open Sys2Proof.Machine Sys2Proof.Safety Sys2Proof.Laws

variable {s t : State} {k : List Pos}

/-! ### RECVBLK to its end -/

/-- Settles O32: accepted, the block that `recvblk_received` runs, then the return of its result. -/
theorem receiveBlockRun : Obligations.ReceiveBlockRun := by
  intro buf len b rest s hb ht hrf hfit hr
  refine ⟨_, accept_idle hb (by rwa [bufWraps_len]), ?_⟩
  refine reaches_trans (recvblk_received b rest (.buffer (bufAddr s buf)) _ [] _ rfl hr hfit ht) ?_
  rw [storePayload_buffer_frame, storePayload_buffer_frame _ _ s, (storePayload_congr _ _ _ s _ ?_ ?_ ?_).1]
  · exact completed_idle hb rfl
  all_goals rfl

/-! ### Where RECVBLK stores and where it fails -/

/-- The records of RECVBLK that can be at the top of PHASE. -/
inductive Receiving : Pos → Prop
  | load (d : Dest) (len : Nat) : Receiving (.rbLoad d len)
  | xchg (d : Dest) (len : Nat) : Receiving (.rbXchg d len)
  | test (d : Dest) (len : Nat) (rx : Byte) : Receiving (.rbTest d len rx)
  | data (d : Dest) (len j : Nat) : Receiving (.rbData d len j)
  | crc1 : Receiving .rbCrc1
  | crc2 : Receiving .rbCrc2
  | ret (v : Byte) : Receiving (.ret .recvblk v)

/-- RECVBLK has no CS(release), so the two records of one are never its own. -/
theorem receiving_of_procOf {p : Pos} (hok : phaseOk (p :: k) = true) (hp : procOf p = .recvblk) : Receiving p := by
  obtain ⟨htop, -⟩ := phaseOk_cons.1 hok
  cases p
  case rbLoad d len => exact .load d len
  case rbXchg d len => exact .xchg d len
  case rbTest d len rx => exact .test d len rx
  case rbData d len j => exact .data d len j
  case rbCrc1 => exact .crc1
  case rbCrc2 => exact .crc2
  case ret q v =>
    obtain rfl : q = .recvblk := hp
    exact .ret v
  case csOff q v | csDummy q v =>
    obtain rfl : q = .recvblk := hp
    exact nomatch htop
  case txStart d _ _ _ | txWaitSingle d _ | txSingle d _ _ | txWaitOne d | txWaitMulti d _ _ | txMulti d _ _ _ |
      txWaitBlock d _ _ | txBlock d _ _ _ | txWaitRdy d _ | txRdy d _ _ =>
    cases d <;> exact nomatch hp
  all_goals exact nomatch hp

theorem receiving_stores_only_in_data {p : Pos} (hr : Receiving p) (hp : s.phase = p :: k) (h : seqAt p s = .next t)
    (hd : ∀ d len j, p ≠ .rbData d len j) : t.mem = s.mem ∧ t.conf = s.conf := by
  cases hr with
  | load d len =>
    obtain rfl := Host.Outcome.next.inj h
    exact ⟨rfl, rfl⟩
  | xchg | crc1 | crc2 =>
    obtain rfl := Host.Outcome.next.inj h
    exact ⟨xchgFill_mem s, xchgFill_conf s⟩
  | test d len rx =>
    rw [seqAt_rbTest hp] at h
    obtain rfl := Host.Outcome.next.inj h
    exact ⟨rfl, rfl⟩
  | data d len j => exact absurd rfl (hd d len j)
  | ret v => obtain ⟨-, rfl⟩ | ⟨_, _, _, -, -, rfl⟩ := ret_cases hp h <;> exact ⟨rfl, rfl⟩

theorem ret_leaves_caller {q q' : Proc} {v v' : Byte} (hp : s.phase = .ret q v :: k) (h : returnValue v s = .next t) :
    t.phase ≠ .ret q' v' :: k := by
  intro hph
  have hlen := congrArg List.length hph
  obtain ⟨rfl, rfl⟩ | ⟨_, _, _, rfl, -, rfl⟩ := ret_cases hp h <;> simp at hlen

theorem receiving_fails_at_test {p : Pos} (hr : Receiving p) (hp : s.phase = p :: k) (h : seqAt p s = .next t)
    (hf : t.phase = .ret .recvblk Config.fail :: k) : ∃ d len rx, p = .rbTest d len rx := by
  obtain ⟨q, v, rfl, hret⟩ | ⟨top, hsucc, htop, -⟩ := seqAt_cases hp h
  · exact absurd hf (ret_leaves_caller hp hret)
  · obtain rfl : top = [.ret .recvblk Config.fail] := List.append_cancel_right (htop.symm.trans hf)
    cases hr with
    | test d len rx => exact ⟨d, len, rx, rfl⟩
    | load | xchg | data | crc1 | crc2 | ret => exact nomatch hsucc

/-- Settles O34: the top record is one of RECVBLK's own, and of these only the payload's stores and only the token test
goes to the failing return. -/
theorem receiveFailsBeforeStoring : Obligations.ReceiveFailsBeforeStoring := by
  intro s t p k hok hp hproc hstep
  rw [hp] at hok
  rw [seqStep_running hp] at hstep
  have hr := receiving_of_procOf hok hproc
  exact ⟨receiving_stores_only_in_data hr hp hstep, fun hf _ => receiving_fails_at_test hr hp hstep hf⟩

/-! ### SENDBLK to its end -/

/-- Settles O35: accepted, the block that `sendblk_taken` runs, then the return of its result. -/
theorem sendBlockRun : Obligations.SendBlockRun := by
  intro buf len tok b rest s hb ht hrf hfit hr
  refine ⟨_, accept_idle hb (by rwa [bufWraps_len]), ?_⟩
  refine reaches_trans (sendblk_taken b rest (bufAddr s buf) _ tok [] _ rfl hr hfit ht) ?_
  exact completed_idle hb rfl

/-- Settles O36: accepted, the block that `sendblk_rejected` runs, then the return of its result. -/
theorem sendBlockRejected : Obligations.SendBlockRejected := by
  intro buf len tok rx dd rest s hb hrf hdd hrx hr
  refine ⟨_, accept_idle hb (by rwa [bufWraps_len]), ?_⟩
  refine reaches_trans (sendblk_rejected dd rest rx (bufAddr s buf) _ tok [] _ rfl hr hdd hrx) ?_
  exact completed_idle hb rfl

end Sys2Proof.Proofs
end

section
/-! SECTOR_SIZE once NOINIT is clear (R307, R354, R361, R434): RDCONFIG passes the line that writes it before it can
succeed, and the host that is to clear NOINIT waits for RDCONFIG. -/

namespace Sys2Proof.Proofs

open Sys2Proof.Machine Sys2Proof.Safety Sys2Proof.Laws

variable {s t : State}

/-- SECTOR_SIZE holds what RDCONFIG writes there (R307). -/
def SizeWritten (s : State) : Prop := s.conf.sectorSize = BitVec.ofNat 16 s.cfg.sectorBytes

/-- `sizeOk` says this of a host that waits for RDCONFIG: the block still runs it, or it ended well only with the size
written. -/
def ConfigAwaited (s : State) : Prop :=
  if s.phase = [] then s.res = Config.ok → SizeWritten s else operation s = some .rdconfig

theorem sizeOk_iff (s : State) : sizeOk s ↔ s.events.all oneHost = true ∧
    (s.host.noinit = false → SizeWritten s) ∧ (s.phase.any sizeKnown = true → SizeWritten s) ∧
      (s.host.pos = .configRead → ConfigAwaited s) :=
  Iff.rfl

theorem configAwaited_idle (hp : s.phase = []) : ConfigAwaited s ↔ (s.res = Config.ok → SizeWritten s) := by
  rw [ConfigAwaited, if_pos hp]

theorem configAwaited_running {p : Pos} {k : List Pos} (hp : s.phase = p :: k) :
    ConfigAwaited s ↔ operation s = some .rdconfig := by
  rw [ConfigAwaited, if_neg (by simp [hp])]

/-! ### A step of the host -/

theorem starts_not_sizeKnown {p : Pos} (h : Starts p) : sizeKnown p = false := by
  cases h <;> rfl

theorem after_sizeKnown (hs : s.phase = []) (hp : PhaseAfter s t) : t.phase.any sizeKnown = false := by
  obtain hp | ⟨-, p, hstart, hp⟩ := hp <;> rw [hp]
  · rw [hs]; rfl
  · simp [starts_not_sizeKnown hstart]

/-- What a step of the host leaves of the terms of `sizeOk`. -/
theorem hostActs_kept (h : HostActs s t) : t.events = s.events ∧ (SizeWritten t ↔ SizeWritten s) := by
  obtain ⟨m, -, ⟨o, r, ph, g, -, rfl⟩, -⟩ := h
  exact ⟨rfl, Iff.rfl⟩

/-- The host clears NOINIT only after a RDCONFIG that ended well, and comes to wait for RDCONFIG by issuing it. -/
theorem hostMoves_sizeOk (hidle : s.phase = []) (h : sizeOk s) (hm : HostMoves s t) : sizeOk t := by
  rw [sizeOk_iff] at h ⊢
  obtain ⟨hev, hclear, -, hwait⟩ := h
  obtain ⟨hev', hsize⟩ := hostActs_kept hm.acts
  refine ⟨hev' ▸ hev, fun hn => hsize.2 ?_, fun hk => ?_, fun hpos => ?_⟩
  · obtain hsame | ⟨-, hpos, hres⟩ | ⟨hset, -⟩ := hm.noinit
    · exact hclear (hsame ▸ hn)
    · exact (configAwaited_idle hidle).1 (hwait hpos) hres
    · rw [hset] at hn
      cases hn
  · rw [after_sizeKnown hidle hm.acts.phase] at hk
    cases hk
  · have hstart := hm.waits hpos hidle
    rw [configAwaited_running hstart, operation, hstart]
    rfl

/-! ### A return -/

/-- The outermost record returns: where it is RDCONFIG's with `ok`, the size is known to be written. -/
theorem completed_sizeOk {q : Proc} {v : Byte} (hp : s.phase = [.ret q v]) (h : sizeOk s) :
    sizeOk { s with phase := [], res := v } := by
  rw [sizeOk_iff] at h ⊢
  obtain ⟨hev, hclear, hknown, hwait⟩ := h
  refine ⟨hev, hclear, nofun, fun hpos => (configAwaited_idle rfl).2 fun hv => hknown ?_⟩
  have hop : operation s = some .rdconfig := (configAwaited_running hp).1 (hwait hpos)
  obtain rfl : q = .rdconfig := by simpa [operation, hp, procOf] using hop
  obtain rfl : v = Config.ok := hv
  rw [hp]
  rfl

/-- A record of RDCONFIG past the line waits past it too. -/
theorem resume_sizeKnown {v : Byte} {w p : Pos} (h : resume v w = some p) (hp : sizeKnown p = true) :
    sizeKnown w = true := by
  cases w
  case txWaitOne d => cases d <;> cases h <;> cases hp
  all_goals cases h
  all_goals first | rfl | cases hp

/-- The running operation is the outermost record's procedure, whatever position that record is at. -/
theorem outermost_congr {p q : Pos} (k : List Pos) (h : procOf q = procOf p) :
    (q :: k).getLast?.map procOf = (p :: k).getLast?.map procOf := by
  cases k <;> simp [h]

/-- A running block goes on running the same operation, from a position the size was known at or with it written now. -/
theorem running_sizeOk {p p' : Pos} {k k' : List Pos} (hp : s.phase = p :: k) (hp' : t.phase = p' :: k') (h : sizeOk s)
    (hev : t.events = s.events) (hhost : t.host = s.host) (hkeep : SizeWritten s → SizeWritten t)
    (hknown : t.phase.any sizeKnown = true → s.phase.any sizeKnown = true ∨ SizeWritten t)
    (hop : operation t = operation s) : sizeOk t := by
  rw [sizeOk_iff, configAwaited_running hp] at h
  rw [sizeOk_iff, configAwaited_running hp', hev, hhost, hop]
  obtain ⟨hone, hclear, hsize, hwait⟩ := h
  exact ⟨hone, fun hn => hkeep (hclear hn), fun hk => (hknown hk).elim (fun hs => hkeep (hsize hs)) id, hwait⟩

theorem resumed_sizeOk {q : Proc} {v : Byte} {w p : Pos} {k : List Pos} (hp : s.phase = .ret q v :: w :: k)
    (hok : phaseOk s.phase = true) (hr : resume v w = some p) (h : sizeOk s) :
    sizeOk { s with phase := p :: k } := by
  rw [hp] at hok
  obtain ⟨hw, -⟩ := callersOk_cons.1 (phaseOk_cons.1 hok).2
  refine running_sizeOk hp rfl h rfl rfl id (fun hk => .inl ?_) ?_
  · simp only [hp, List.any_cons, Bool.or_eq_true] at hk ⊢
    exact .inr (hk.imp_left (resume_sizeKnown hr))
  · rw [operation, operation, hp, List.getLast?_cons_cons]
    exact outermost_congr k (resume_ok hw hr).2

/-! ### A move -/

theorem sizeKnown_csDummy (q : Proc) (v : Byte) : sizeKnown (.csDummy q v) = sizeKnown (.csOff q v) := by
  cases q <;> rfl

theorem sizeKnown_ret (q : Proc) (v : Byte) : sizeKnown (.ret q v) = sizeKnown (.csOff q v) := by
  cases q <;> rfl

/-- RDCONFIG comes past the line by the step that writes SECTOR_SIZE, and fails before it without `ok`. -/
theorem succ_sizeKnown {p : Pos} {top : List Pos} (h : Succ p top) (ht : top.any sizeKnown = true) :
    sizeKnown p = true ∨ p = .rcDecode := by
  cases h
  case rcDecode => exact .inr rfl
  case csOff q v => exact .inl (by simpa [sizeKnown_csDummy] using ht)
  case csDummy q v => exact .inl (by simpa [sizeKnown_csDummy, sizeKnown_ret] using ht)
  case txSingle d _ _ | txSingleFailed d _ _ | txMulti d _ _ _ | txMultiFailed d _ _ _ | txLoopEnd d _ _ _ _ |
      txBlock d _ _ _ _ _ | txRdy d _ _ _ => cases d <;> cases ht
  all_goals first | exact .inl rfl | cases ht

/-- A move of the top record leaves the outermost record in its procedure. -/
theorem succ_outermost {p : Pos} {top k : List Pos} (h : Succ p top) (hp : topOk p = true) :
    (top ++ k).getLast?.map procOf = (p :: k).getLast?.map procOf := by
  obtain ⟨q, rfl, -, hq⟩ | ⟨c, w, rfl, -, -, hw⟩ := succ_ok h hp
  · exact outermost_congr k hq
  · exact outermost_congr k hw

theorem kept_sizeWritten {p : Pos} (hk : Kept p s t) (h : SizeWritten s) : SizeWritten t := by
  rw [SizeWritten, hk.cfg]
  exact hk.size.elim (fun hsame => hsame.trans h) id

theorem moved_sizeOk {p : Pos} {k top : List Pos} (hp : s.phase = p :: k) (hok : phaseOk s.phase = true)
    (hs : Succ p top) (ht : t.phase = top ++ k) (hk : Kept p s t) (h : sizeOk s) : sizeOk t := by
  obtain ⟨p', k', hp'⟩ : ∃ p' k', t.phase = p' :: k' := by
    rw [ht]
    cases hs <;> exact ⟨_, _, rfl⟩
  refine running_sizeOk hp hp' h hk.events hk.host (kept_sizeWritten hk) (fun hany => ?_) ?_
  · rw [ht, List.any_append, Bool.or_eq_true] at hany
    rw [hp, List.any_cons, Bool.or_eq_true]
    obtain htop | hbelow := hany
    · obtain hknown | hdecode := succ_sizeKnown hs htop
      · exact .inl (.inl hknown)
      · exact .inr (by rw [SizeWritten, hk.cfg]; exact hk.decoded hdecode)
    · exact .inl (.inr hbelow)
  · rw [operation, operation, ht, hp]
    exact succ_outermost hs (phaseOk_cons.1 (hp ▸ hok)).1

/-! ### The step -/

theorem runEvent_sizeOk {e : Event} (he : oneHost e = true) (hok : phaseOk s.phase = true) (h : sizeOk s)
    (hr : runEvent e s = .next t) : sizeOk t := by
  obtain ⟨-, rfl⟩ | ⟨-, rfl⟩ | ⟨a, v, -, rfl⟩ | ⟨-, hidle, hm⟩ | ⟨bs, rfl, -⟩ | ⟨r, v, -, rfl⟩ |
    ⟨-, q, v, k, hp, hv⟩ | ⟨-, p, k, top, hp, hs, ht, hk⟩ := run_cases hr
  · exact h
  · exact ⟨h.1, nofun, nofun, nofun⟩
  · exact h
  · exact hostMoves_sizeOk hidle h hm
  · cases he
  · exact h
  · obtain ⟨rfl, rfl⟩ | ⟨w, k', p, rfl, hw, rfl⟩ := ret_cases hp hv
    · exact completed_sizeOk hp h
    · exact resumed_sizeOk hp hok hw h
  · exact moved_sizeOk hp hok hs ht hk h

/-- Taking the event off leaves the rest of `sizeOk`, and the event is none that another host presents. -/
theorem nextEvent_sizeOk (h : sizeOk s) : oneHost (nextEvent s).1 = true ∧ sizeOk (nextEvent s).2 := by
  obtain ⟨hev, hrest⟩ := h
  unfold nextEvent
  split
  · next e es he =>
    rw [he, List.all_cons, Bool.and_eq_true] at hev
    exact ⟨hev.1, hev.2, hrest⟩
  · refine ⟨?_, hev, hrest⟩
    dsimp only
    split <;> rfl

/-- Settles O54: no event of the one host or the outside breaks what `sizeOk` says. -/
theorem stepKeepsSectorSize : Obligations.StepKeepsSectorSize := by
  intro s t hok h hst
  obtain ⟨he, hn⟩ := nextEvent_sizeOk h
  rw [← nextEvent_phase] at hok
  exact runEvent_sizeOk he hok hn hst

end Sys2Proof.Proofs
end

section
/-! The formulas of the sector count and of the erase block (R310 to R315, R318, R331 to R333), field by field: each as
its bytes and as a number. -/

namespace Sys2Proof.Proofs

open Sys2Proof.Machine Sys2Proof.Safety

variable (csd : Vector Byte 16) (sd : Vector Byte 64)

/-! ### The fields -/

/-- The bits of a byte from bit `j` up. -/
theorem toNat_highBits (b : Byte) (j n : Nat) (h : j + n = 8) : (b.extractLsb' j n).toNat = b.toNat / 2 ^ j := by
  have hlt : b.toNat / 2 ^ j < 2 ^ n := Nat.div_lt_of_lt_mul (by rw [← pow_add, h]; exact b.isLt)
  rw [BitVec.extractLsb'_toNat, Nat.shiftRight_eq_div_pow, Nat.mod_eq_of_lt hlt]

/-- The low bits of a byte. -/
theorem toNat_lowBits (b : Byte) (n : Nat) : (b.extractLsb' 0 n).toNat = b.toNat % 2 ^ n := by
  rw [BitVec.extractLsb'_toNat, Nat.shiftRight_zero]

theorem csdStructure_toNat : (csdStructure csd).toNat = csd[0].toNat / 64 := toNat_highBits _ 6 2 rfl

theorem cSizeV2_toNat :
    (cSizeV2 csd).toNat = csd[7].toNat % 64 * 65536 + csd[8].toNat * 256 + csd[9].toNat := by
  rw [cSizeV2, toNat_append_eq_add, toNat_append_eq_add, toNat_lowBits]
  omega

theorem cSizeV1_toNat :
    (cSizeV1 csd).toNat = csd[6].toNat % 4 * 1024 + csd[7].toNat * 4 + csd[8].toNat / 64 := by
  rw [cSizeV1, toNat_append_eq_add, toNat_append_eq_add, toNat_lowBits, toNat_highBits _ 6 2 rfl]
  omega

theorem cSizeMult_toNat : (cSizeMult csd).toNat = csd[9].toNat % 4 * 2 + csd[10].toNat / 128 := by
  rw [cSizeMult, toNat_append_eq_add, toNat_lowBits, toNat_highBits _ 7 1 rfl]
  rfl

theorem readBlLen_toNat : (readBlLen csd).toNat = csd[5].toNat % 16 := toNat_lowBits _ 4

theorem sectorSizeF_toNat : (sectorSizeF csd).toNat = csd[10].toNat % 64 * 2 + csd[11].toNat / 128 := by
  rw [sectorSizeF, toNat_append_eq_add, toNat_lowBits, toNat_highBits _ 7 1 rfl]
  rfl

theorem writeBlLen_toNat : (writeBlLen csd).toNat = csd[12].toNat % 4 * 4 + csd[13].toNat / 64 := by
  rw [writeBlLen, toNat_append_eq_add, toNat_lowBits, toNat_highBits _ 6 2 rfl]
  rfl

theorem eraseGrpSize_toNat : (eraseGrpSize csd).toNat = csd[10].toNat / 4 % 32 := by
  rw [eraseGrpSize, BitVec.extractLsb'_toNat, Nat.shiftRight_eq_div_pow]

theorem eraseGrpMult_toNat : (eraseGrpMult csd).toNat = csd[10].toNat % 4 * 8 + csd[11].toNat / 32 := by
  rw [eraseGrpMult, toNat_append_eq_add, toNat_lowBits, toNat_highBits _ 5 3 rfl]
  rfl

theorem auNibble_toNat : (auNibble sd).toNat = sd[10].toNat / 16 := toNat_highBits _ 4 4 rfl

/-! ### The sector count -/

theorem sectorCountV2_toNat : (sectorCountV2 csd).toNat = ((cSizeV2 csd).toNat + 1) * 1024 % 2 ^ 32 :=
  BitVec.toNat_ofNat _ _

/-- A number shifted left, as a power of two, where the product fits 32 bits. -/
theorem toNat_ofNat_shiftLeft {n e : Nat} (h : n * 2 ^ e < 2 ^ 32) : (BitVec.ofNat 32 (n <<< e)).toNat = n * 2 ^ e := by
  rw [BitVec.toNat_ofNat, Nat.shiftLeft_eq, Nat.mod_eq_of_lt h]

/-- The exponent of version 1 is at most 15 + 7 - 7, so the count is at most 2^27. -/
theorem v1Count_le : ((cSizeV1 csd).toNat + 1) * 2 ^ (v1Exponent csd - 7) ≤ 2 ^ 27 := by
  have hsize : (cSizeV1 csd).toNat + 1 ≤ 2 ^ 12 := (cSizeV1 csd).isLt
  have hlen := (readBlLen csd).isLt
  have hmult := (cSizeMult csd).isLt
  have hexp : v1Exponent csd - 7 ≤ 15 := by
    unfold v1Exponent
    omega
  calc ((cSizeV1 csd).toNat + 1) * 2 ^ (v1Exponent csd - 7)
      ≤ 2 ^ 12 * 2 ^ 15 := Nat.mul_le_mul hsize (Nat.pow_le_pow_right (by decide) hexp)
    _ = 2 ^ 27 := by decide

theorem sectorCountV1_toNat : (sectorCountV1 csd).toNat = ((cSizeV1 csd).toNat + 1) * 2 ^ (v1Exponent csd - 7) :=
  toNat_ofNat_shiftLeft ((v1Count_le csd).trans_lt (by decide))

/-- Settles O45: the fields are their bytes; only the largest C_SIZE_V2 wraps, and a version-1 count never does. -/
theorem sectorCountFormulas : Obligations.SectorCountFormulas := by
  intro csd
  refine ⟨csdStructure_toNat csd, cSizeV2_toNat csd, cSizeV1_toNat csd, cSizeMult_toNat csd, readBlLen_toNat csd,
    sectorCountV2_toNat csd, ?_, fun _ => ⟨sectorCountV1_toNat csd, ?_⟩⟩
  · have hsize := (cSizeV2 csd).isLt
    rw [sectorCountV2_toNat]
    omega
  · rw [sectorCountV1_toNat]
    exact v1Count_le csd

/-! ### The erase block -/

theorem eraseFromStatus_toNat : (eraseFromStatus sd).toNat = 16 * 2 ^ (sd[10].toNat / 16) := by
  have hnibble : (auNibble sd).toNat ≤ 15 := Nat.le_of_lt_succ (auNibble sd).isLt
  have hfits : 16 * 2 ^ (auNibble sd).toNat < 2 ^ 32 :=
    (Nat.mul_le_mul_left 16 (Nat.pow_le_pow_right (by decide) hnibble)).trans_lt (by decide)
  rw [eraseFromStatus, toNat_ofNat_shiftLeft hfits, auNibble_toNat]

theorem eraseMmc_toNat :
    (eraseMmc csd).toNat = ((eraseGrpSize csd).toNat + 1) * ((eraseGrpMult csd).toNat + 1) := by
  have hsize : (eraseGrpSize csd).toNat + 1 ≤ 32 := (eraseGrpSize csd).isLt
  have hmult : (eraseGrpMult csd).toNat + 1 ≤ 32 := (eraseGrpMult csd).isLt
  rw [eraseMmc, BitVec.toNat_ofNat, Nat.mod_eq_of_lt ((Nat.mul_le_mul hsize hmult).trans_lt (by decide))]

theorem eraseSdv1_toNat (h : (writeBlLen csd).toNat ≤ 11) :
    (eraseSdv1 csd).toNat = ((sectorSizeF csd).toNat + 1) * 2 ^ ((writeBlLen csd).toNat - 9) := by
  have hsize : (sectorSizeF csd).toNat + 1 ≤ 2 ^ 7 := (sectorSizeF csd).isLt
  have hexp : (writeBlLen csd).toNat - 9 ≤ 2 := by omega
  exact toNat_ofNat_shiftLeft
    ((Nat.mul_le_mul hsize (Nat.pow_le_pow_right (by decide) hexp)).trans_lt (by decide))

/-- For the three block lengths CSD[12][1:0] is 2, so the exponent is in CSD[13][7:6] alone (R333). -/
theorem writeBlLen_sub_nine (h : (writeBlLen csd).toNat ∈ [9, 10, 11]) :
    (writeBlLen csd).toNat - 9 = csd[13].toNat / 64 - 1 := by
  simp only [writeBlLen_toNat, List.mem_cons, List.not_mem_nil, or_false] at h ⊢
  omega

/-- Settles O46: no formula's product leaves 32 bits, and the fields are their bytes. -/
theorem eraseBlockFormulas : Obligations.EraseBlockFormulas := by
  intro csd sd
  refine ⟨eraseFromStatus_toNat sd, ?_, sectorSizeF_toNat csd, writeBlLen_toNat csd, fun h => ?_⟩
  · rw [eraseMmc_toNat, eraseGrpSize_toNat, eraseGrpMult_toNat]
  · have hle : (writeBlLen csd).toNat ≤ 11 := by
      simp only [List.mem_cons, List.not_mem_nil, or_false] at h
      omega
    refine ⟨eraseSdv1_toNat csd hle, ?_⟩
    rw [eraseSdv1_toNat csd hle, sectorSizeF_toNat, writeBlLen_sub_nine csd h]

end Sys2Proof.Proofs
end

section
/-! RDCONFIG from acceptance to completion (R301, R302, R305 to R307, R315, R318, R330 to R334), and its failing exits. -/

namespace Sys2Proof.Proofs

open Sys2Proof.Machine Sys2Proof.Safety Sys2Proof.Laws

variable {s : State} {p : Pos} {k : List Pos}

/-! ### The failing exits -/

theorem configGuard_refused {b : Bool} (go : State) (hp : s.phase = p :: k) (hb : b = false) :
    configGuard b go s = .next { s with phase := .csOff .rdconfig Config.fail :: k } := by
  simp only [configGuard, hb, Bool.false_eq_true, if_false, goTo, hp, List.tail_cons]

/-- Each record that can fail goes to the release where it does (R301). -/
theorem seqAt_configFails (hp : s.phase = p :: k) (hf : configFails p = true) :
    seqAt p s = .next { s with phase := .csOff .rdconfig Config.fail :: k } := by
  cases p
  case rcOcr | rcCidCmd | rcCsdCmd | rcSdCmd =>
    exact configGuard_refused _ hp (by simpa [configFails, accepted] using hf)
  case rcCid | rcCsd | rcSd =>
    rw [eq_of_beq hf]
    exact configGuard_refused _ hp rfl
  all_goals cases hf

/-- R306: the release, the dummy byte and `fail`, nothing else written. -/
theorem config_failed (hp : s.phase = [p]) (hf : configFails p = true) (hs : s.sel = true) :
    Reaches s { (xchg s.cfg.fill { s with trace := .csOff :: s.trace }).2 with
      phase := [], res := 0#8, sel := false } := by
  refine reaches_step hp (seqAt_configFails hp hf) ?_
  refine reaches_trans (released_either_level rfl) ?_
  refine reaches_trans (completed rfl) ?_
  simp only [xchg_eq, hs, if_true]
  exact reaches_refl _

/-! ### The configuration decoded -/

/-- What RDCONFIG has written of the configuration before the erase block: the three registers as received, SECTOR_SIZE,
and SECTOR_COUNT where its version and exponent give one (R302, R305, R307, R315, R318). -/
structure Decoded (p : Params) (ocr cid csd : List Byte) (c : CardConfig) : Prop where
  ocr : c.ocr.toList = ocr
  cid : c.cid.toList = cid
  csd : c.csd.toList = csd
  size : c.sectorSize = BitVec.ofNat 16 p.sectorBytes
  countV2 : csdStructure c.csd = 1#2 → c.sectorCount = sectorCountV2 c.csd
  countV1 : csdStructure c.csd ≠ 1#2 → 7 ≤ v1Exponent c.csd → c.sectorCount = sectorCountV1 c.csd

/-- SECTOR_COUNT as step 3 of RDCONFIG writes it. -/
theorem decodeSectorCount_eq (s : State) : ∃ n d,
    decodeSectorCount s = { s with conf := { s.conf with sectorCount := n }, drawn := d } ∧
      (csdStructure s.conf.csd = 1#2 → n = sectorCountV2 s.conf.csd) ∧
      (csdStructure s.conf.csd ≠ 1#2 → 7 ≤ v1Exponent s.conf.csd → n = sectorCountV1 s.conf.csd) := by
  unfold decodeSectorCount
  split
  · next h2 => exact ⟨_, _, rfl, fun _ => rfl, fun h => absurd h2 h⟩
  · next h2 =>
    split
    · exact ⟨_, _, rfl, fun h => absurd h h2, fun _ _ => rfl⟩
    · next he => exact ⟨_, _, rfl, fun h => absurd h h2, fun _ h => absurd h he⟩

/-- A run that has read the registers goes on to the erase block, the size and the count decoded. -/
theorem reaches_rcErase {u : State} {ocr cid csd : List Byte} (hu : Reaches s u) (hp : u.phase = .rcDecode :: k)
    (ho : u.conf.ocr.toList = ocr) (hi : u.conf.cid.toList = cid) (hc : u.conf.csd.toList = csd) : ∃ c d,
    Decoded u.cfg ocr cid csd c ∧ c.sdstatus = u.conf.sdstatus ∧ c.eraseBlock = u.conf.eraseBlock ∧
      Reaches s { u with phase := .rcErase :: k, conf := c, drawn := d } := by
  obtain ⟨n, d, hn, h2, h1⟩ := decodeSectorCount_eq (decodeSectorSize u)
  have hstep : seqAt .rcDecode u = .next { u with
      phase := .rcErase :: k, conf := { (decodeSectorSize u).conf with sectorCount := n }, drawn := d } := by
    rw [seqAt, hn]
    simp only [goTo, decodeSectorSize, hp, List.tail_cons]
  exact ⟨{ (decodeSectorSize u).conf with sectorCount := n }, d, ⟨ho, hi, hc, rfl, h2, h1⟩, rfl, rfl,
    reaches_trans hu (reaches_step hp hstep (reaches_refl _))⟩

/-- A register of 16 bytes filled by a block. -/
theorem setBytes_full {bs : List Byte} {n : Nat} (v : Vector Byte n) (h : bs.length = n) :
    (setBytes 0 bs v).toList = bs := by
  rw [setBytes_toList _ _ _ (by omega)]
  simp [h]

theorem ocr_toList {bs : List Byte} (h : bs.length = 4) :
    (#v[bs.getD 0 0, bs.getD 1 0, bs.getD 2 0, bs.getD 3 0] : Vector Byte 4).toList = bs := by
  match bs, h with
  | [_, _, _, _], _ => rfl

/-- The trace of the three commands and two blocks, from the trace chip-select leaves. -/
def registersTrace (p : Params) (o ci cs : Answer) (b₁ b₂ : Block) (tr : List BusEvent) : List BusEvent :=
  exchanged p.fill (b₂.bytes p) (cs.trace p p.idxSendCsd 0
    (exchanged p.fill (b₁.bytes p) (ci.trace p p.idxSendCid 0 (o.trace p p.idxReadOcr 0 tr))))

/-- RDCONFIG up to the erase block, every command accepted and every block arriving (R301). -/
theorem rdconfig_decoded (o ci cs : Answer) (b₁ b₂ : Block) (rest : List Byte) (hp : s.phase = .rcStart :: k)
    (ht : boundsOk s.cfg = true) (hm : 4 ≤ s.resp.length)
    (ho : o.fits s.cfg 4 = true) (ho0 : o.r1 = 0#8) (hci : ci.fits s.cfg 0 = true) (hci0 : ci.r1 = 0#8)
    (h₁ : b₁.fits s.cfg 16 = true) (hcs : cs.fits s.cfg 0 = true) (hcs0 : cs.r1 = 0#8)
    (h₂ : b₂.fits s.cfg 16 = true)
    (hq : s.rxq = o.bytes ++ (ci.bytes ++ (b₁.bytes s.cfg ++ (cs.bytes ++ (b₂.bytes s.cfg ++ rest))))) : ∃ c d,
    Decoded s.cfg o.extra b₁.payload b₂.payload c ∧ c.sdstatus = s.conf.sdstatus ∧
      c.eraseBlock = s.conf.eraseBlock ∧ Reaches s { s with
        phase := .rcErase :: k, sel := true, t1 := s.cfg.recvTokenTicks, t2 := s.cfg.waitReadyTicks
        resp := o.extra ++ s.resp.drop 4, rxq := rest, conf := c, drawn := d
        trace := registersTrace s.cfg o ci cs b₁ b₂ (selected s) } := by
  obtain ⟨-, -, -, -, -, hocr⟩ := answer_fits ho
  obtain ⟨-, hcid, -⟩ := block_fits h₁
  obtain ⟨-, hcsd, -⟩ := block_fits h₂
  have hregs := rdconfig_registers o ci cs b₁ b₂ rest k s hp ht hm ho ho0 hci hci0 h₁ hcs hcs0 h₂ hq
  exact reaches_rcErase hregs rfl (ocr_toList hocr) (setBytes_full s.conf.cid hcid) (setBytes_full s.conf.csd hcsd)

/-- CS(release) at the end of RDCONFIG, and the return. -/
theorem config_closed {v d : Byte} {rest : List Byte} (hp : s.phase = [.csOff .rdconfig v]) (hr : s.rxq = d :: rest)
    (hs : s.sel = true) : Reaches s { s with
      phase := [], res := v, sel := false, rxq := rest
      trace := .exchange s.cfg.fill d :: .csOff :: s.trace } :=
  reaches_trans (released hp hr hs) (completed rfl)

/-! ### The erase block from the CSD -/

/-- What step 4 of RDCONFIG gives for a card that has no SD status: the result `v`, and `n` for ERASE_BLOCK, which was
`old` (R332 to R334). -/
structure CsdErase (t : CardType) (csd : Vector Byte 16) (old : BitVec 32) (v : Byte) (n : BitVec 32) : Prop where
  mmc : t = .mmc → v = 1#8 ∧ n = eraseMmc csd
  sdv1 : t = .sdv1 → v = 1#8 ∧ ((writeBlLen csd).toNat ∈ [9, 10, 11] → n = eraseSdv1 csd)
  unknown : t = .unknown → v = 0#8 ∧ n = old

theorem decodeEraseSdv1_eq (s : State) : ∃ n d,
    decodeEraseSdv1 s = { s with conf := { s.conf with eraseBlock := n }, drawn := d } ∧
      ((writeBlLen s.conf.csd).toNat ∈ [9, 10, 11] → n = eraseSdv1 s.conf.csd) := by
  unfold decodeEraseSdv1
  split
  · exact ⟨_, _, rfl, fun _ => rfl⟩
  · next h =>
    refine ⟨_, _, rfl, fun hm => absurd ?_ h⟩
    simp only [List.mem_cons, List.not_mem_nil, or_false] at hm
    omega

/-- The erase block of a card that has no SD status is one step. -/
theorem seqAt_rcErase_csd (hp : s.phase = .rcErase :: k) (h3 : s.cardType ≠ .sdv2sc) (h4 : s.cardType ≠ .sdv2hc) :
    ∃ v n d, CsdErase s.cardType s.conf.csd s.conf.eraseBlock v n ∧
      seqAt .rcErase s = .next { s with
        phase := .csOff .rdconfig v :: k, conf := { s.conf with eraseBlock := n }, drawn := d } := by
  cases ht : s.cardType
  case sdv2sc => exact absurd ht h3
  case sdv2hc => exact absurd ht h4
  case mmc =>
    exact ⟨_, _, _, ⟨fun _ => ⟨rfl, rfl⟩, nofun, nofun⟩, by
      simp only [seqAt, eraseStep, ht, goTo, setEraseBlock, hp, List.tail_cons]; rfl⟩
  case sdv1 =>
    obtain ⟨n, d, hn, hv⟩ := decodeEraseSdv1_eq s
    exact ⟨_, n, d, ⟨nofun, fun _ => ⟨rfl, hv⟩, nofun⟩, by
      simp only [seqAt, eraseStep, ht, hn, goTo, hp, List.tail_cons]; rfl⟩
  case unknown =>
    exact ⟨_, _, _, ⟨nofun, nofun, fun _ => ⟨rfl, rfl⟩⟩, by
      simp only [seqAt, eraseStep, ht, goTo, hp, List.tail_cons]; rfl⟩

theorem reaches_csdErase {u : State} (hu : Reaches s u) (hp : u.phase = .rcErase :: k) (h3 : u.cardType ≠ .sdv2sc)
    (h4 : u.cardType ≠ .sdv2hc) : ∃ v n d, CsdErase u.cardType u.conf.csd u.conf.eraseBlock v n ∧ Reaches s { u with
      phase := .csOff .rdconfig v :: k, conf := { u.conf with eraseBlock := n }, drawn := d } := by
  obtain ⟨v, n, d, he, hstep⟩ := seqAt_rcErase_csd hp h3 h4
  exact ⟨v, n, d, he, reaches_trans hu (reaches_step hp hstep (reaches_refl _))⟩

/-- Settles O43: a failed command or block goes straight to the release; with none, the registers are read and decoded,
the CSD gives the erase block, and RDCONFIG ends. -/
theorem readConfigRun : Obligations.ReadConfigRun := by
  refine ⟨fun s p hp hf hs => config_failed hp hf hs, ?_⟩
  intro o ci cs b₁ b₂ d rest s hb h3 h4 ht hm hresp ho ho0 hci hci0 h₁ hcs hcs0 h₂ hq
  obtain ⟨c, _, hdec, hsd, hold, hrun⟩ := rdconfig_decoded (s := { s with
      ops := { s.ops with op := 0xA }, phase := [.rcStart] })
    o ci cs b₁ b₂ (d :: rest) rfl ht (hm.trans_eq hresp.symm) ho ho0 hci hci0 h₁ hcs hcs0 h₂ hq
  obtain ⟨v, n, _, herase, hrun⟩ := reaches_csdErase hrun rfl h3 h4
  have hend := reaches_trans hrun (config_closed rfl rfl rfl)
  refine ⟨_, _, accept_idle hb rfl, hend, rfl, rfl, rfl, rfl, rfl, rfl, rfl, rfl, rfl, rfl, rfl, hdec.ocr, hdec.cid,
    hdec.csd, hsd, hdec.size, hdec.countV2, hdec.countV1, herase.mmc, herase.sdv1, fun hu => ?_, rfl⟩
  exact ⟨(herase.unknown hu).1, (herase.unknown hu).2.trans hold⟩

/-! ### The erase block from the SD status -/

theorem seqAt_rcErase_status (hp : s.phase = .rcErase :: k) (ht : s.cardType = .sdv2sc ∨ s.cardType = .sdv2hc) :
    seqAt .rcErase s = .next { s with phase := .saStart s.cfg.idxSdStatus 0 1 :: .rcWaitSdCmd :: k } := by
  obtain ht | ht := ht <;> simp only [seqAt, eraseStep, ht, callSub, hp, List.tail_cons]

theorem seqAt_rcSdCmd (hp : s.phase = .rcSdCmd 0#8 :: k) :
    seqAt (.rcSdCmd 0#8) s = .next { s with phase := .rbLoad .sdstatus 16 :: .rcWaitSd :: k } := by
  simp only [seqAt, configGuard, accepted, beq_self_eq_true, if_true, callSub, hp, List.tail_cons]

theorem seqAt_rcSd (hp : s.phase = .rcSd Config.ok :: k) :
    seqAt (.rcSd Config.ok) s = .next { s with phase := .rcSkip 0 :: k } := by
  simp only [seqAt, configGuard, beq_self_eq_true, if_true, goTo, hp, List.tail_cons]

theorem seqAt_rcUnit (hp : s.phase = .rcUnit :: k) : seqAt .rcUnit s = .next { s with
    phase := .csOff .rdconfig Config.ok :: k
    conf := { s.conf with eraseBlock := eraseFromStatus s.conf.sdstatus } } := by
  simp only [seqAt, goTo, setEraseBlock, hp, List.tail_cons]

/-- The rest of the status block is clocked out and dropped (R330). -/
theorem status_rest_dropped (sk rest : List Byte) {i : Nat} (s : State) (hp : s.phase = .rcSkip i :: k)
    (hr : s.rxq = sk ++ rest) (hn : i + sk.length = 48) : Reaches s { s with
      phase := .rcUnit :: k, rxq := rest, trace := exchanged s.cfg.fill sk s.trace } := by
  induction sk generalizing i s with
  | nil =>
    obtain rfl : i = 48 := hn
    obtain rfl : s.rxq = rest := hr
    exact reaches_step hp (by simp only [seqAt, lt_irrefl, if_false, goTo, hp, List.tail_cons]; rfl) (reaches_refl _)
  | cons b sk ih =>
    have hlt : i < 48 := by
      rw [← hn]
      simp
    refine reaches_step hp (t := { s with
        phase := .rcSkip (i + 1) :: k, rxq := sk ++ rest, trace := .exchange s.cfg.fill b :: s.trace })
      (by simp only [seqAt, if_pos hlt, xchgDrop, xchgFill_cons hr, goTo, hp, List.tail_cons]; rfl) ?_
    have h := ih (i := i + 1) { s with
        phase := .rcSkip (i + 1) :: k, rxq := sk ++ rest, trace := .exchange s.cfg.fill b :: s.trace }
      rfl rfl (by rw [← hn, List.length_cons]; omega)
    simpa [exchanged] using h

theorem exchanged_append (tx : Byte) (xs ys : List Byte) (tr : List BusEvent) :
    exchanged tx (xs ++ ys) tr = exchanged tx ys (exchanged tx xs tr) := by
  simp [exchanged]

/-- Step 4 of RDCONFIG for an SD version 2 card: the status command, 16 bytes kept, 48 dropped, the unit taken from them
(R330, R331). -/
theorem rdconfig_status (pf sd : Answer) (b₃ : Block) (sk rest : List Byte) (hp : s.phase = .rcErase :: k)
    (hcard : s.cardType = .sdv2sc ∨ s.cardType = .sdv2hc) (ht : boundsOk s.cfg = true) (hm : 1 ≤ s.resp.length)
    (hs : s.sel = true) (hpf : pf.fits s.cfg 0 = true) (hpf1 : pf.r1.toNat ≤ 1) (hsd : sd.fits s.cfg 1 = true)
    (hsd0 : sd.r1 = 0#8) (h₃ : b₃.fits s.cfg 16 = true) (hn : sk.length = 48)
    (hr : s.rxq = pf.bytes ++ (sd.bytes ++ (b₃.bytes s.cfg ++ (sk ++ rest)))) : Reaches s { s with
      phase := .csOff .rdconfig Config.ok :: k, t1 := s.cfg.recvTokenTicks, t2 := s.cfg.waitReadyTicks
      resp := sd.extra ++ s.resp.drop 1, rxq := rest
      conf := { s.conf with
        sdstatus := setBytes 0 b₃.payload s.conf.sdstatus
        eraseBlock := eraseFromStatus (setBytes 0 b₃.payload s.conf.sdstatus) }
      trace := exchanged s.cfg.fill (b₃.bytes s.cfg ++ sk)
        (sd.trace s.cfg s.cfg.idxSdStatus 0 (pf.trace s.cfg s.cfg.idxAppCmd 0 s.trace)) } := by
  refine reaches_step hp (seqAt_rcErase_status hp hcard) ?_
  refine reaches_trans (sendacmd_answered pf sd _ _ _ _ _ _ rfl hr hpf hsd (eq_zero_or_one_of_toNat_le_one hpf1) ht hm) ?_
  refine reaches_trans (returned rfl rfl) ?_
  rw [hsd0]
  refine reaches_step rfl (seqAt_rcSdCmd rfl) ?_
  refine reaches_trans (recvblk_received b₃ _ .sdstatus 16 _ _ rfl rfl h₃ ht) ?_
  rw [storePayload_sdstatus]
  refine reaches_trans (returned rfl rfl) ?_
  refine reaches_step rfl (seqAt_rcSd rfl) ?_
  refine reaches_trans (status_rest_dropped sk rest _ rfl rfl (by rw [hn])) ?_
  refine reaches_step rfl (seqAt_rcUnit rfl) ?_
  simpa [exchanged_append, selected, hs] using reaches_refl _

/-- The first 16 bytes of SDSTATUS as received, the others kept (R330). -/
theorem setBytes_leading {bs : List Byte} {m n : Nat} (v : Vector Byte n) (h : bs.length = m) (hle : m ≤ n) :
    (setBytes 0 bs v).toList = bs ++ v.toList.drop m := by
  subst h
  rw [setBytes_toList _ _ _ (by omega)]
  simp

/-- Settles O44: the registers are read and decoded, the SD status gives the erase block, and RDCONFIG ends. -/
theorem readConfigStatusRun : Obligations.ReadConfigStatusRun := by
  intro o ci cs pf sd b₁ b₂ b₃ sk d rest s hb hcard ht hm hresp ho ho0 hci hci0 h₁ hcs hcs0 h₂ hpf hpf1 hsd hsd0 h₃ hn hq
  obtain ⟨c, _, hdec, hst, -, hrun⟩ := rdconfig_decoded (s := { s with
      ops := { s.ops with op := 0xA }, phase := [.rcStart] })
    o ci cs b₁ b₂ _ rfl ht (hm.trans_eq hresp.symm) ho ho0 hci hci0 h₁ hcs hcs0 h₂ hq
  obtain ⟨-, hlen, -⟩ := block_fits h₃
  have hresp1 : 1 ≤ (o.extra ++ s.resp.drop 4).length := by
    obtain ⟨-, -, -, -, -, hx⟩ := answer_fits ho
    rw [List.length_append, hx]
    exact Nat.le_add_right_of_le (by decide)
  have hstatus := reaches_trans hrun
    (rdconfig_status pf sd b₃ sk (d :: rest) rfl hcard ht hresp1 rfl hpf hpf1 hsd hsd0 h₃ hn rfl)
  have hend := reaches_trans hstatus (config_closed rfl rfl rfl)
  refine ⟨_, _, accept_idle hb rfl, hend, rfl, rfl, rfl, rfl, rfl, rfl, rfl, rfl, rfl, rfl, rfl, rfl, hdec.ocr, hdec.cid,
    hdec.csd, ?_, hdec.size, hdec.countV2, hdec.countV1, rfl, rfl⟩
  rw [← hst]
  exact setBytes_leading c.sdstatus hlen (by decide)

end Sys2Proof.Proofs
end

section
/-! The three timed loops without ticks (R433): a round is an exchange and a test that goes on, and rounds repeat. -/

namespace Sys2Proof.Proofs

open Sys2Proof.Machine Sys2Proof.Safety Sys2Proof.Laws

variable {s : State} {q : Pos} {test : Byte → Pos} {k : List Pos}

theorem xchgKeep_cons {rx : Byte} {rest : List Byte} (hp : s.phase = q :: k) (hr : s.rxq = rx :: rest) :
    xchgKeep test s = .next { s with
      phase := test rx :: k, rxq := rest, trace := .exchange s.cfg.fill rx :: s.trace } := by
  simp only [xchgKeep, xchgFill_cons hr, goTo, hp, List.tail_cons]

/-- A loop that exchanges at `q` and comes back from `test b`, whatever else is to be received: one more exchange for
each byte, and nothing else (R152, R433). -/
theorem poll_goes_on (bs rest : List Byte) (s : State) (hp : s.phase = q :: k) (hr : s.rxq = bs ++ rest)
    (hexchange : seqAt q = xchgKeep test)
    (htest : ∀ b ∈ bs, ∀ rxs tr, seqAt (test b) { s with phase := test b :: k, rxq := rxs, trace := tr } =
      .next { s with phase := q :: k, rxq := rxs, trace := tr }) :
    runEvents (List.replicate (2 * bs.length) .go) s =
      .next { s with rxq := rest, trace := exchanged s.cfg.fill bs s.trace } := by
  induction bs generalizing s with
  | nil =>
    obtain rfl : s.rxq = rest := hr
    rfl
  | cons b bs ih =>
    have hx : seqAt q s = .next { s with
        phase := test b :: k, rxq := bs ++ rest, trace := .exchange s.cfg.fill b :: s.trace } :=
      (congrFun hexchange s).trans (xchgKeep_cons hp hr)
    have hback := htest b List.mem_cons_self (bs ++ rest) (.exchange s.cfg.fill b :: s.trace)
    refine (runEvents_go _ hp hx).trans (Eq.trans (runEvents_go _ rfl hback) ?_)
    refine Eq.trans (ih _ rfl rfl fun x hm => htest x (List.mem_cons_of_mem b hm)) ?_
    simp [exchanged, hp]

/-- Settles O26: each loop's test leads back to its exchange where the byte does not match and the timer is not zero. -/
theorem noTicksNoEnd : Obligations.NoTicksNoEnd := by
  intro bs rest s k hr
  refine ⟨fun hp ht hb => ?_, fun hp ht hb => ?_, fun d len hp ht hstrict hb => ?_⟩
  · have h := waitrdy_goes_on bs rest [] s hp hr hb ht
    rwa [List.append_nil] at h
  · refine poll_goes_on bs rest s hp hr rfl fun b hm rxs tr => ?_
    rw [seqAt_sbTest rfl]
    simp only [hb b hm, ht, if_false]
  · refine poll_goes_on bs rest s hp hr rfl fun b hm rxs tr => ?_
    rw [seqAt_rbTest rfl]
    simp only [hb b hm, ht, hstrict, Bool.false_eq_true, false_and, if_false]

end Sys2Proof.Proofs
end

section
/-! NOINIT: who changes it (R353 to R355), what the adapter's calls do while it is set (R351, R356), and the reset that
sets it (R410, R411). -/

namespace Sys2Proof.Proofs

open Sys2Proof.Machine Sys2Proof.Safety Sys2Proof.Laws

variable {s t : State}

/-! ### Who changes it -/

theorem runEvent_noinit {e : Event} (hr : runEvent e s = .next t) (hne : t.host.noinit ≠ s.host.noinit) :
    e = .reset ∨ busy s = false ∧ e = .go ∧
      ((t.host.noinit = false ∧ s.host.pos = .configRead ∧ s.res = 1#8) ∨
        (t.host.noinit = true ∧ s.host.pos = .free ∧ s.host.calls.head? = some .init)) := by
  obtain ⟨-, rfl⟩ | ⟨he, -⟩ | ⟨a, v, -, rfl⟩ | ⟨he, hidle, hm⟩ | ⟨bs, -, -, ps, hh⟩ | ⟨r, v, -, rfl⟩ |
    ⟨-, q, v, k, hp, hv⟩ | ⟨-, p, k, top, -, -, -, hk⟩ := run_cases hr
  · exact absurd rfl hne
  · exact .inl he
  · exact absurd rfl hne
  · exact .inr ⟨by simp [busy, hidle], he, hm.noinit.resolve_left hne⟩
  · exact absurd (by rw [hh]) hne
  · exact absurd rfl hne
  · obtain ⟨-, rfl⟩ | ⟨w, k', p, -, -, rfl⟩ := ret_cases hp hv <;> exact absurd rfl hne
  · exact absurd (by rw [hk.host]) hne

/-- Settles O55: taking the event off touches neither the host nor RES nor PHASE, and of what the event may do only a
reset and the host's two points of `initialize()` write NOINIT. -/
theorem onlyInitializeChangesNoinit : Obligations.OnlyInitializeChangesNoinit := by
  intro s t hst hne
  obtain ⟨e, es, d, he, hr⟩ := step_cases hst
  rw [he]
  exact runEvent_noinit (s := { s with events := es, drawn := d }) hr hne

/-! ### A call while it is set -/

/-- With NOINIT set a call that exists, `status` and `initialize()` apart, returns NotReady at once (R356, R359). -/
theorem startCall_notReady {c : Call} (hn : s.host.noinit = true) (he : callExists s.cfg c = true) (hstatus : c ≠ .status)
    (hinit : c ≠ .init) : startCall c s = Machine.finish (.code .notReady) s := by
  cases c
  case status => exact absurd rfl hstatus
  case init => exact absurd rfl hinit
  case write b n m =>
    have hw : s.cfg.writeSupport = true := he
    simp only [startCall, hw, hn, Bool.not_true, Bool.false_eq_true, if_false, if_true]
  all_goals simp only [startCall, hn, if_true]

/-- A free host that finishes the call it has just begun stays where it is. -/
theorem finish_of_free {cs : List Call} (r : CallRet) (hf : s.host.pos = .free) :
    Machine.finish r { s with host := { s.host with calls := cs } } =
      .next { s with host := { s.host with calls := cs, ret := some r } } := by
  simp only [Machine.finish, hf]

/-- Settles O57: each of these calls is finished in the step that begins it. -/
theorem notReadyShortCircuit : Obligations.NotReadyShortCircuit := by
  intro s cs c _ hf hc
  refine ⟨fun hstatus => ?_, fun hn he hstatus hinit => ?_⟩ <;> rw [hostStep_call hf hc]
  · rw [hstatus, startCall, finishStatus, finish_of_free _ hf, statusByte_eq]
  · rw [startCall_notReady (s := { s with host := { s.host with calls := cs } }) hn he hstatus hinit,
      finish_of_free _ hf]

/-! ### Reset -/

/-- Settles O14: the reset block is the reset state but for what R411 says stays. -/
theorem resetEndsOperation : Obligations.ResetEndsOperation := fun s =>
  ⟨resetBlock s, rfl, rfl, rfl, rfl, memRead_congr rfl rfl, rfl, rfl, rfl, rfl, rfl, rfl, rfl, rfl⟩

end Sys2Proof.Proofs
end
